-- ==== Sys2Proof/Word.lean ====
section
/-! DEFINITION. The two word types of the machine (R6): the 8-bit byte, the smallest addressable unit,
and the 16-bit word of PC, SP, the register pairs and every address. -/

namespace Sys2Proof

/-- The addressable unit: 8 bits (R6). -/
abbrev Byte := BitVec 8

/-- Pairs, PC, SP and addresses: 16 bits (R6). -/
abbrev Word := BitVec 16

end Sys2Proof
end

