-- ==== Sys2Proof/Machine/Bits.lean ====
section
/-! DEFINITION. Bit fields, byte order and sign extension (R8, R10, R157), the helpers of the decoder and of the
meanings. -/

namespace Sys2Proof

/-- `hi ++ lo` (R8): the word whose high byte is `hi`. -/
def Word.ofBytes (hi lo : Byte) : Word := hi ++ lo

/-- `v[15:8]`. -/
def Word.hi (w : Word) : Byte := w.extractLsb' 8 8

/-- `v[7:0]`. -/
def Word.lo (w : Word) : Byte := w.extractLsb' 0 8

/-- `sext_16(v)` (R8). -/
def Byte.sext (v : Byte) : Word := v.signExtend 16

/-- `0xFF ++ n`, the address that LDH forms (R157). -/
def Byte.highPage (n : Byte) : Word := Word.ofBytes 0xFF#8 n

/-- `v[3:0]` as a number. -/
def Byte.lowNibble (v : Byte) : Nat := v.toNat % 16

/-- The field x of an opcode byte, `op[7:6]` (R152). -/
def Byte.fieldX (op : Byte) : Nat := op.toNat / 64

/-- The field y of an opcode byte, `op[5:3]` (R152). -/
def Byte.fieldY (op : Byte) : Nat := op.toNat / 8 % 8

/-- The field z of an opcode byte, `op[2:0]` (R152). -/
def Byte.fieldZ (op : Byte) : Nat := op.toNat % 8

end Sys2Proof
end

