-- ==== Sys2Proof/Syntax.lean ====
section
/-! DEFINITION. The instructions: one constructor per row of spec/opcode_table.json (R159, R161, R166), with the
operand codes of R153 to R157 as types. -/

namespace Sys2Proof

/-- The 8-bit operand codes 0..5 and 7 (R153). Code 6 is not a register: the forms that use it are constructors of
their own. -/
inductive Reg8 where
  | b | c | d | e | h | l | a
  deriving DecidableEq, Repr

/-- The 16-bit pair code rr (R154). -/
inductive Reg16 where
  | bc | de | hl | sp
  deriving DecidableEq, Repr

/-- The 16-bit pair code qq of PUSH and POP (R155). -/
inductive RegStk where
  | bc | de | hl | af
  deriving DecidableEq, Repr

/-- The condition code cc (R156). -/
inductive Cond where
  | nz | z | nc | c
  deriving DecidableEq, Repr

/-- An instruction. Immediates are the bytes of the instruction: `n` unsigned, `e` the signed byte as it is
encoded, `nn` the 16-bit word (R157). The bit number of BIT, RES and SET and the field y of RST have 3 bits. -/
inductive Instr where
  -- 8-bit loads (R200 to R218)
  | ldRR (d s : Reg8)
  | ldRN (d : Reg8) (n : Byte)
  | ldRHL (d : Reg8)
  | ldHLR (s : Reg8)
  | ldHLN (n : Byte)
  | ldABC
  | ldADE
  | ldBCA
  | ldDEA
  | ldANn (nn : Word)
  | ldNnA (nn : Word)
  | ldhAC
  | ldhCA
  | ldhAN (n : Byte)
  | ldhNA (n : Byte)
  | ldAHLD
  | ldHLDA
  | ldAHLI
  | ldHLIA
  -- 16-bit loads and the stack (R230 to R235)
  | ldRpNn (p : Reg16) (nn : Word)
  | ldNnSP (nn : Word)
  | ldSPHL
  | ldHLSPE (e : Byte)
  | pushQ (q : RegStk)
  | popQ (q : RegStk)
  -- 8-bit arithmetic and logic (R251 to R282)
  | addR (s : Reg8)
  | addHL
  | addN (n : Byte)
  | adcR (s : Reg8)
  | adcHL
  | adcN (n : Byte)
  | subR (s : Reg8)
  | subHL
  | subN (n : Byte)
  | sbcR (s : Reg8)
  | sbcHL
  | sbcN (n : Byte)
  | andR (s : Reg8)
  | andHL
  | andN (n : Byte)
  | xorR (s : Reg8)
  | xorHL
  | xorN (n : Byte)
  | orR (s : Reg8)
  | orHL
  | orN (n : Byte)
  | cpR (s : Reg8)
  | cpHL
  | cpN (n : Byte)
  | incR (d : Reg8)
  | incHL
  | decR (d : Reg8)
  | decHL
  | daa
  | cpl
  | scf
  | ccf
  -- 16-bit arithmetic (R290 to R293)
  | addHLRp (p : Reg16)
  | incRp (p : Reg16)
  | decRp (p : Reg16)
  | addSPE (e : Byte)
  -- rotates of A (R300 to R303)
  | rlca
  | rrca
  | rla
  | rra
  -- jumps, calls, returns (R330 to R340)
  | jpNn (nn : Word)
  | jpCc (c : Cond) (nn : Word)
  | jpHL
  | jrE (e : Byte)
  | jrCc (c : Cond) (e : Byte)
  | callNn (nn : Word)
  | callCc (c : Cond) (nn : Word)
  | ret
  | retCc (c : Cond)
  | reti
  | rst (y : BitVec 3)
  -- system (R360 to R366)
  | nop
  | di
  | halt
  /-- The byte after the opcode is fetched and ignored (R363). -/
  | stop (n : Byte)
  | ei
  /-- `PREFIX CB` (R365): the first byte of a two-byte instruction, with its second byte. It is no instruction by
  itself: the decoder answers the prefixed row that the second byte selects, so this term is not well-formed. -/
  | prefixCB (op2 : Byte)
  | undefD3
  | undefDB
  | undefDD
  | undefE3
  | undefE4
  | undefEB
  | undefEC
  | undefED
  | undefF4
  | undefFC
  | undefFD
  -- prefixed rotates, shifts and swap (R304 to R319)
  | rlcR (s : Reg8)
  | rlcHL
  | rrcR (s : Reg8)
  | rrcHL
  | rlR (s : Reg8)
  | rlHL
  | rrR (s : Reg8)
  | rrHL
  | slaR (s : Reg8)
  | slaHL
  | sraR (s : Reg8)
  | sraHL
  | swapR (s : Reg8)
  | swapHL
  | srlR (s : Reg8)
  | srlHL
  -- prefixed bit test, reset and set (R320 to R325)
  | bitR (b : BitVec 3) (s : Reg8)
  | bitHL (b : BitVec 3)
  | resR (b : BitVec 3) (s : Reg8)
  | resHL (b : BitVec 3)
  | setR (b : BitVec 3) (s : Reg8)
  | setHL (b : BitVec 3)
  deriving DecidableEq, Repr

end Sys2Proof
end

