-- ==== Sys2Proof/WellFormed.lean ====
section
/-! DEFINITION. Which instruction terms stand for an encoding. The operand types of Syntax.lean already exclude every
operand the encoding has no code for; the one check left is that `PREFIX CB` is no instruction by itself (R365). -/

namespace Sys2Proof

/-- `true` for the terms the encoder has a word of its own for. -/
def Instr.wellFormed : Instr → Bool
  | .ldRR _ _ => true
  | .ldRN _ _ => true
  | .ldRHL _ => true
  | .ldHLR _ => true
  | .ldHLN _ => true
  | .ldABC => true
  | .ldADE => true
  | .ldBCA => true
  | .ldDEA => true
  | .ldANn _ => true
  | .ldNnA _ => true
  | .ldhAC => true
  | .ldhCA => true
  | .ldhAN _ => true
  | .ldhNA _ => true
  | .ldAHLD => true
  | .ldHLDA => true
  | .ldAHLI => true
  | .ldHLIA => true
  | .ldRpNn _ _ => true
  | .ldNnSP _ => true
  | .ldSPHL => true
  | .ldHLSPE _ => true
  | .pushQ _ => true
  | .popQ _ => true
  | .addR _ => true
  | .addHL => true
  | .addN _ => true
  | .adcR _ => true
  | .adcHL => true
  | .adcN _ => true
  | .subR _ => true
  | .subHL => true
  | .subN _ => true
  | .sbcR _ => true
  | .sbcHL => true
  | .sbcN _ => true
  | .andR _ => true
  | .andHL => true
  | .andN _ => true
  | .xorR _ => true
  | .xorHL => true
  | .xorN _ => true
  | .orR _ => true
  | .orHL => true
  | .orN _ => true
  | .cpR _ => true
  | .cpHL => true
  | .cpN _ => true
  | .incR _ => true
  | .incHL => true
  | .decR _ => true
  | .decHL => true
  | .daa => true
  | .cpl => true
  | .scf => true
  | .ccf => true
  | .addHLRp _ => true
  | .incRp _ => true
  | .decRp _ => true
  | .addSPE _ => true
  | .rlca => true
  | .rrca => true
  | .rla => true
  | .rra => true
  | .jpNn _ => true
  | .jpCc _ _ => true
  | .jpHL => true
  | .jrE _ => true
  | .jrCc _ _ => true
  | .callNn _ => true
  | .callCc _ _ => true
  | .ret => true
  | .retCc _ => true
  | .reti => true
  | .rst _ => true
  | .nop => true
  | .di => true
  | .halt => true
  | .stop _ => true
  | .ei => true
  | .prefixCB _ => false
  | .undefD3 => true
  | .undefDB => true
  | .undefDD => true
  | .undefE3 => true
  | .undefE4 => true
  | .undefEB => true
  | .undefEC => true
  | .undefED => true
  | .undefF4 => true
  | .undefFC => true
  | .undefFD => true
  | .rlcR _ => true
  | .rlcHL => true
  | .rrcR _ => true
  | .rrcHL => true
  | .rlR _ => true
  | .rlHL => true
  | .rrR _ => true
  | .rrHL => true
  | .slaR _ => true
  | .slaHL => true
  | .sraR _ => true
  | .sraHL => true
  | .swapR _ => true
  | .swapHL => true
  | .srlR _ => true
  | .srlHL => true
  | .bitR _ _ => true
  | .bitHL _ => true
  | .resR _ _ => true
  | .resHL _ => true
  | .setR _ _ => true
  | .setHL _ => true

end Sys2Proof
end

