-- ==== Sys2Proof/Decode.lean ====
section
/-! DEFINITION. The decoder, total on any bytes (R150 to R163), and after it the encoder, written from the same
tables, and the host's entry point `decodeTableWord`. -/

namespace Sys2Proof

/-! ## Operand codes -/

/-- The register of a 3-bit operand code; none for code 6, the byte at HL (R153). -/
def Reg8.ofCode : Nat → Option Reg8
  | 0 => some .b
  | 1 => some .c
  | 2 => some .d
  | 3 => some .e
  | 4 => some .h
  | 5 => some .l
  | 7 => some .a
  | _ => none

/-- The 3-bit operand code of a register (R153). -/
def Reg8.code : Reg8 → Nat
  | .b => 0
  | .c => 1
  | .d => 2
  | .e => 3
  | .h => 4
  | .l => 5
  | .a => 7

/-- The pair of a 2-bit code rr (R154). -/
def Reg16.ofCode : Nat → Reg16
  | 0 => .bc
  | 1 => .de
  | 2 => .hl
  | _ => .sp

/-- The 2-bit code rr of a pair (R154). -/
def Reg16.code : Reg16 → Nat
  | .bc => 0
  | .de => 1
  | .hl => 2
  | .sp => 3

/-- The pair of a 2-bit code qq (R155). -/
def RegStk.ofCode : Nat → RegStk
  | 0 => .bc
  | 1 => .de
  | 2 => .hl
  | _ => .af

/-- The 2-bit code qq of a pair (R155). -/
def RegStk.code : RegStk → Nat
  | .bc => 0
  | .de => 1
  | .hl => 2
  | .af => 3

/-- The condition of a 2-bit code cc (R156). -/
def Cond.ofCode : Nat → Cond
  | 0 => .nz
  | 1 => .z
  | 2 => .nc
  | _ => .c

/-- The 2-bit code cc of a condition (R156). -/
def Cond.code : Cond → Nat
  | .nz => 0
  | .z => 1
  | .nc => 2
  | .c => 3

/-! ## Decoding -/

/-- The opcodes of length 2 (R163). -/
def twoByteOpcodes : List Byte :=
  [0x06#8, 0x0E#8, 0x10#8, 0x16#8, 0x18#8, 0x1E#8, 0x20#8, 0x26#8, 0x28#8, 0x2E#8, 0x30#8, 0x36#8, 0x38#8, 0x3E#8]
  ++ [0xC6#8, 0xCB#8, 0xCE#8, 0xD6#8, 0xDE#8, 0xE0#8, 0xE6#8, 0xE8#8, 0xEE#8, 0xF0#8, 0xF6#8, 0xF8#8, 0xFE#8]

/-- The opcodes of length 3 (R163). -/
def threeByteOpcodes : List Byte :=
  [0x01#8, 0x08#8, 0x11#8, 0x21#8, 0x31#8, 0xC2#8, 0xC3#8, 0xC4#8, 0xCA#8]
  ++ [0xCC#8, 0xCD#8, 0xD2#8, 0xD4#8, 0xDA#8, 0xDC#8, 0xEA#8, 0xFA#8]

/-- The length of an instruction, told by its first byte alone (R150, R163). -/
def opLength (op : Byte) : Nat :=
  if twoByteOpcodes.contains op then 2
  else if threeByteOpcodes.contains op then 3
  else 1

/-- The quarter x = 0 of the unprefixed map (R160). -/
def decodeX0 (y z : Nat) (n : Byte) (nn : Word) : Instr :=
  match z with
  | 0 =>
    match y with
    | 0 => .nop
    | 1 => .ldNnSP nn
    | 2 => .stop n
    | 3 => .jrE n
    | _ => .jrCc (Cond.ofCode (y - 4)) n
  | 1 => if y % 2 = 0 then .ldRpNn (Reg16.ofCode (y / 2)) nn else .addHLRp (Reg16.ofCode (y / 2))
  | 2 =>
    match y with
    | 0 => .ldBCA
    | 1 => .ldABC
    | 2 => .ldDEA
    | 3 => .ldADE
    | 4 => .ldHLIA
    | 5 => .ldAHLI
    | 6 => .ldHLDA
    | _ => .ldAHLD
  | 3 => if y % 2 = 0 then .incRp (Reg16.ofCode (y / 2)) else .decRp (Reg16.ofCode (y / 2))
  | 4 =>
    match Reg8.ofCode y with
    | some r => .incR r
    | none => .incHL
  | 5 =>
    match Reg8.ofCode y with
    | some r => .decR r
    | none => .decHL
  | 6 =>
    match Reg8.ofCode y with
    | some r => .ldRN r n
    | none => .ldHLN n
  | _ =>
    match y with
    | 0 => .rlca
    | 1 => .rrca
    | 2 => .rla
    | 3 => .rra
    | 4 => .daa
    | 5 => .cpl
    | 6 => .scf
    | _ => .ccf

/-- The quarter x = 1: the 8-bit loads and HALT (R160). -/
def decodeX1 (y z : Nat) : Instr :=
  match Reg8.ofCode y, Reg8.ofCode z with
  | some d, some s => .ldRR d s
  | some d, none => .ldRHL d
  | none, some s => .ldHLR s
  | none, none => .halt

/-- The accumulator operation y with a register operand or the byte at HL (R158, R160). -/
def decodeX2 (y z : Nat) : Instr :=
  match y, Reg8.ofCode z with
  | 0, some r => .addR r
  | 0, none => .addHL
  | 1, some r => .adcR r
  | 1, none => .adcHL
  | 2, some r => .subR r
  | 2, none => .subHL
  | 3, some r => .sbcR r
  | 3, none => .sbcHL
  | 4, some r => .andR r
  | 4, none => .andHL
  | 5, some r => .xorR r
  | 5, none => .xorHL
  | 6, some r => .orR r
  | 6, none => .orHL
  | _, some r => .cpR r
  | _, none => .cpHL

/-- The accumulator operation y with an immediate operand (R158). -/
def decodeAluN (y : Nat) (n : Byte) : Instr :=
  match y with
  | 0 => .addN n
  | 1 => .adcN n
  | 2 => .subN n
  | 3 => .sbcN n
  | 4 => .andN n
  | 5 => .xorN n
  | 6 => .orN n
  | _ => .cpN n

/-- The operation byte after 0xCB (R161): every one of its 256 values is an instruction. -/
def decodeCB (op2 : Byte) : Instr :=
  let y := op2.fieldY
  let b := BitVec.ofNat 3 y
  match op2.fieldX, Reg8.ofCode op2.fieldZ with
  | 0, some r =>
    match y with
    | 0 => .rlcR r
    | 1 => .rrcR r
    | 2 => .rlR r
    | 3 => .rrR r
    | 4 => .slaR r
    | 5 => .sraR r
    | 6 => .swapR r
    | _ => .srlR r
  | 0, none =>
    match y with
    | 0 => .rlcHL
    | 1 => .rrcHL
    | 2 => .rlHL
    | 3 => .rrHL
    | 4 => .slaHL
    | 5 => .sraHL
    | 6 => .swapHL
    | _ => .srlHL
  | 1, some r => .bitR b r
  | 1, none => .bitHL b
  | 2, some r => .resR b r
  | 2, none => .resHL b
  | _, some r => .setR b r
  | _, none => .setHL b

/-- The quarter x = 3 of the unprefixed map, the undefined opcodes among them (R160, R162). -/
def decodeX3 (y z : Nat) (n : Byte) (nn : Word) : Instr :=
  match z with
  | 0 =>
    match y with
    | 4 => .ldhNA n
    | 5 => .addSPE n
    | 6 => .ldhAN n
    | 7 => .ldHLSPE n
    | _ => .retCc (Cond.ofCode y)
  | 1 =>
    match y with
    | 1 => .ret
    | 3 => .reti
    | 5 => .jpHL
    | 7 => .ldSPHL
    | _ => .popQ (RegStk.ofCode (y / 2))
  | 2 =>
    match y with
    | 4 => .ldhCA
    | 5 => .ldNnA nn
    | 6 => .ldhAC
    | 7 => .ldANn nn
    | _ => .jpCc (Cond.ofCode y) nn
  | 3 =>
    match y with
    | 0 => .jpNn nn
    | 1 => decodeCB n
    | 2 => .undefD3
    | 3 => .undefDB
    | 4 => .undefE3
    | 5 => .undefEB
    | 6 => .di
    | _ => .ei
  | 4 =>
    match y with
    | 4 => .undefE4
    | 5 => .undefEC
    | 6 => .undefF4
    | 7 => .undefFC
    | _ => .callCc (Cond.ofCode y) nn
  | 5 =>
    match y with
    | 1 => .callNn nn
    | 3 => .undefDD
    | 5 => .undefED
    | 7 => .undefFD
    | _ => .pushQ (RegStk.ofCode (y / 2))
  | 6 => decodeAluN y n
  | _ => .rst (BitVec.ofNat 3 y)

/-- The instruction whose bytes are `b0`, `b1`, `b2`, of which it has `opLength b0` (R160). -/
def decodeBytes (b0 b1 b2 : Byte) : Instr :=
  match b0.fieldX with
  | 0 => decodeX0 b0.fieldY b0.fieldZ b1 (Word.ofBytes b2 b1)
  | 1 => decodeX1 b0.fieldY b0.fieldZ
  | 2 => decodeX2 b0.fieldY b0.fieldZ
  | _ => decodeX3 b0.fieldY b0.fieldZ b1 (Word.ofBytes b2 b1)

/-- Why a list of bytes holds no whole instruction. No byte value is refused: the eleven undefined opcodes are
instructions whose meaning is the lock (R366). -/
inductive DecodeError where
  /-- There is no byte at all. -/
  | noBytes
  /-- The list ends before the last byte of the instruction that `op` begins. -/
  | truncated (op : Byte)
  deriving DecidableEq, Repr

/-- Decodes the first instruction of a list of bytes and gives the bytes after it. -/
def decode : List Byte → Except DecodeError (Instr × List Byte)
  | [] => .error .noBytes
  | b0 :: rest =>
    if opLength b0 = 1 then .ok (decodeBytes b0 0#8 0#8, rest)
    else
      match rest with
      | [] => .error (.truncated b0)
      | b1 :: rest =>
        if opLength b0 = 2 then .ok (decodeBytes b0 b1 0#8, rest)
        else
          match rest with
          | [] => .error (.truncated b0)
          | b2 :: rest => .ok (decodeBytes b0 b1 b2, rest)

/-! ## Encoding -/

/-- The opcode byte with the fields x, y, z (R152). -/
def opcode (x y z : Nat) : Byte := BitVec.ofNat 8 (64 * x + 8 * y + z)

/-- The opcode byte and the little-endian word of format F3 (R151). -/
def formatF3 (op : Byte) (nn : Word) : List Byte := [op, Word.lo nn, Word.hi nn]

/-- The bytes of an instruction (R159, R161). -/
def encode : Instr → List Byte
  | .ldRR d s => [opcode 1 d.code s.code]
  | .ldRN d n => [opcode 0 d.code 6, n]
  | .ldRHL d => [opcode 1 d.code 6]
  | .ldHLR s => [opcode 1 6 s.code]
  | .ldHLN n => [0x36#8, n]
  | .ldABC => [0x0A#8]
  | .ldADE => [0x1A#8]
  | .ldBCA => [0x02#8]
  | .ldDEA => [0x12#8]
  | .ldANn nn => formatF3 0xFA#8 nn
  | .ldNnA nn => formatF3 0xEA#8 nn
  | .ldhAC => [0xF2#8]
  | .ldhCA => [0xE2#8]
  | .ldhAN n => [0xF0#8, n]
  | .ldhNA n => [0xE0#8, n]
  | .ldAHLD => [0x3A#8]
  | .ldHLDA => [0x32#8]
  | .ldAHLI => [0x2A#8]
  | .ldHLIA => [0x22#8]
  | .ldRpNn p nn => formatF3 (opcode 0 (2 * p.code) 1) nn
  | .ldNnSP nn => formatF3 0x08#8 nn
  | .ldSPHL => [0xF9#8]
  | .ldHLSPE e => [0xF8#8, e]
  | .pushQ q => [opcode 3 (2 * q.code) 5]
  | .popQ q => [opcode 3 (2 * q.code) 1]
  | .addR s => [opcode 2 0 s.code]
  | .addHL => [0x86#8]
  | .addN n => [0xC6#8, n]
  | .adcR s => [opcode 2 1 s.code]
  | .adcHL => [0x8E#8]
  | .adcN n => [0xCE#8, n]
  | .subR s => [opcode 2 2 s.code]
  | .subHL => [0x96#8]
  | .subN n => [0xD6#8, n]
  | .sbcR s => [opcode 2 3 s.code]
  | .sbcHL => [0x9E#8]
  | .sbcN n => [0xDE#8, n]
  | .andR s => [opcode 2 4 s.code]
  | .andHL => [0xA6#8]
  | .andN n => [0xE6#8, n]
  | .xorR s => [opcode 2 5 s.code]
  | .xorHL => [0xAE#8]
  | .xorN n => [0xEE#8, n]
  | .orR s => [opcode 2 6 s.code]
  | .orHL => [0xB6#8]
  | .orN n => [0xF6#8, n]
  | .cpR s => [opcode 2 7 s.code]
  | .cpHL => [0xBE#8]
  | .cpN n => [0xFE#8, n]
  | .incR d => [opcode 0 d.code 4]
  | .incHL => [0x34#8]
  | .decR d => [opcode 0 d.code 5]
  | .decHL => [0x35#8]
  | .daa => [0x27#8]
  | .cpl => [0x2F#8]
  | .scf => [0x37#8]
  | .ccf => [0x3F#8]
  | .addHLRp p => [opcode 0 (2 * p.code + 1) 1]
  | .incRp p => [opcode 0 (2 * p.code) 3]
  | .decRp p => [opcode 0 (2 * p.code + 1) 3]
  | .addSPE e => [0xE8#8, e]
  | .rlca => [0x07#8]
  | .rrca => [0x0F#8]
  | .rla => [0x17#8]
  | .rra => [0x1F#8]
  | .jpNn nn => formatF3 0xC3#8 nn
  | .jpCc c nn => formatF3 (opcode 3 c.code 2) nn
  | .jpHL => [0xE9#8]
  | .jrE e => [0x18#8, e]
  | .jrCc c e => [opcode 0 (4 + c.code) 0, e]
  | .callNn nn => formatF3 0xCD#8 nn
  | .callCc c nn => formatF3 (opcode 3 c.code 4) nn
  | .ret => [0xC9#8]
  | .retCc c => [opcode 3 c.code 0]
  | .reti => [0xD9#8]
  | .rst y => [opcode 3 y.toNat 7]
  | .nop => [0x00#8]
  | .di => [0xF3#8]
  | .halt => [0x76#8]
  | .stop n => [0x10#8, n]
  | .ei => [0xFB#8]
  | .prefixCB op2 => [0xCB#8, op2]
  | .undefD3 => [0xD3#8]
  | .undefDB => [0xDB#8]
  | .undefDD => [0xDD#8]
  | .undefE3 => [0xE3#8]
  | .undefE4 => [0xE4#8]
  | .undefEB => [0xEB#8]
  | .undefEC => [0xEC#8]
  | .undefED => [0xED#8]
  | .undefF4 => [0xF4#8]
  | .undefFC => [0xFC#8]
  | .undefFD => [0xFD#8]
  | .rlcR s => [0xCB#8, opcode 0 0 s.code]
  | .rlcHL => [0xCB#8, 0x06#8]
  | .rrcR s => [0xCB#8, opcode 0 1 s.code]
  | .rrcHL => [0xCB#8, 0x0E#8]
  | .rlR s => [0xCB#8, opcode 0 2 s.code]
  | .rlHL => [0xCB#8, 0x16#8]
  | .rrR s => [0xCB#8, opcode 0 3 s.code]
  | .rrHL => [0xCB#8, 0x1E#8]
  | .slaR s => [0xCB#8, opcode 0 4 s.code]
  | .slaHL => [0xCB#8, 0x26#8]
  | .sraR s => [0xCB#8, opcode 0 5 s.code]
  | .sraHL => [0xCB#8, 0x2E#8]
  | .swapR s => [0xCB#8, opcode 0 6 s.code]
  | .swapHL => [0xCB#8, 0x36#8]
  | .srlR s => [0xCB#8, opcode 0 7 s.code]
  | .srlHL => [0xCB#8, 0x3E#8]
  | .bitR b s => [0xCB#8, opcode 1 b.toNat s.code]
  | .bitHL b => [0xCB#8, opcode 1 b.toNat 6]
  | .resR b s => [0xCB#8, opcode 2 b.toNat s.code]
  | .resHL b => [0xCB#8, opcode 2 b.toNat 6]
  | .setR b s => [0xCB#8, opcode 3 b.toNat s.code]
  | .setHL b => [0xCB#8, opcode 3 b.toNat 6]

/-! ## The host's entry point -/

/-- The longest instruction as bytes at ascending addresses, from bits numbered as spec/opcode_table.json numbers
them: the first byte is bits 7..0, and every bit from `nbits` up is 0. -/
def tableBytes (nbits w : Nat) : List Byte :=
  let v := w % 2 ^ nbits
  [BitVec.ofNat 8 v, BitVec.ofNat 8 (v / 256), BitVec.ofNat 8 (v / 65536)]

/-- The instruction the decoder reads from the bits `w` of a row of spec/opcode_table.json. -/
def decodeTableWord (nbits w : Nat) : Option Instr :=
  match decode (tableBytes nbits w) with
  | .ok (i, _) => some i
  | .error _ => none

end Sys2Proof
end

