-- ==== Sys2Proof/Config.lean ====
section
/-! DEFINITION. The named parameters of the machine (R7) as plain data, with the defaults the spec gives, and
the two uninterpreted functions for what the spec leaves to the implementation. The parameters `rom`, `ram_init`,
`cart_ram_init` and `reset_regs` are arguments of the load (Machine/Boot.lean); `serial_event` is a host move
(Machine/HostMoves.lean). -/

namespace Sys2Proof

/-- Parameter `rtc_source` (R7, R140, R141): what advances the cartridge clock. -/
inductive RtcSource where
  | emulated
  | host
  deriving DecidableEq, Repr

/-- Parameter `ppu_mode3_extra` (R7, R487): which function of the line's state gives the extra dots of
pixel-transfer. `constant 0` is the default; `documented` is the instance R487 writes out; `free` is any function
with the stated bound (`Config.mode3Extra`). -/
inductive Mode3Extra where
  | constant (n : Fin 118)
  | documented
  | free
  deriving DecidableEq, Repr

/-- The parameters of the step (R7, R16). They are fixed at load and no step changes them. -/
structure Params where
  /-- `halt_bug` (D10, R611). -/
  haltBug : Bool
  /-- `ppu_access_blocking` (D14, R84). -/
  ppuAccessBlocking : Bool
  /-- `ppu_mode3_extra` (D18, R487). -/
  mode3Extra : Mode3Extra
  /-- `obj_per_line` (D22, R496). -/
  objPerLine : Nat
  /-- Numerator of `sample_period`, a positive rational number of T-cycles (D24, R585). -/
  samplePeriodNum : Nat
  /-- Denominator of `sample_period`. -/
  samplePeriodDen : Nat
  /-- `rtc_source` (D27, R140). -/
  rtcSource : RtcSource
  deriving DecidableEq, Repr

namespace Params

/-- The default of every parameter (the table of R7). -/
def default : Params where
  haltBug := false
  ppuAccessBlocking := false
  mode3Extra := .constant 0
  objPerLine := 8
  samplePeriodNum := 4194304
  samplePeriodDen := 44100
  rtcSource := .emulated

/-- `sample_period` is a positive rational (R7, R585). -/
def wf (p : Params) : Bool := 0 < p.samplePeriodNum && 0 < p.samplePeriodDen

end Params

/-- The extra dots of pixel-transfer as any function of SCX, the selected objects with their X bytes and whether the
window is visible, bounded by 117 (R487). It has no body: a claim holds whatever it is. DESIGN CHOICE, safe
(notes/assumptions/10.md). -/
opaque Config.mode3Extra : Byte → List (Nat × Byte) → Bool → Fin 118

/-- What the PPU would read `n + 1` bytes below VRAM. R499 can form such an offset in one corner only (an object
selected as 8 x 16, flipped, with tile 0, and LCDC[2] cleared before the line is composed) and states no value for it.
It has no body. DESIGN CHOICE, safe (notes/assumptions/18.md). -/
opaque Config.belowVram : Nat → Byte

end Sys2Proof
end

