-- ==== Sys2Proof/Machine/Memory.lean ====
section
/-! DEFINITION. One byte array of the machine (R39, R38) as a canonical list of cells: offsets strictly rising,
and no cell that holds what an unlisted offset reads as. -/

namespace Sys2Proof.Machine

/-- A byte array, keyed by offset. -/
abbrev Memory := List Host.Cell

namespace Memory

/-- What an offset that no cell lists reads as. The reset contents of every RAM are unspecified (D21); zero is this
model's DESIGN CHOICE, unsafe (notes/assumptions/1.md), and the ROM image of the reset state is all zeros (2.md). -/
def unlisted : Byte := 0x00#8

/-- The byte at an offset. -/
def read : Memory → Nat → Byte
  | [], _ => unlisted
  | (k, v) :: m, a => if a = k then v else read m a

/-- Stores a byte at an offset, keeping the canonical form. -/
def write : Memory → Nat → Byte → Memory
  | [], a, v => if v = unlisted then [] else [(a, v)]
  | (k, w) :: m, a, v =>
    if a < k then (if v = unlisted then (k, w) :: m else (a, v) :: (k, w) :: m)
    else if a = k then (if v = unlisted then m else (a, v) :: m)
    else (k, w) :: write m a v

/-- Every offset of the list is at least `lo`, and they rise strictly. -/
def risingFrom : Nat → Memory → Bool
  | _, [] => true
  | lo, (k, _) :: m => lo ≤ k && risingFrom (k + 1) m

/-- The canonical form. -/
def wf (m : Memory) : Bool := risingFrom 0 m && m.all (fun c => c.2 ≠ unlisted)

/-- The array whose bytes from offset `o` on are `bs`, over `m`. -/
def writeList (m : Memory) (o : Nat) : List Byte → Memory
  | [] => m
  | b :: bs => writeList (write m o b) (o + 1) bs

end Memory

end Sys2Proof.Machine
end

