-- ==== Sys2Proof/Machine/State.lean ====
section
/-! DEFINITION. The whole state of the machine as plain data (R20 to R44), the reasons a step can stop, and the state
right after reset (R40, R44, R601). -/

namespace Sys2Proof.Machine

/-! ## CPU (R20 to R31) -/

/-- The eight 8-bit registers, SP and PC (R20, R24, R25). F keeps its low nibble 0 (R22). -/
structure Regs where
  a : Byte
  f : Byte
  b : Byte
  c : Byte
  d : Byte
  e : Byte
  h : Byte
  l : Byte
  sp : Word
  pc : Word
  deriving DecidableEq, Repr

/-- The run mode (R29). -/
inductive RunMode where
  | running
  | halted
  | stopped
  | locked
  deriving DecidableEq, Repr

/-! ## Timer, joypad, serial port (R33 to R35) -/

/-- `sysclk`, TIMA, TMA and the three stored bits of TAC (R33, R450 to R454). -/
structure Timer where
  sysclk : BitVec 16
  tima : Byte
  tma : Byte
  tac : BitVec 3
  deriving DecidableEq, Repr

/-- `joy_select`, `buttons` and `joy_lines` (R34, R460 to R464). -/
structure Joypad where
  select : BitVec 2
  buttons : Byte
  lastLines : BitVec 4
  deriving DecidableEq, Repr

/-- SB and the two stored bits of SC (R35, R470). -/
structure Serial where
  sb : Byte
  sc7 : Bool
  sc0 : Bool
  deriving DecidableEq, Repr

/-! ## PPU (R36) -/

/-- A framebuffer cell: a 2-bit shade (R502). -/
abbrev Shade := BitVec 2

/-- One row of the framebuffer. -/
abbrev Row := Vector Shade 160

/-- The PPU's registers, counters and framebuffer (R36). `stat` holds STAT[6:3]. The mode is not stored (R486).
`lineObjs` holds, with each selected OAM index, the Y byte that the selection read (R500: the composition reads bytes 1
to 3 only): DEDUCED, unsafe (notes/assumptions/17.md). -/
structure Ppu where
  lcdc : Byte
  stat : BitVec 4
  scy : Byte
  scx : Byte
  lyc : Byte
  bgp : Byte
  obp0 : Byte
  obp1 : Byte
  wy : Byte
  wx : Byte
  dma : Byte
  ly : Nat
  dot : Nat
  mode3Len : Nat
  statLine : Bool
  winLine : Nat
  winTriggered : Bool
  lineObjs : List (Nat × Byte)
  frameReady : Bool
  framebuffer : Vector Row 144
  deriving DecidableEq, Repr

/-! ## APU (R37) -/

/-- A length counter: its enable `len_en_k` and its count `len_k` (R544). -/
structure LengthCounter where
  en : Bool
  count : Nat
  deriving DecidableEq, Repr

/-- The register NRk2 with `vol_k` and `env_timer_k` (R548, R552). -/
structure Envelope where
  nr2 : Byte
  vol : BitVec 4
  timer : Nat
  deriving DecidableEq, Repr

/-- A pulse channel (R550 to R555): `on_k`, length, envelope, `freq_k`, `timer_k`, `duty_k`, `duty_pos_k`. -/
structure Pulse where
  on : Bool
  len : LengthCounter
  env : Envelope
  freq : BitVec 11
  timer : Nat
  duty : BitVec 2
  dutyPos : BitVec 3
  deriving DecidableEq, Repr

/-- The sweep unit of channel 1 (R549, R550): the stored bits NR10[6:0], `sweep_on`, `sweep_timer`, `sweep_shadow`. -/
structure Sweep where
  nr10 : BitVec 7
  on : Bool
  timer : Nat
  shadow : BitVec 11
  deriving DecidableEq, Repr

/-- The wave channel (R560 to R565): `on_3`, NR30[7], length, NR32[6:5], `freq_3`, `timer_3`, `wave_pos`, `wave_buf`. -/
structure Wave where
  on : Bool
  dac : Bool
  len : LengthCounter
  level : BitVec 2
  freq : BitVec 11
  timer : Nat
  pos : BitVec 5
  buf : BitVec 4
  deriving DecidableEq, Repr

/-- The noise channel (R570 to R573): `on_4`, length, envelope, NR43, `timer_4`, `lfsr`. -/
structure Noise where
  on : Bool
  len : LengthCounter
  env : Envelope
  nr43 : Byte
  timer : Nat
  lfsr : BitVec 15
  deriving DecidableEq, Repr

/-- The four channels, the frame sequencer and the mixer (R37, R540). `sampleAcc` is the accumulator of T-cycles in
units of one over the denominator of `sample_period`. `audioOut` is in generation order, (left, right). -/
structure Apu where
  on : Bool
  ch1 : Pulse
  sweep : Sweep
  ch2 : Pulse
  ch3 : Wave
  ch4 : Noise
  nr50 : Byte
  nr51 : Byte
  fsCounter : Nat
  fsStep : BitVec 3
  sampleAcc : Nat
  audioOut : List (Nat × Nat)
  deriving DecidableEq, Repr

/-! ## Cartridge (R38) -/

/-- The four controller variants (R38, R120). -/
inductive Variant where
  | none
  | mbc1
  | mbc2
  | mbc3
  deriving DecidableEq, Repr

/-- The real-time-clock registers (R137), DH as its three implemented bits. -/
structure Rtc where
  s : BitVec 6
  m : BitVec 6
  h : BitVec 5
  dl : Byte
  day8 : Bool
  halt : Bool
  carry : Bool
  deriving DecidableEq, Repr

/-- What the header gives (R111) and the controller registers of every variant (R38). -/
structure Cart where
  variant : Variant
  romBanks : Nat
  ramBanks : Nat
  ramSize : Nat
  hasRtc : Bool
  battery : Bool
  ramEnable : Bool
  bank1 : BitVec 5
  bank2 : BitVec 2
  mbc1Mode : Bool
  mbc2RomBank : BitVec 4
  mbc3RomBank : BitVec 7
  ramRtcSel : BitVec 4
  rtcLive : Rtc
  rtcLatched : Rtc
  latchPrev : Byte
  rtcSubsec : Nat
  deriving DecidableEq, Repr

/-! ## Everything the bus reaches -/

/-- The memories, the cartridge, the devices, the interrupt registers, and the cost an OAM copy leaves for the next
CPU step (R30, R32, R39, R63). `rom` and `cartRam` are the cartridge's images, keyed by their own offsets. -/
structure Bus where
  rom : Memory
  cartRam : Memory
  vram : Memory
  wram : Memory
  oam : Memory
  hram : Memory
  waveRam : Memory
  cart : Cart
  timer : Timer
  joy : Joypad
  serial : Serial
  ppu : Ppu
  apu : Apu
  ie : Byte
  iflag : BitVec 5
  dmaCost : Nat
  deriving DecidableEq, Repr

/-- The state of the machine. `opAddr` and `cycles` are the model's own: the address of the opcode byte the last
fetch read (so that the lock can put PC back on it, R401), and the M-cycles the last CPU step returned (R420).
DESIGN CHOICE, safe (notes/assumptions/4.md, 5.md). -/
structure State where
  regs : Regs
  ime : Bool
  imePending : Bool
  mode : RunMode
  haltPcHold : Bool
  lockReported : Bool
  opAddr : Word
  cycles : Nat
  bus : Bus
  params : Params
  deriving DecidableEq, Repr

/-! ## Reasons to stop -/

/-- The faults of a step. There is none: R620 says a tick "always terminates, never fails and never blocks", and the
one synchronous exception, the lock of an undefined opcode, is a next state (R400, R401). Nobody raises a fault. -/
inductive Fault where
  deriving DecidableEq, Repr

/-- The refusals of a step. -/
inductive Refusal where
  /-- Raised by an arm of `exec` whose instruction has no meaning yet. No arm raises it now; safe. -/
  | notModelled (mnemonic : String)
  deriving DecidableEq, Repr

/-- What a meaning answers. -/
abbrev Answer := Host.Outcome State Fault Refusal

/-! ## Reset (R40, R44, R601) -/

/-- CPU registers after reset (R44). -/
def Regs.reset : Regs where
  a := 0x01#8
  f := 0xB0#8
  b := 0x00#8
  c := 0x13#8
  d := 0x00#8
  e := 0xD8#8
  h := 0x01#8
  l := 0x4D#8
  sp := 0xFFFE#16
  pc := 0x0100#16

/-- The timer after reset (R40, R44): DIV reads 0xAB. -/
def Timer.reset : Timer where
  sysclk := 0xABCC#16
  tima := 0x00#8
  tma := 0x00#8
  tac := 0#3

/-- The joypad after reset (R44): P1 reads 0xCF. -/
def Joypad.reset : Joypad where
  select := 0#2
  buttons := 0x00#8
  lastLines := 0xF#4

/-- The serial port after reset (R44): SC reads 0x7E. -/
def Serial.reset : Serial where
  sb := 0x00#8
  sc7 := false
  sc0 := false

/-- The PPU after reset (R40, R44): line 0, dot 0, with pixel-transfer `mode3Len` dots long. -/
def Ppu.resetWith (mode3Len : Nat) : Ppu where
  lcdc := 0x91#8
  stat := 0#4
  scy := 0x00#8
  scx := 0x00#8
  lyc := 0x00#8
  bgp := 0xFC#8
  obp0 := 0xFF#8
  obp1 := 0xFF#8
  wy := 0x00#8
  wx := 0x00#8
  dma := 0xFF#8
  ly := 0
  dot := 0
  mode3Len := mode3Len
  statLine := false
  winLine := 0
  winTriggered := false
  lineObjs := []
  frameReady := false
  framebuffer := Vector.replicate 144 (Vector.replicate 160 0#2)

/-- A length counter after reset (R44). -/
def LengthCounter.reset : LengthCounter := ⟨false, 0⟩

/-- A pulse channel after reset (R40, R44): `freq` 0x7FF, so the period is 4 T-cycles (R546). -/
def Pulse.resetWith (nr2 : Byte) (duty : BitVec 2) : Pulse where
  on := false
  len := LengthCounter.reset
  env := ⟨nr2, 0#4, 0⟩
  freq := 0x7FF#11
  timer := 4
  duty := duty
  dutyPos := 0#3

/-- The APU after reset (R40, R44): on, every channel off. -/
def Apu.reset : Apu where
  on := true
  ch1 := Pulse.resetWith 0xF3#8 2#2
  sweep := ⟨0#7, false, 0, 0#11⟩
  ch2 := Pulse.resetWith 0x00#8 0#2
  ch3 := ⟨false, false, LengthCounter.reset, 0#2, 0x7FF#11, 2, 0#5, 0#4⟩
  ch4 := ⟨false, LengthCounter.reset, ⟨0x00#8, 0#4, 0⟩, 0x00#8, 8, 0x7FFF#15⟩
  nr50 := 0x77#8
  nr51 := 0xF3#8
  fsCounter := 8192
  fsStep := 0#3
  sampleAcc := 0
  audioOut := []

/-- RTC registers that no host restored (R44). -/
def Rtc.zero : Rtc := ⟨0#6, 0#6, 0#5, 0x00#8, false, false, false⟩

/-- The cartridge after reset (R44), for what its header gives. -/
def Cart.resetWith (variant : Variant) (romBanks ramBanks ramSize : Nat) (hasRtc battery : Bool) : Cart where
  variant := variant
  romBanks := romBanks
  ramBanks := ramBanks
  ramSize := ramSize
  hasRtc := hasRtc
  battery := battery
  ramEnable := false
  bank1 := 1#5
  bank2 := 0#2
  mbc1Mode := false
  mbc2RomBank := 1#4
  mbc3RomBank := 1#7
  ramRtcSel := 0#4
  rtcLive := Rtc.zero
  rtcLatched := Rtc.zero
  latchPrev := 0xFF#8
  rtcSubsec := 0

/-- Everything the bus reaches, after reset, with no byte of any memory listed: an all-zero 32 KiB ROM image, whose
header reads as variant None with two ROM banks and no RAM (R111). -/
def Bus.reset : Bus where
  rom := []
  cartRam := []
  vram := []
  wram := []
  oam := []
  hram := []
  waveRam := []
  cart := Cart.resetWith .none 2 0 0 false false
  timer := Timer.reset
  joy := Joypad.reset
  serial := Serial.reset
  ppu := Ppu.resetWith 172
  apu := Apu.reset
  ie := 0x00#8
  iflag := 1#5
  dmaCost := 0

/-- The machine right after reset (R40, R44, R601), with the default parameters and the memories empty. -/
def State.reset : State where
  regs := Regs.reset
  ime := false
  imePending := false
  mode := .running
  haltPcHold := false
  lockReported := false
  opAddr := 0x0100#16
  cycles := 0
  bus := Bus.reset
  params := Params.default

end Sys2Proof.Machine
end

