-- ==== Sys2Proof/Machine/Apu.lean ====
section
/-! DEFINITION. The APU: periods, length counters, envelopes, sweep, channel steps, frame sequencer, mixer, and the
effects of its register writes (R540 to R585). -/

namespace Sys2Proof.Machine

/-! ## Length counters and envelopes (R544, R548) -/

/-- The length clock, and whether the channel goes off (R544). -/
def LengthCounter.clock (l : LengthCounter) : LengthCounter × Bool :=
  if l.en ∧ 0 < l.count then ({ l with count := l.count - 1 }, l.count = 1) else (l, false)

/-- A trigger sets an empty counter to its maximum (R544). -/
def LengthCounter.refill (l : LengthCounter) (max : Nat) : LengthCounter :=
  if l.count = 0 then { l with count := max } else l

namespace Envelope

/-- NRk2[2:0]. -/
def pace (e : Envelope) : Nat := e.nr2.toNat % 8

/-- NRk2[3]. -/
def up (e : Envelope) : Bool := e.nr2.getLsbD 3

/-- The volume after one step. -/
def stepVol (e : Envelope) : BitVec 4 :=
  if e.up then (if e.vol = 15#4 then e.vol else e.vol + 1#4)
  else if e.vol = 0#4 then e.vol else e.vol - 1#4

/-- The envelope clock (R548). -/
def clock (e : Envelope) : Envelope :=
  if e.pace = 0 then e
  else if e.timer - 1 = 0 then { e with timer := e.pace, vol := e.stepVol }
  else { e with timer := e.timer - 1 }

/-- What a trigger loads (R554, R572). -/
def trigger (e : Envelope) : Envelope := { e with vol := e.nr2.extractLsb' 4 4, timer := e.pace }

/-- `dac_k`: NRk2[7:3] is not 0 (R543). -/
def dac (e : Envelope) : Bool := e.nr2.extractLsb' 3 5 ≠ 0#5

end Envelope

/-! ## Pulse channels (R546, R551 to R555) -/

namespace Pulse

/-- `Period(1)`, `Period(2)` (R546). -/
def period (c : Pulse) : Nat := (2048 - c.freq.toNat) * 4

/-- `Duty[d][p]` (R555). -/
def dutyBit (d : BitVec 2) (p : BitVec 3) : Bool :=
  match d.toNat with
  | 0 => p.toNat = 7
  | 1 => p.toNat = 0 || p.toNat = 7
  | 2 => p.toNat = 0 || 5 ≤ p.toNat
  | _ => 1 ≤ p.toNat && p.toNat ≤ 6

/-- `out_1`, `out_2` (R542). -/
def out (c : Pulse) : Nat := if c.on && dutyBit c.duty c.dutyPos then c.env.vol.toNat else 0

/-- One T-cycle of the channel (R545, R555). -/
def tick (c : Pulse) : Pulse :=
  if c.on then
    if c.timer - 1 = 0 then { c with timer := c.period, dutyPos := c.dutyPos + 1#3 }
    else { c with timer := c.timer - 1 }
  else c

/-- The length clock of the channel (R544). -/
def lengthClock (c : Pulse) : Pulse :=
  { c with len := c.len.clock.1, on := c.on && !c.len.clock.2 }

/-- The part of `Trigger(k)` that both pulse channels have (R554). -/
def trigger (c : Pulse) : Pulse :=
  { c with on := c.env.dac, len := c.len.refill 64, timer := c.period, env := c.env.trigger }

/-- NRk1 (R551). -/
def writeNr1 (c : Pulse) (v : Byte) : Pulse :=
  { c with duty := v.extractLsb' 6 2, len.count := 64 - v.toNat % 64 }

/-- NRk2 (R552). -/
def writeNr2 (c : Pulse) (v : Byte) : Pulse :=
  { c with env.nr2 := v, on := c.on && { c.env with nr2 := v }.dac }

/-- NRk3 (R553). -/
def writeNr3 (c : Pulse) (v : Byte) : Pulse := { c with freq := c.freq.extractLsb' 8 3 ++ v }

/-- The fields of NRk4, before its trigger (R554). -/
def writeNr4 (c : Pulse) (v : Byte) : Pulse :=
  { c with len.en := v.getLsbD 6, freq := v.extractLsb' 0 3 ++ c.freq.extractLsb' 0 8 }

/-- The channel after power-off (R582). -/
def powerOff (c : Pulse) : Pulse :=
  { c with on := false, len := ⟨false, 0⟩, env := ⟨0x00#8, 0#4, 0⟩, freq := 0#11, duty := 0#2 }

end Pulse

/-! ## The sweep unit (R549, R550) -/

namespace Sweep

/-- NR10[6:4]. -/
def pace (s : Sweep) : Nat := s.nr10.toNat / 16

/-- NR10[3]. -/
def neg (s : Sweep) : Bool := s.nr10.getLsbD 3

/-- NR10[2:0]. -/
def sh (s : Sweep) : Nat := s.nr10.toNat % 8

/-- The candidate frequency of `SweepCalc()` (R549). -/
def candidate (s : Sweep) : Nat :=
  if s.neg then s.shadow.toNat - s.shadow.toNat / 2 ^ s.sh else s.shadow.toNat + s.shadow.toNat / 2 ^ s.sh

/-- The candidate does not fit 11 bits, so channel 1 goes off (R549). -/
def overflows (s : Sweep) : Bool := 2047 < s.candidate

/-- The reload value of `sweep_timer` (R549, R554). -/
def reload (s : Sweep) : Nat := if s.pace = 0 then 8 else s.pace

end Sweep

/-! ## The wave channel (R546, R560 to R565) -/

namespace Wave

/-- `Period(3)` (R546). -/
def period (c : Wave) : Nat := (2048 - c.freq.toNat) * 2

/-- `LevelShift` (R562). -/
def levelShift (c : Wave) : Nat :=
  match c.level.toNat with
  | 0 => 4
  | 1 => 0
  | 2 => 1
  | _ => 2

/-- `out_3` (R542). -/
def out (c : Wave) : Nat := if c.on then c.buf.toNat / 2 ^ c.levelShift else 0

/-- `ChannelStep(3)` (R565). -/
def advancePos (wave : Memory) (c : Wave) : Wave :=
  let pos := c.pos + 1#5
  let b := wave.read (pos.toNat / 2)
  { c with pos := pos, buf := if pos.toNat % 2 = 0 then b.extractLsb' 4 4 else b.extractLsb' 0 4 }

/-- One T-cycle of the channel (R545). -/
def tick (wave : Memory) (c : Wave) : Wave :=
  if c.on then
    if c.timer - 1 = 0 then { c with timer := c.period }.advancePos wave
    else { c with timer := c.timer - 1 }
  else c

/-- The length clock of the channel (R544). -/
def lengthClock (c : Wave) : Wave :=
  { c with len := c.len.clock.1, on := c.on && !c.len.clock.2 }

/-- `Trigger(3)` (R563). -/
def trigger (c : Wave) : Wave :=
  { c with on := c.dac, len := c.len.refill 256, timer := c.period, pos := 0#5 }

/-- NR30 (R560). -/
def writeNr0 (c : Wave) (v : Byte) : Wave := { c with dac := v.getLsbD 7, on := c.on && v.getLsbD 7 }

/-- NR31 (R561). -/
def writeNr1 (c : Wave) (v : Byte) : Wave := { c with len.count := 256 - v.toNat }

/-- NR32 (R562). -/
def writeNr2 (c : Wave) (v : Byte) : Wave := { c with level := v.extractLsb' 5 2 }

/-- NR33 (R563). -/
def writeNr3 (c : Wave) (v : Byte) : Wave := { c with freq := c.freq.extractLsb' 8 3 ++ v }

/-- NR34 (R563). -/
def writeNr4 (c : Wave) (v : Byte) : Wave :=
  let c := { c with len.en := v.getLsbD 6, freq := v.extractLsb' 0 3 ++ c.freq.extractLsb' 0 8 }
  if v.getLsbD 7 then c.trigger else c

/-- The channel after power-off (R582). -/
def powerOff (c : Wave) : Wave :=
  { c with on := false, dac := false, len := ⟨false, 0⟩, level := 0#2, freq := 0#11 }

end Wave

/-! ## The noise channel (R546, R570 to R573) -/

namespace Noise

/-- `Period(4)` (R546). -/
def period (c : Noise) : Nat :=
  (if c.nr43.toNat % 8 = 0 then 8 else 16 * (c.nr43.toNat % 8)) * 2 ^ (c.nr43.toNat / 16)

/-- `out_4` (R542). -/
def out (c : Noise) : Nat := if c.on && !c.lfsr.getLsbD 0 then c.env.vol.toNat else 0

/-- One shift of the noise register (R573). -/
def shift (narrow : Bool) (r : BitVec 15) : BitVec 15 :=
  let x := BitVec.ofBool (r.getLsbD 0 ^^ r.getLsbD 1)
  let n := x ++ r.extractLsb' 1 14
  if narrow then n.extractLsb' 7 8 ++ x ++ n.extractLsb' 0 6 else n

/-- One T-cycle of the channel (R545, R573). -/
def tick (c : Noise) : Noise :=
  if c.on then
    if c.timer - 1 = 0 then { c with timer := c.period, lfsr := shift (c.nr43.getLsbD 3) c.lfsr }
    else { c with timer := c.timer - 1 }
  else c

/-- The length clock of the channel (R544). -/
def lengthClock (c : Noise) : Noise :=
  { c with len := c.len.clock.1, on := c.on && !c.len.clock.2 }

/-- `Trigger(4)` (R572). -/
def trigger (c : Noise) : Noise :=
  { c with on := c.env.dac, len := c.len.refill 64, timer := c.period, env := c.env.trigger, lfsr := 0x7FFF#15 }

/-- NR41 (R570). -/
def writeNr1 (c : Noise) (v : Byte) : Noise := { c with len.count := 64 - v.toNat % 64 }

/-- NR42 (R552). -/
def writeNr2 (c : Noise) (v : Byte) : Noise :=
  { c with env.nr2 := v, on := c.on && { c.env with nr2 := v }.dac }

/-- NR44 (R572). -/
def writeNr4 (c : Noise) (v : Byte) : Noise :=
  let c := { c with len.en := v.getLsbD 6 }
  if v.getLsbD 7 then c.trigger else c

/-- The channel after power-off (R582). -/
def powerOff (c : Noise) : Noise :=
  { c with on := false, len := ⟨false, 0⟩, env := ⟨0x00#8, 0#4, 0⟩, nr43 := 0x00#8 }

end Noise

/-! ## The whole unit -/

namespace Apu

/-- `SweepClock()` (R549). -/
def sweepClock (a : Apu) : Apu :=
  if a.sweep.timer - 1 ≠ 0 then { a with sweep.timer := a.sweep.timer - 1 }
  else
    let a := { a with sweep.timer := a.sweep.reload }
    if a.sweep.on = false ∨ a.sweep.pace = 0 then a
    else if a.sweep.overflows then { a with ch1.on := false }
    else if a.sweep.sh = 0 then a
    else
      let new := BitVec.ofNat 11 a.sweep.candidate
      let a := { a with ch1.freq := new, sweep.shadow := new }
      { a with ch1.on := a.ch1.on && !a.sweep.overflows }

/-- `Trigger(1)` (R554). -/
def triggerCh1 (a : Apu) : Apu :=
  let s := { a.sweep with
    shadow := a.ch1.freq
    timer := a.sweep.reload
    on := a.sweep.pace ≠ 0 || a.sweep.sh ≠ 0 }
  let c := a.ch1.trigger
  { a with sweep := s, ch1 := { c with on := c.on && !(s.sh ≠ 0 && s.overflows) } }

/-- The length clock of all channels (R544, R547). -/
def lengthClock (a : Apu) : Apu :=
  { a with ch1 := a.ch1.lengthClock, ch2 := a.ch2.lengthClock, ch3 := a.ch3.lengthClock, ch4 := a.ch4.lengthClock }

/-- The envelope clock of channels 1, 2 and 4 (R547, R548). -/
def envelopeClock (a : Apu) : Apu :=
  { a with ch1.env := a.ch1.env.clock, ch2.env := a.ch2.env.clock, ch4.env := a.ch4.env.clock }

/-- `FrameStep()` (R547): length, then sweep, then envelope, by the schedule. -/
def frameStep (a : Apu) : Apu :=
  let k := a.fsStep.toNat
  let a := if k % 2 = 0 then a.lengthClock else a
  let a := if k = 2 ∨ k = 6 then a.sweepClock else a
  let a := if k = 7 then a.envelopeClock else a
  { a with fsStep := a.fsStep + 1#3 }

/-- One T-cycle of the sequencer and the channels, with the APU on (R545). -/
def clockChannels (wave : Memory) (a : Apu) : Apu :=
  let a :=
    if a.fsCounter - 1 = 0 then { a with fsCounter := 8192 }.frameStep
    else { a with fsCounter := a.fsCounter - 1 }
  { a with ch1 := a.ch1.tick, ch2 := a.ch2.tick, ch3 := a.ch3.tick wave, ch4 := a.ch4.tick }

/-- The outputs that a selection of four bits sends on (R583). -/
def mix (a : Apu) (one two three four : Bool) : Nat :=
  (if one then a.ch1.out else 0) + (if two then a.ch2.out else 0) + (if three then a.ch3.out else 0)
    + (if four then a.ch4.out else 0)

/-- `Sample()` (R583). -/
def sample (a : Apu) : Nat × Nat :=
  if a.on then
    ((a.nr50.toNat / 16 % 8 + 1)
        * a.mix (a.nr51.getLsbD 4) (a.nr51.getLsbD 5) (a.nr51.getLsbD 6) (a.nr51.getLsbD 7),
      (a.nr50.toNat % 8 + 1)
        * a.mix (a.nr51.getLsbD 0) (a.nr51.getLsbD 1) (a.nr51.getLsbD 2) (a.nr51.getLsbD 3))
  else (0, 0)

/-- One T-cycle of sample generation (R545, R585). -/
def sampleTick (prm : Params) (a : Apu) : Apu :=
  let n := a.sampleAcc + prm.samplePeriodDen
  if prm.samplePeriodNum ≤ n then
    { a with sampleAcc := n - prm.samplePeriodNum, audioOut := a.audioOut ++ [a.sample] }
  else { a with sampleAcc := n }

/-- One T-cycle of the APU (the body of R545's loop). -/
def tick (prm : Params) (wave : Memory) (a : Apu) : Apu :=
  (if a.on then a.clockChannels wave else a).sampleTick prm

/-- `ApuAdvance(t)` (R545). -/
def advance (prm : Params) (wave : Memory) : Nat → Apu → Apu
  | 0, a => a
  | t + 1, a => advance prm wave t (a.tick prm wave)

/-! ## Registers -/

/-- NR14, with its trigger (R554). -/
def writeNr14 (a : Apu) (v : Byte) : Apu :=
  let a := { a with ch1 := a.ch1.writeNr4 v }
  if v.getLsbD 7 then a.triggerCh1 else a

/-- NR24, with its trigger (R554). -/
def writeNr24 (a : Apu) (v : Byte) : Apu :=
  let c := a.ch2.writeNr4 v
  { a with ch2 := if v.getLsbD 7 then c.trigger else c }

/-- Power-off (R582). -/
def powerOff (a : Apu) : Apu :=
  { a with
    on := false
    ch1 := a.ch1.powerOff
    sweep := ⟨0#7, false, 0, 0#11⟩
    ch2 := a.ch2.powerOff
    ch3 := a.ch3.powerOff
    ch4 := a.ch4.powerOff
    nr50 := 0x00#8
    nr51 := 0x00#8 }

/-- Power-on (R582). -/
def powerOn (a : Apu) : Apu :=
  { a with
    on := true
    fsCounter := 8192
    fsStep := 0#3
    ch1.dutyPos := 0#3
    ch2.dutyPos := 0#3
    ch3.pos := 0#5 }

/-- NR52 (R582). -/
def writeNr52 (a : Apu) (v : Byte) : Apu :=
  if a.on && !v.getLsbD 7 then a.powerOff
  else if !a.on && v.getLsbD 7 then a.powerOn
  else a

/-- NR52 as a read returns it (R582). -/
def nr52 (a : Apu) : Byte :=
  BitVec.ofBool a.on ++ 0b111#3 ++ BitVec.ofBool a.ch4.on ++ BitVec.ofBool a.ch3.on ++ BitVec.ofBool a.ch2.on
    ++ BitVec.ofBool a.ch1.on

/-- NRk4 as a read returns it (R554, R563, R572). -/
def nr4 (l : LengthCounter) : Byte := 1#1 ++ BitVec.ofBool l.en ++ 0b111111#6

end Apu

end Sys2Proof.Machine
end

