-- ==== Sys2Proof/Machine/Cartridge.lean ====
section
/-! DEFINITION. The bank controllers None, MBC1, MBC2, MBC3 (R113, R120 to R138) and the real-time clock (R137 to
R141). -/

namespace Sys2Proof.Machine

namespace Rtc

/-- DH as a byte (R137). -/
def dh (r : Rtc) : Byte := BitVec.ofBool r.carry ++ BitVec.ofBool r.halt ++ 0b00000#5 ++ BitVec.ofBool r.day8

/-- The register of an index 0x8 to 0xC, unimplemented bits 0 (R137). -/
def readIndex (r : Rtc) : Nat → Byte
  | 0x8 => r.s.zeroExtend 8
  | 0x9 => r.m.zeroExtend 8
  | 0xA => r.h.zeroExtend 8
  | 0xB => r.dl
  | _ => r.dh

/-- Stores into the register of an index 0x8 to 0xC, masked to its implemented bits (R137). -/
def writeIndex (r : Rtc) (i : Nat) (v : Byte) : Rtc :=
  match i with
  | 0x8 => { r with s := v.extractLsb' 0 6 }
  | 0x9 => { r with m := v.extractLsb' 0 6 }
  | 0xA => { r with h := v.extractLsb' 0 5 }
  | 0xB => { r with dl := v }
  | _ => { r with day8 := v.getLsbD 0, halt := v.getLsbD 6, carry := v.getLsbD 7 }

/-- The 9-bit day counter (R137). -/
def day (r : Rtc) : BitVec 9 := BitVec.ofBool r.day8 ++ r.dl

/-- The day counter goes up by one, with the carry set when it wraps (R140). -/
def tickDay (r : Rtc) : Rtc :=
  let d := r.day + 1#9
  { r with dl := d.extractLsb' 0 8, day8 := d.getLsbD 8, carry := r.carry || d = 0#9 }

/-- `TickSecond()` (R140): each register counts to its mask and carries only on its own limit (R141). -/
def tickSecond (r : Rtc) : Rtc :=
  let s := r.s + 1#6
  if s ≠ 60#6 then { r with s := s }
  else
    let m := r.m + 1#6
    if m ≠ 60#6 then { r with s := 0#6, m := m }
    else
      let h := r.h + 1#5
      if h ≠ 24#5 then { r with s := 0#6, m := 0#6, h := h }
      else { r with s := 0#6, m := 0#6, h := 0#5 }.tickDay

/-- `n` seconds. -/
def tickSeconds : Nat → Rtc → Rtc
  | 0, r => r
  | n + 1, r => tickSeconds n r.tickSecond

end Rtc

namespace Cart

/-- T-cycles in one second (R13, R140). -/
def secondTCycles : Nat := 4194304

/-- `RtcAdvance(t)` (R140), on a cartridge with a clock and the emulated time source. -/
def rtcAdvance (p : Params) (t : Nat) (c : Cart) : Cart :=
  if c.hasRtc = false ∨ p.rtcSource = .host ∨ c.rtcLive.halt then c
  else
    let n := c.rtcSubsec + t
    { c with rtcSubsec := n % secondTCycles, rtcLive := c.rtcLive.tickSeconds (n / secondTCycles) }

/-! ## ROM windows -/

/-- The bank that a ROM address selects, before the reduction of R113: None (R124) shows the image in order, the
others by R126, R131, R135. -/
def romBankOf (c : Cart) (a : Nat) : Nat :=
  match c.variant with
  | .none => a / 16384
  | .mbc1 =>
    if 0x4000 ≤ a then c.bank2.toNat * 32 + c.bank1.toNat
    else if c.mbc1Mode then c.bank2.toNat * 32 else 0
  | .mbc2 => if 0x4000 ≤ a then c.mbc2RomBank.toNat else 0
  | .mbc3 => if 0x4000 ≤ a then c.mbc3RomBank.toNat else 0

/-- The offset in the ROM image of a bus address below 0x8000 (R113, R120). -/
def romOffset (c : Cart) (a : Nat) : Nat := c.romBankOf a % c.romBanks * 16384 + a % 16384

/-! ## The external RAM window -/

/-- What an address of 0xA000 to 0xBFFF reaches. -/
inductive RamTarget where
  | ram (off : Nat)
  | nibble (off : Nat)
  | rtc (index : Nat)
  | absent
  deriving DecidableEq, Repr

/-- The byte of cartridge RAM in bank `bank` (R113). -/
def ramOffset (c : Cart) (bank a : Nat) : Nat := (bank % c.ramBanks * 8192 + (a - 0xA000)) % c.ramSize

/-- The target of an address of the window (R124, R127, R132, R136). -/
def ramTarget (c : Cart) (a : Nat) : RamTarget :=
  match c.variant with
  | .none => if 0 < c.ramBanks then .ram ((a - 0xA000) % c.ramSize) else .absent
  | .mbc1 =>
    if c.ramBanks = 0 ∨ c.ramEnable = false then .absent
    else .ram (c.ramOffset (if c.mbc1Mode then c.bank2.toNat else 0) a)
  | .mbc2 => if c.ramEnable then .nibble (a % 512) else .absent
  | .mbc3 =>
    if c.ramEnable = false then .absent
    else if c.ramRtcSel.toNat ≤ 3 ∧ 0 < c.ramBanks then .ram (c.ramOffset c.ramRtcSel.toNat a)
    else if 0x8 ≤ c.ramRtcSel.toNat ∧ c.ramRtcSel.toNat ≤ 0xC ∧ c.hasRtc then .rtc c.ramRtcSel.toNat
    else .absent

/-! ## Controller registers -/

/-- The enable pattern: the low nibble is 0xA (R125, R130, R134). -/
def enables (v : Byte) : Bool := v.lowNibble = 0xA

/-- MBC1 (R125): the 5-bit register never holds 0. -/
def writeMbc1 (c : Cart) (a : Nat) (v : Byte) : Cart :=
  if a ≤ 0x1FFF then { c with ramEnable := enables v }
  else if a ≤ 0x3FFF then
    { c with bank1 := if v.extractLsb' 0 5 = 0#5 then 1#5 else v.extractLsb' 0 5 }
  else if a ≤ 0x5FFF then { c with bank2 := v.extractLsb' 0 2 }
  else { c with mbc1Mode := v.getLsbD 0 }

/-- MBC2 (R130): address bit 8 selects the register. -/
def writeMbc2 (c : Cart) (a : Nat) (v : Byte) : Cart :=
  if 0x4000 ≤ a then c
  else if a / 256 % 2 = 0 then { c with ramEnable := enables v }
  else { c with mbc2RomBank := if v.extractLsb' 0 4 = 0#4 then 1#4 else v.extractLsb' 0 4 }

/-- The latch sequence 0x00 then 0x01 (R138). -/
def writeLatch (c : Cart) (v : Byte) : Cart :=
  { c with
    rtcLatched := if c.latchPrev = 0x00#8 ∧ v = 0x01#8 then c.rtcLive else c.rtcLatched
    latchPrev := v }

/-- MBC3 (R134). -/
def writeMbc3 (c : Cart) (a : Nat) (v : Byte) : Cart :=
  if a ≤ 0x1FFF then { c with ramEnable := enables v }
  else if a ≤ 0x3FFF then
    { c with mbc3RomBank := if v.extractLsb' 0 7 = 0#7 then 1#7 else v.extractLsb' 0 7 }
  else if a ≤ 0x5FFF then { c with ramRtcSel := v.extractLsb' 0 4 }
  else c.writeLatch v

/-- `CartRomWrite(a, v)` (R122): a controller register, never the image. -/
def writeRom (c : Cart) (a : Nat) (v : Byte) : Cart :=
  match c.variant with
  | .none => c
  | .mbc1 => c.writeMbc1 a v
  | .mbc2 => c.writeMbc2 a v
  | .mbc3 => c.writeMbc3 a v

/-- A write to the selected RTC register: the live registers only; S also restarts the second (R137). -/
def writeRtc (c : Cart) (index : Nat) (v : Byte) : Cart :=
  { c with
    rtcLive := c.rtcLive.writeIndex index v
    rtcSubsec := if index = 0x8 then 0 else c.rtcSubsec }

end Cart

end Sys2Proof.Machine
end

