-- ==== Sys2Proof/Machine/Timer.lean ====
section
/-! DEFINITION. The timer and the divider (R450 to R457), and the names of the five interrupt request bits (R32,
R413). -/

namespace Sys2Proof.Machine

/-- The request bit of V-blank, IF[0] (R413). -/
def irqVblank : BitVec 5 := 0b00001#5

/-- The request bit of PPU-status, IF[1] (R413). -/
def irqStat : BitVec 5 := 0b00010#5

/-- The request bit of the timer, IF[2] (R413). -/
def irqTimer : BitVec 5 := 0b00100#5

/-- The request bit of the serial port, IF[3] (R413). -/
def irqSerial : BitVec 5 := 0b01000#5

/-- The request bit of the joypad, IF[4] (R413). -/
def irqJoypad : BitVec 5 := 0b10000#5

/-- The request mask `m` if the event happened, else no request. -/
def irqIf (happened : Bool) (m : BitVec 5) : BitVec 5 := if happened then m else 0#5

namespace Timer

/-- The period of TIMA's increments in T-cycles, from TAC[1:0] (R454, R455). -/
def period (tm : Timer) : Nat :=
  match tm.tac.toNat % 4 with
  | 0 => 1024
  | 1 => 16
  | 2 => 64
  | _ => 256

/-- TAC[2]: TIMA counts (R454). -/
def enabled (tm : Timer) : Bool := tm.tac.getLsbD 2

/-- One increment of TIMA, and whether it overflowed (R455). -/
def increment (tm : Timer) : Timer × Bool :=
  if tm.tima = 0xFF#8 then ({ tm with tima := tm.tma }, true)
  else ({ tm with tima := tm.tima + 1#8 }, false)

/-- One T-cycle of the timer, and whether TIMA overflowed in it (R455). -/
def tick (tm : Timer) : Timer × Bool :=
  let tm := { tm with sysclk := tm.sysclk + 1#16 }
  if tm.enabled ∧ tm.sysclk.toNat % tm.period = 0 then tm.increment else (tm, false)

/-- `TimerAdvance(t)` (R455): the timer after `t` T-cycles, and whether it requested its interrupt. -/
def advance : Nat → Timer → Timer × Bool
  | 0, tm => (tm, false)
  | t + 1, tm =>
    match tm.tick with
    | (tm, first) =>
      match advance t tm with
      | (tm, later) => (tm, first || later)

/-- DIV: the high byte of the system counter (R451). -/
def div (tm : Timer) : Byte := tm.sysclk.extractLsb' 8 8

end Timer

end Sys2Proof.Machine
end

