-- ==== Sys2Proof/Machine/Joypad.lean ====
section
/-! DEFINITION. The joypad lines and their evaluation (R460 to R464), and the serial port's storage (R470). -/

namespace Sys2Proof.Machine

namespace Joypad

/-- `Lines(joy_select, buttons)`: a line is low if a pressed button of a selected group is on it (R461). -/
def lines (j : Joypad) : BitVec 4 :=
  let dir := if j.select.getLsbD 0 then 0#4 else j.buttons.extractLsb' 0 4
  let act := if j.select.getLsbD 1 then 0#4 else j.buttons.extractLsb' 4 4
  ~~~ (dir ||| act)

/-- `JoyEvaluate()`: the joypad with its lines evaluated, and whether some line fell (R464). -/
def evaluate (j : Joypad) : Joypad × Bool :=
  ({ j with lastLines := j.lines }, (j.lastLines &&& ~~~ j.lines) ≠ 0#4)

/-- P1 as a read returns it (R463). -/
def p1 (j : Joypad) : Byte := 0b11#2 ++ j.select ++ j.lines

end Joypad

/-- SC as a read returns it (R470). -/
def Serial.sc (s : Serial) : Byte := BitVec.ofBool s.sc7 ++ 0b111111#6 ++ BitVec.ofBool s.sc0

end Sys2Proof.Machine
end

