-- ==== Sys2Proof/Machine/Ppu.lean ====
section
/-! DEFINITION. The PPU: mode function, STAT line, object selection, composition of a line, the dot step, and the
register writes with effects (R480 to R502). -/

namespace Sys2Proof.Machine

/-- The four modes of a line (R486). -/
inductive PpuMode where
  | hblank
  | vblank
  | oamScan
  | transfer
  deriving DecidableEq, Repr

/-- The 2-bit code of a mode (R486). -/
def PpuMode.code : PpuMode → BitVec 2
  | .hblank => 0#2
  | .vblank => 1#2
  | .oamScan => 2#2
  | .transfer => 3#2

namespace Ppu

/-- LCDC[7]. -/
def lcdOn (p : Ppu) : Bool := p.lcdc.getLsbD 7

/-- `Mode()` (R486). -/
def mode (p : Ppu) : PpuMode :=
  if p.lcdOn = false then .hblank
  else if 144 ≤ p.ly then .vblank
  else if p.dot < 80 then .oamScan
  else if p.dot < 80 + p.mode3Len then .transfer
  else .hblank

/-- `ly = LYC` (R482). -/
def coincides (p : Ppu) : Bool := p.ly = p.lyc.toNat

/-- The level of the STAT interrupt line for the present state (R489). -/
def statLevel (p : Ppu) : Bool :=
  p.lcdOn &&
    ((p.stat.getLsbD 3 && p.coincides) || (p.stat.getLsbD 2 && p.mode = .oamScan)
      || (p.stat.getLsbD 1 && p.mode = .vblank) || (p.stat.getLsbD 0 && p.mode = .hblank))

/-- `EvaluateStat()` (R489), with the request it makes. -/
def evaluateStat (p : Ppu) : Ppu × BitVec 5 :=
  ({ p with statLine := p.statLevel }, irqIf (p.statLevel && !p.statLine) irqStat)

/-- STAT as a read returns it (R482). -/
def statRead (p : Ppu) : Byte := 1#1 ++ p.stat ++ BitVec.ofBool p.coincides ++ p.mode.code

/-! ## Object selection (R495, R496) -/

/-- The height of objects, from LCDC[2]. -/
def objHeight (p : Ppu) : Nat := if p.lcdc.getLsbD 2 then 16 else 8

/-- Object `n` covers the line (R496). -/
def objOnLine (p : Ppu) (oam : Memory) (n : Nat) : Bool :=
  (oam.read (4 * n)).toNat ≤ p.ly + 16 && p.ly + 16 < (oam.read (4 * n)).toNat + p.objHeight

/-- `SelectObjs(ly)` (R496), each index with its Y byte. -/
def selectObjs (prm : Params) (oam : Memory) (p : Ppu) : List (Nat × Byte) :=
  (((List.range 40).filter (p.objOnLine oam)).take prm.objPerLine).map fun n => (n, oam.read (4 * n))

/-! ## The end of OAM-scan (R485, R487, R498) -/

/-- The window is visible on the line (R498). -/
def windowVisible (p : Ppu) : Bool :=
  p.lcdc.getLsbD 0 && p.lcdc.getLsbD 5 && p.winTriggered && p.wx.toNat ≤ 166

/-- The extra dots of the line (R487). -/
def extraDots (prm : Params) (oam : Memory) (p : Ppu) : Nat :=
  let xs := p.lineObjs.map fun o => (o.1, oam.read (4 * o.1 + 1))
  match prm.mode3Extra with
  | .constant n => n.val
  | .documented =>
    min 117 (p.scx.toNat % 8 + (if p.windowVisible then 6 else 0)
      + (xs.map fun o => 11 - min 5 ((o.2.toNat + p.scx.toNat) % 8)).sum)
  | .free => (Config.mode3Extra p.scx xs p.windowVisible).val

/-- What happens at dot 80 of a visible line, in R485's order. -/
def scanEnd (prm : Params) (oam : Memory) (p : Ppu) : Ppu :=
  let p := { p with
    lineObjs := p.selectObjs prm oam
    winTriggered := p.winTriggered || p.ly = p.wy.toNat }
  { p with mode3Len := 172 + p.extraDots prm oam }

/-! ## Pixels (R494, R497 to R499) -/

/-- The byte at a VRAM offset that R499's integer formula may push below 0. -/
def vramAt (vram : Memory) (o : Int) : Byte :=
  if 0 ≤ o then vram.read o.toNat else Config.belowVram (-o - 1).toNat

/-- The colour index in column `col` of the row `r` of the tile at VRAM offset `base` (R494). -/
def tilePixel (vram : Memory) (base r : Int) (col : Nat) : BitVec 2 :=
  BitVec.ofBool ((vramAt vram (base + 2 * r + 1)).getLsbD (7 - col))
    ++ BitVec.ofBool ((vramAt vram (base + 2 * r)).getLsbD (7 - col))

/-- The VRAM offset of a background or window tile (R494). -/
def tileBase (p : Ppu) (n : Byte) : Int :=
  if p.lcdc.getLsbD 4 then 16 * n.toNat else 0x1000 + 16 * n.toInt

/-- The VRAM offset of a tile map (R497, R498). -/
def mapBase (second : Bool) : Nat := if second then 0x1C00 else 0x1800

/-- The colour index at (cx, cy) of a tile map. -/
def mapPixel (p : Ppu) (vram : Memory) (second : Bool) (cx cy : Nat) : BitVec 2 :=
  tilePixel vram (p.tileBase (vram.read (mapBase second + 32 * (cy / 8) + cx / 8))) (cy % 8 : Nat) (cx % 8)

/-- The background's colour index at column `x` (R497). -/
def bgPixel (p : Ppu) (vram : Memory) (x : Nat) : BitVec 2 :=
  if p.lcdc.getLsbD 0 then
    p.mapPixel vram (p.lcdc.getLsbD 3) ((x + p.scx.toNat) % 256) ((p.ly + p.scy.toNat) % 256)
  else 0#2

/-- The window's colour index at column `x` (R498). -/
def windowPixel (p : Ppu) (vram : Memory) (x : Nat) : BitVec 2 :=
  p.mapPixel vram (p.lcdc.getLsbD 6) (x + 7 - p.wx.toNat) p.winLine

/-- The window's colour index where the window covers column `x`, else the background's. -/
def backPixel (p : Ppu) (vram : Memory) (x : Nat) : BitVec 2 :=
  if p.windowVisible ∧ p.wx.toNat ≤ x + 7 then p.windowPixel vram x else p.bgPixel vram x

/-- Byte `k` of object `n` (R495). -/
def objByte (oam : Memory) (n k : Nat) : Byte := oam.read (4 * n + k)

/-- The object covers column `x` (R499). -/
def objCovers (oam : Memory) (x n : Nat) : Bool :=
  (objByte oam n 1).toNat ≤ x + 8 && x + 8 < (objByte oam n 1).toNat + 8

/-- The colour index of a selected object at column `x` (R499). -/
def objPixel (p : Ppu) (vram oam : Memory) (x : Nat) (o : Nat × Byte) : BitVec 2 :=
  let attr := objByte oam o.1 3
  let col := x + 8 - (objByte oam o.1 1).toNat
  let col := if attr.getLsbD 5 then 7 - col else col
  let row : Int := p.ly + 16 - o.2.toNat
  let row := if attr.getLsbD 6 then p.objHeight - 1 - row else row
  let tile := objByte oam o.1 2
  let tile := if p.lcdc.getLsbD 2 then tile &&& 0xFE#8 else tile
  tilePixel vram (16 * tile.toNat) row col

/-- The winner of two objects: smaller X, then earlier in OAM (R499). -/
def objBefore (oam : Memory) (a b : Nat × Byte) : Bool :=
  (objByte oam a.1 1).toNat < (objByte oam b.1 1).toNat
    || ((objByte oam a.1 1).toNat = (objByte oam b.1 1).toNat && a.1 < b.1)

/-- The object shown at column `x` before its priority bit is looked at (R499). -/
def objWinner (p : Ppu) (vram oam : Memory) (x : Nat) : Option (Nat × Byte) :=
  if p.lcdc.getLsbD 1 then
    (p.lineObjs.filter fun o => objCovers oam x o.1 && p.objPixel vram oam x o ≠ 0#2).foldl
      (fun best o =>
        match best with
        | none => some o
        | some b => if objBefore oam o b then some o else some b) none
  else none

/-- The shade a palette gives a colour index (R483). -/
def shade (palette : Byte) (c : BitVec 2) : Shade := palette.extractLsb' (2 * c.toNat) 2

/-- The cell of column `x` (R499, R501). -/
def cell (p : Ppu) (vram oam : Memory) (x : Nat) : Shade :=
  let b := p.backPixel vram x
  match p.objWinner vram oam x with
  | none => shade p.bgp b
  | some o =>
    if (objByte oam o.1 3).getLsbD 7 ∧ b ≠ 0#2 then shade p.bgp b
    else shade (if (objByte oam o.1 3).getLsbD 4 then p.obp1 else p.obp0) (p.objPixel vram oam x o)

/-- The row of cells of the line (R501). -/
def composeRow (p : Ppu) (vram oam : Memory) : Row :=
  ⟨((List.range 160).map (p.cell vram oam)).toArray, by simp⟩

/-- `ComposeLine(ly)` (R501). -/
def composeLine (vram oam : Memory) (p : Ppu) : Ppu :=
  { p with
    framebuffer := p.framebuffer.setIfInBounds p.ly (p.composeRow vram oam)
    winLine := if p.windowVisible then p.winLine + 1 else p.winLine }

/-! ## The dot step (R485, R488, R491) -/

/-- The end of a line, with the V-blank request (R485, R491, R492). -/
def lineEnd (p : Ppu) : Ppu × BitVec 5 :=
  if p.ly + 1 = 144 then ({ p with dot := 0, ly := 144, frameReady := true }, irqVblank)
  else if p.ly + 1 = 154 then ({ p with dot := 0, ly := 0, winLine := 0, winTriggered := false }, 0#5)
  else ({ p with dot := 0, ly := p.ly + 1 }, 0#5)

/-- One dot (the body of R485's loop), with the requests it makes. -/
def dotStep (prm : Params) (vram oam : Memory) (p : Ppu) : Ppu × BitVec 5 :=
  let p := { p with dot := p.dot + 1 }
  let p := if p.ly < 144 ∧ p.dot = 80 then p.scanEnd prm oam else p
  let p := if p.ly < 144 ∧ p.dot = 80 + p.mode3Len then p.composeLine vram oam else p
  let e := if p.dot = 456 then p.lineEnd else (p, 0#5)
  let f := e.1.evaluateStat
  (f.1, e.2 ||| f.2)

/-- `t` dots with the LCD on. -/
def dots (prm : Params) (vram oam : Memory) : Nat → Ppu → Ppu × BitVec 5
  | 0, p => (p, 0#5)
  | t + 1, p =>
    match p.dotStep prm vram oam with
    | (p, m) =>
      match dots prm vram oam t p with
      | (p, later) => (p, m ||| later)

/-- `PpuAdvance(t)` (R485). -/
def advance (prm : Params) (vram oam : Memory) (t : Nat) (p : Ppu) : Ppu × BitVec 5 :=
  if p.lcdOn then dots prm vram oam t p else (p, 0#5)

/-! ## Register writes with effects (R481, R482, R484, R493) -/

/-- A write of LCDC, with the request it makes (R481, R493). -/
def writeLcdc (p : Ppu) (v : Byte) : Ppu × BitVec 5 :=
  let q := { p with lcdc := v }
  let q :=
    if p.lcdOn && !q.lcdOn then
      { q with ly := 0, dot := 0, winLine := 0, winTriggered := false, lineObjs := [], statLine := false }
    else if !p.lcdOn && q.lcdOn then { q with ly := 0, dot := 0 }
    else q
  q.evaluateStat

/-- A write of STAT (R482). -/
def writeStat (p : Ppu) (v : Byte) : Ppu × BitVec 5 := { p with stat := v.extractLsb' 3 4 }.evaluateStat

/-- A write of LYC (R484). -/
def writeLyc (p : Ppu) (v : Byte) : Ppu × BitVec 5 := { p with lyc := v }.evaluateStat

end Ppu

end Sys2Proof.Machine
end

