-- ==== Sys2Proof/Machine/Bus.lean ====
section
/-! DEFINITION. The bus: the address map (R60 to R72, R82), the register map of the I/O block (R40), access blocking
(R84), the OAM copy (R90 to R92), and the advance of all devices (R14, R15). -/

namespace Sys2Proof.Machine

/-! ## The address map -/

/-- The registers of the I/O block (R40). -/
inductive IoReg where
  | p1 | sb | sc | div | tima | tma | tac | iflag
  | nr10 | nr11 | nr12 | nr13 | nr14
  | nr21 | nr22 | nr23 | nr24
  | nr30 | nr31 | nr32 | nr33 | nr34
  | nr41 | nr42 | nr43 | nr44
  | nr50 | nr51 | nr52
  | lcdc | stat | scy | scx | ly | lyc | dma | bgp | obp0 | obp1 | wy | wx
  deriving DecidableEq, Repr

/-- The register at 0xFF00 + `o`, if there is one (R40). -/
def IoReg.ofOffset : Nat → Option IoReg
  | 0x00 => some .p1
  | 0x01 => some .sb
  | 0x02 => some .sc
  | 0x04 => some .div
  | 0x05 => some .tima
  | 0x06 => some .tma
  | 0x07 => some .tac
  | 0x0F => some .iflag
  | 0x10 => some .nr10
  | 0x11 => some .nr11
  | 0x12 => some .nr12
  | 0x13 => some .nr13
  | 0x14 => some .nr14
  | 0x16 => some .nr21
  | 0x17 => some .nr22
  | 0x18 => some .nr23
  | 0x19 => some .nr24
  | 0x1A => some .nr30
  | 0x1B => some .nr31
  | 0x1C => some .nr32
  | 0x1D => some .nr33
  | 0x1E => some .nr34
  | 0x20 => some .nr41
  | 0x21 => some .nr42
  | 0x22 => some .nr43
  | 0x23 => some .nr44
  | 0x24 => some .nr50
  | 0x25 => some .nr51
  | 0x26 => some .nr52
  | 0x40 => some .lcdc
  | 0x41 => some .stat
  | 0x42 => some .scy
  | 0x43 => some .scx
  | 0x44 => some .ly
  | 0x45 => some .lyc
  | 0x46 => some .dma
  | 0x47 => some .bgp
  | 0x48 => some .obp0
  | 0x49 => some .obp1
  | 0x4A => some .wy
  | 0x4B => some .wx
  | _ => none

/-- What an address reaches: its one owner and the offset there (R63). -/
inductive Place where
  | rom (off : Nat)
  | vram (off : Nat)
  | cartRam (off : Nat)
  | cartNibble (off : Nat)
  | rtc (index : Nat)
  | wram (off : Nat)
  | oam (off : Nat)
  | wave (off : Nat)
  | io (r : IoReg)
  | hram (off : Nat)
  | ie
  | absent
  deriving DecidableEq, Repr

/-- The place of a target of the external RAM window (R67). -/
def Place.ofRamTarget : Cart.RamTarget → Place
  | .ram o => .cartRam o
  | .nibble o => .cartNibble o
  | .rtc i => .rtc i
  | .absent => .absent

/-- The place of 0xFF00 + `o` in the I/O block (R72, R82, R564). -/
def Place.ofIo (o : Nat) : Place :=
  if 0x30 ≤ o ∧ o ≤ 0x3F then .wave (o - 0x30)
  else
    match IoReg.ofOffset o with
    | some r => .io r
    | none => .absent

/-- The place of an address, under the cartridge's present banks (R61, R63). -/
def Cart.place (c : Cart) (a : Word) : Place :=
  let n := a.toNat
  if n ≤ 0x7FFF then .rom (c.romOffset n)
  else if n ≤ 0x9FFF then .vram (n - 0x8000)
  else if n ≤ 0xBFFF then Place.ofRamTarget (c.ramTarget n)
  else if n ≤ 0xDFFF then .wram (n - 0xC000)
  else if n ≤ 0xFDFF then .wram (n - 0xE000)
  else if n ≤ 0xFE9F then .oam (n - 0xFE00)
  else if n ≤ 0xFEFF then .absent
  else if n ≤ 0xFF7F then Place.ofIo (n - 0xFF00)
  else if n ≤ 0xFFFE then .hram (n - 0xFF80)
  else .ie

namespace Bus

/-! ## Reads -/

/-- A register of the I/O block as a read returns it: unimplemented and write-only bits read 1 (R40, R82). -/
def ioRead (b : Bus) : IoReg → Byte
  | .p1 => b.joy.p1
  | .sb => b.serial.sb
  | .sc => b.serial.sc
  | .div => b.timer.div
  | .tima => b.timer.tima
  | .tma => b.timer.tma
  | .tac => 0b11111#5 ++ b.timer.tac
  | .iflag => 0b111#3 ++ b.iflag
  | .nr10 => 1#1 ++ b.apu.sweep.nr10
  | .nr11 => b.apu.ch1.duty ++ 0b111111#6
  | .nr12 => b.apu.ch1.env.nr2
  | .nr13 => 0xFF#8
  | .nr14 => Apu.nr4 b.apu.ch1.len
  | .nr21 => b.apu.ch2.duty ++ 0b111111#6
  | .nr22 => b.apu.ch2.env.nr2
  | .nr23 => 0xFF#8
  | .nr24 => Apu.nr4 b.apu.ch2.len
  | .nr30 => BitVec.ofBool b.apu.ch3.dac ++ 0b1111111#7
  | .nr31 => 0xFF#8
  | .nr32 => 1#1 ++ b.apu.ch3.level ++ 0b11111#5
  | .nr33 => 0xFF#8
  | .nr34 => Apu.nr4 b.apu.ch3.len
  | .nr41 => 0xFF#8
  | .nr42 => b.apu.ch4.env.nr2
  | .nr43 => b.apu.ch4.nr43
  | .nr44 => Apu.nr4 b.apu.ch4.len
  | .nr50 => b.apu.nr50
  | .nr51 => b.apu.nr51
  | .nr52 => b.apu.nr52
  | .lcdc => b.ppu.lcdc
  | .stat => b.ppu.statRead
  | .scy => b.ppu.scy
  | .scx => b.ppu.scx
  | .ly => BitVec.ofNat 8 b.ppu.ly
  | .lyc => b.ppu.lyc
  | .dma => b.ppu.dma
  | .bgp => b.ppu.bgp
  | .obp0 => b.ppu.obp0
  | .obp1 => b.ppu.obp1
  | .wy => b.ppu.wy
  | .wx => b.ppu.wx

/-- The byte of a place (R61, R121, R132, R137). -/
def readPlace (b : Bus) : Place → Byte
  | .rom o => b.rom.read o
  | .vram o => b.vram.read o
  | .cartRam o => b.cartRam.read o
  | .cartNibble o => 0b1111#4 ++ (b.cartRam.read o).extractLsb' 0 4
  | .rtc i => b.cart.rtcLatched.readIndex i
  | .wram o => b.wram.read o
  | .oam o => b.oam.read o
  | .wave o => b.waveRam.read o
  | .io r => b.ioRead r
  | .hram o => b.hram.read o
  | .ie => b.ie
  | .absent => 0xFF#8

/-- What an address reads as without the override of R84. -/
def peek (b : Bus) (a : Word) : Byte := b.readPlace (b.cart.place a)

/-- The PPU shuts the CPU out of the place (R84). -/
def blocked (b : Bus) (prm : Params) : Place → Bool
  | .vram _ => prm.ppuAccessBlocking && b.ppu.mode = .transfer
  | .oam _ => prm.ppuAccessBlocking && (b.ppu.mode = .oamScan || b.ppu.mode = .transfer)
  | _ => false

/-- `MemRead(a, 1)` (R61). -/
def read (b : Bus) (prm : Params) (a : Word) : Byte :=
  if b.blocked prm (b.cart.place a) then 0xFF#8 else b.peek a

/-! ## Writes -/

/-- `RequestInterrupt` for every bit of the mask (R411). -/
def request (b : Bus) (m : BitVec 5) : Bus := { b with iflag := b.iflag ||| m }

/-- `JoyEvaluate()` (R464), for a joypad with its select bits or buttons already changed. -/
def joyEvaluate (b : Bus) (j : Joypad) : Bus :=
  { b with joy := j.evaluate.1 }.request (irqIf j.evaluate.2 irqJoypad)

/-- The PPU after a register write, with the requests the write made. -/
def ppuEffect (b : Bus) (e : Ppu × BitVec 5) : Bus := { b with ppu := e.1 }.request e.2

/-- A write of NR10 to NR51 is ignored while the APU is off (R541). -/
def apuWrite (b : Bus) (a : Apu) : Bus := if b.apu.on then { b with apu := a } else b

/-- The first `n` bytes of the OAM copy from page `v` (R90): the reads ignore R84. -/
def dmaCopy (v : Byte) : Nat → Bus → Bus
  | 0, b => b
  | n + 1, b =>
    let b := dmaCopy v n b
    { b with oam := b.oam.write n (b.peek (Word.ofBytes v (BitVec.ofNat 8 n))) }

/-- A write of DMA (R90): the register, the copy of 160 bytes, the cost. -/
def dmaWrite (b : Bus) (v : Byte) : Bus :=
  { dmaCopy v 160 { b with ppu.dma := v } with dmaCost := 160 }

/-- What a write to a register of the I/O block does (R40). -/
def ioWrite (b : Bus) (v : Byte) : IoReg → Bus
  | .p1 => b.joyEvaluate { b.joy with select := v.extractLsb' 4 2 }
  | .sb => { b with serial.sb := v }
  | .sc => { b with serial.sc7 := v.getLsbD 7, serial.sc0 := v.getLsbD 0 }
  | .div => { b with timer.sysclk := 0#16 }
  | .tima => { b with timer.tima := v }
  | .tma => { b with timer.tma := v }
  | .tac => { b with timer.tac := v.extractLsb' 0 3 }
  | .iflag => { b with iflag := v.extractLsb' 0 5 }
  | .nr10 => b.apuWrite { b.apu with sweep.nr10 := v.extractLsb' 0 7 }
  | .nr11 => b.apuWrite { b.apu with ch1 := b.apu.ch1.writeNr1 v }
  | .nr12 => b.apuWrite { b.apu with ch1 := b.apu.ch1.writeNr2 v }
  | .nr13 => b.apuWrite { b.apu with ch1 := b.apu.ch1.writeNr3 v }
  | .nr14 => b.apuWrite (b.apu.writeNr14 v)
  | .nr21 => b.apuWrite { b.apu with ch2 := b.apu.ch2.writeNr1 v }
  | .nr22 => b.apuWrite { b.apu with ch2 := b.apu.ch2.writeNr2 v }
  | .nr23 => b.apuWrite { b.apu with ch2 := b.apu.ch2.writeNr3 v }
  | .nr24 => b.apuWrite (b.apu.writeNr24 v)
  | .nr30 => b.apuWrite { b.apu with ch3 := b.apu.ch3.writeNr0 v }
  | .nr31 => b.apuWrite { b.apu with ch3 := b.apu.ch3.writeNr1 v }
  | .nr32 => b.apuWrite { b.apu with ch3 := b.apu.ch3.writeNr2 v }
  | .nr33 => b.apuWrite { b.apu with ch3 := b.apu.ch3.writeNr3 v }
  | .nr34 => b.apuWrite { b.apu with ch3 := b.apu.ch3.writeNr4 v }
  | .nr41 => b.apuWrite { b.apu with ch4 := b.apu.ch4.writeNr1 v }
  | .nr42 => b.apuWrite { b.apu with ch4 := b.apu.ch4.writeNr2 v }
  | .nr43 => b.apuWrite { b.apu with ch4.nr43 := v }
  | .nr44 => b.apuWrite { b.apu with ch4 := b.apu.ch4.writeNr4 v }
  | .nr50 => b.apuWrite { b.apu with nr50 := v }
  | .nr51 => b.apuWrite { b.apu with nr51 := v }
  | .nr52 => { b with apu := b.apu.writeNr52 v }
  | .lcdc => b.ppuEffect (b.ppu.writeLcdc v)
  | .stat => b.ppuEffect (b.ppu.writeStat v)
  | .scy => { b with ppu.scy := v }
  | .scx => { b with ppu.scx := v }
  | .ly => b
  | .lyc => b.ppuEffect (b.ppu.writeLyc v)
  | .dma => b.dmaWrite v
  | .bgp => { b with ppu.bgp := v }
  | .obp0 => { b with ppu.obp0 := v }
  | .obp1 => { b with ppu.obp1 := v }
  | .wy => { b with ppu.wy := v }
  | .wx => { b with ppu.wx := v }

/-- What a write of `v` to address `a` at place `p` does (R62, R122, R123). -/
def writePlace (b : Bus) (a : Word) (v : Byte) : Place → Bus
  | .rom _ => { b with cart := b.cart.writeRom a.toNat v }
  | .vram o => { b with vram := b.vram.write o v }
  | .cartRam o => { b with cartRam := b.cartRam.write o v }
  | .cartNibble o => { b with cartRam := b.cartRam.write o (v &&& 0x0F#8) }
  | .rtc i => { b with cart := b.cart.writeRtc i v }
  | .wram o => { b with wram := b.wram.write o v }
  | .oam o => { b with oam := b.oam.write o v }
  | .wave o => { b with waveRam := b.waveRam.write o v }
  | .io r => b.ioWrite v r
  | .hram o => { b with hram := b.hram.write o v }
  | .ie => { b with ie := v }
  | .absent => b

/-- `MemWrite(a, 1, v)` (R62). -/
def write (b : Bus) (prm : Params) (a : Word) (v : Byte) : Bus :=
  if b.blocked prm (b.cart.place a) then b else b.writePlace a v (b.cart.place a)

/-! ## Time -/

/-- `TimerAdvance`, `PpuAdvance`, `ApuAdvance`, `RtcAdvance` by `t` T-cycles (R14). -/
def advance (b : Bus) (prm : Params) (t : Nat) : Bus :=
  let tm := b.timer.advance t
  let pp := b.ppu.advance prm b.vram b.oam t
  { b with
    timer := tm.1
    ppu := pp.1
    apu := b.apu.advance prm b.waveRam t
    cart := b.cart.rtcAdvance prm t
    iflag := b.iflag ||| irqIf tm.2 irqTimer ||| pp.2 }

/-! ## Placing bytes from outside -/

/-- Stores a byte where a read of `a` finds it, past every register and controller: the program image of ROM, or the
memory that owns the address. An address no memory owns is left alone. -/
def poke (b : Bus) (a : Word) (v : Byte) : Bus :=
  match b.cart.place a with
  | .rom o => { b with rom := b.rom.write o v }
  | .vram o => { b with vram := b.vram.write o v }
  | .cartRam o => { b with cartRam := b.cartRam.write o v }
  | .cartNibble o => { b with cartRam := b.cartRam.write o v }
  | .wram o => { b with wram := b.wram.write o v }
  | .oam o => { b with oam := b.oam.write o v }
  | .wave o => { b with waveRam := b.waveRam.write o v }
  | .hram o => { b with hram := b.hram.write o v }
  | .ie => { b with ie := v }
  | .rtc _ => b
  | .io _ => b
  | .absent => b

end Bus

end Sys2Proof.Machine
end

