-- ==== Sys2Proof/Machine/Operands.lean ====
section
/-! DEFINITION. Register operands: 8-bit codes, pairs, the stack pairs and conditions (R9, R20 to R22, R153 to R156). -/

namespace Sys2Proof.Machine

namespace Regs

/-- `x[i]` for a register code (R9, R153). -/
def get8 (r : Regs) : Reg8 → Byte
  | .b => r.b
  | .c => r.c
  | .d => r.d
  | .e => r.e
  | .h => r.h
  | .l => r.l
  | .a => r.a

/-- `x[i] <- v` for a register code (R9, R153). -/
def set8 (r : Regs) (v : Byte) : Reg8 → Regs
  | .b => { r with b := v }
  | .c => { r with c := v }
  | .d => { r with d := v }
  | .e => { r with e := v }
  | .h => { r with h := v }
  | .l => { r with l := v }
  | .a => { r with a := v }

/-- The pair BC (R21). -/
def bc (r : Regs) : Word := Word.ofBytes r.b r.c

/-- The pair DE (R21). -/
def de (r : Regs) : Word := Word.ofBytes r.d r.e

/-- The pair HL (R21). -/
def hl (r : Regs) : Word := Word.ofBytes r.h r.l

/-- The pair AF (R21). -/
def af (r : Regs) : Word := Word.ofBytes r.a r.f

/-- `HL <- v` (R21). -/
def setHL (r : Regs) (v : Word) : Regs := { r with h := Word.hi v, l := Word.lo v }

/-- `rr[p]` (R9, R154). -/
def get16 (r : Regs) : Reg16 → Word
  | .bc => r.bc
  | .de => r.de
  | .hl => r.hl
  | .sp => r.sp

/-- `rr[p] <- v` (R9, R154). -/
def set16 (r : Regs) (v : Word) : Reg16 → Regs
  | .bc => { r with b := Word.hi v, c := Word.lo v }
  | .de => { r with d := Word.hi v, e := Word.lo v }
  | .hl => r.setHL v
  | .sp => { r with sp := v }

/-- `qq[p]` (R9, R155). -/
def getStk (r : Regs) : RegStk → Word
  | .bc => r.bc
  | .de => r.de
  | .hl => r.hl
  | .af => r.af

/-- `qq[p] <- v`; AF discards bits 3:0 of the low byte (R21, R235). -/
def setStk (r : Regs) (v : Word) : RegStk → Regs
  | .bc => r.set16 v .bc
  | .de => r.set16 v .de
  | .hl => r.setHL v
  | .af => { r with a := Word.hi v, f := Word.lo v &&& 0xF0#8 }

/-! ## Flag bits and conditions (R22, R156) -/

/-- Z. -/
def flagZ (r : Regs) : Bool := r.f.getLsbD 7

/-- N. -/
def flagN (r : Regs) : Bool := r.f.getLsbD 6

/-- HF. -/
def flagH (r : Regs) : Bool := r.f.getLsbD 5

/-- CF. -/
def flagC (r : Regs) : Bool := r.f.getLsbD 4

/-- `flags <- (z, n, h, c)`; the low nibble of F is 0 (R9, R22). -/
def setFlags (r : Regs) (z n h c : Bool) : Regs :=
  { r with f := BitVec.ofBool z ++ BitVec.ofBool n ++ BitVec.ofBool h ++ BitVec.ofBool c ++ 0#4 }

/-- `cc[c]` (R9, R156). -/
def cond (r : Regs) : Cond → Bool
  | .nz => !r.flagZ
  | .z => r.flagZ
  | .nc => !r.flagC
  | .c => r.flagC

end Regs

end Sys2Proof.Machine
end

