-- ==== Sys2Proof/Machine/Flags.lean ====
section
/-! DEFINITION. Arithmetic and logic with its flags (R26, R233, R250 to R282, R290, R293, R300 to R319): each
function gives a result and the four flags, and touches no state. -/

namespace Sys2Proof.Machine

/-- A result byte and the four flags. -/
structure AluResult where
  r : Byte
  z : Bool
  n : Bool
  h : Bool
  c : Bool
  deriving DecidableEq, Repr

/-- `Add8(a, v, c)` on unbounded integers (R250). -/
def add8 (a v : Byte) (c : Bool) : AluResult :=
  let s := a.toNat + v.toNat + c.toNat
  { r := BitVec.ofNat 8 s
    z := s % 256 = 0
    n := false
    h := 0xF < a.lowNibble + v.lowNibble + c.toNat
    c := 0xFF < s }

/-- `Sub8(a, v, c)` on unbounded integers (R250). -/
def sub8 (a v : Byte) (c : Bool) : AluResult :=
  let d : Int := a.toNat - v.toNat - c.toNat
  { r := BitVec.ofInt 8 d
    z := d % 256 = 0
    n := true
    h := a.lowNibble < v.lowNibble + c.toNat
    c := d < 0 }

/-- A & v with its flags (R263). -/
def and8 (a v : Byte) : AluResult := ⟨a &&& v, a &&& v = 0#8, false, true, false⟩

/-- A ^ v with its flags (R266). -/
def xor8 (a v : Byte) : AluResult := ⟨a ^^^ v, a ^^^ v = 0#8, false, false, false⟩

/-- A | v with its flags (R269). -/
def or8 (a v : Byte) : AluResult := ⟨a ||| v, a ||| v = 0#8, false, false, false⟩

/-- v + 1; CF is passed through (R275). -/
def inc8 (v : Byte) (cf : Bool) : AluResult := ⟨v + 1#8, v + 1#8 = 0#8, false, v.lowNibble = 0xF, cf⟩

/-- v - 1; CF is passed through (R277). -/
def dec8 (v : Byte) (cf : Bool) : AluResult := ⟨v - 1#8, v - 1#8 = 0#8, true, v.lowNibble = 0, cf⟩

/-- The correction that DAA applies (R279). -/
def daaAdjust (a : Byte) (n h c : Bool) : Byte :=
  (if h ∨ (n = false ∧ 9 < a.lowNibble) then 0x06#8 else 0x00#8)
    ||| (if c ∨ (n = false ∧ 0x99 < a.toNat) then 0x60#8 else 0x00#8)

/-- `DAA` (R279). -/
def daa8 (a : Byte) (n h c : Bool) : AluResult :=
  let r := if n then a - daaAdjust a n h c else a + daaAdjust a n h c
  ⟨r, r = 0#8, n, false, c || (!n && 0x99 < a.toNat)⟩

/-- The flags every prefixed rotate and shift sets (R304 to R319). -/
def shiftResult (r : Byte) (out : Bool) : AluResult := ⟨r, r = 0#8, false, false, out⟩

/-- Rotate left circularly (R304). -/
def rlc8 (v : Byte) : AluResult := shiftResult (v.extractLsb' 0 7 ++ v.extractLsb' 7 1) (v.getLsbD 7)

/-- Rotate right circularly (R306). -/
def rrc8 (v : Byte) : AluResult := shiftResult (v.extractLsb' 0 1 ++ v.extractLsb' 1 7) (v.getLsbD 0)

/-- Rotate left through CF (R308). -/
def rl8 (v : Byte) (cf : Bool) : AluResult := shiftResult (v.extractLsb' 0 7 ++ BitVec.ofBool cf) (v.getLsbD 7)

/-- Rotate right through CF (R310). -/
def rr8 (v : Byte) (cf : Bool) : AluResult := shiftResult (BitVec.ofBool cf ++ v.extractLsb' 1 7) (v.getLsbD 0)

/-- Shift left; bit 0 becomes 0 (R312). -/
def sla8 (v : Byte) : AluResult := shiftResult (v.extractLsb' 0 7 ++ 0#1) (v.getLsbD 7)

/-- Shift right; bit 7 is kept (R314). -/
def sra8 (v : Byte) : AluResult := shiftResult (v.extractLsb' 7 1 ++ v.extractLsb' 1 7) (v.getLsbD 0)

/-- Exchange the nibbles (R316). -/
def swap8 (v : Byte) : AluResult := shiftResult (v.extractLsb' 0 4 ++ v.extractLsb' 4 4) false

/-- Shift right; bit 7 becomes 0 (R318). -/
def srl8 (v : Byte) : AluResult := shiftResult (0#1 ++ v.extractLsb' 1 7) (v.getLsbD 0)

/-- The byte with bit `b` cleared (R322). -/
def resBit (b : BitVec 3) (v : Byte) : Byte := v &&& ~~~ (1#8 <<< b.toNat)

/-- The byte with bit `b` set (R324). -/
def setBit (b : BitVec 3) (v : Byte) : Byte := v ||| (1#8 <<< b.toNat)

/-! ## 16-bit sums -/

/-- HF of `ADD HL,rr`: carry out of bit 11 (R290). -/
def add16Half (a v : Word) : Bool := 0xFFF < a.toNat % 4096 + v.toNat % 4096

/-- CF of `ADD HL,rr`: carry out of bit 15 (R290). -/
def add16Carry (a v : Word) : Bool := 0xFFFF < a.toNat + v.toNat

/-- HF of `ADD SP,e` and `LD HL,SP+e`: carry out of bit 3 of the low byte (R233, R293). -/
def spHalf (sp : Word) (u : Byte) : Bool := 0xF < sp.toNat % 16 + u.toNat % 16

/-- CF of `ADD SP,e` and `LD HL,SP+e`: carry out of bit 7 of the low byte (R233, R293). -/
def spCarry (sp : Word) (u : Byte) : Bool := 0xFF < sp.toNat % 256 + u.toNat

end Sys2Proof.Machine
end

