-- ==== Sys2Proof/Machine/Ops.lean ====
section
/-! DEFINITION. The named operations of the CPU over registers, flags, the bus and the stack (R9 to R11); the one
synchronous exception, the lock (R401); the dispatch of an interrupt (R421) and the return from one (R339). -/

namespace Sys2Proof.Machine

namespace State

/-! ## Registers -/

/-- `x[i]` for a register code (R9). -/
def reg8 (s : State) (r : Reg8) : Byte := s.regs.get8 r

/-- `x[i] <- v` for a register code (R9). -/
def setReg8 (s : State) (r : Reg8) (v : Byte) : State := { s with regs := s.regs.set8 v r }

/-- `rr[p]` (R9). -/
def reg16 (s : State) (p : Reg16) : Word := s.regs.get16 p

/-- `rr[p] <- v` (R9). -/
def setReg16 (s : State) (p : Reg16) (v : Word) : State := { s with regs := s.regs.set16 v p }

/-- `qq[p]` (R9). -/
def regStk (s : State) (q : RegStk) : Word := s.regs.getStk q

/-- `qq[p] <- v` (R9). -/
def setRegStk (s : State) (q : RegStk) (v : Word) : State := { s with regs := s.regs.setStk v q }

/-- `SP <- v`. -/
def setSP (s : State) (v : Word) : State := { s with regs.sp := v }

/-- `PC <- v` (R11). -/
def setPC (s : State) (v : Word) : State := { s with regs.pc := v }

/-- `flags <- (z, n, h, c)` (R9). -/
def setFlags (s : State) (z n h c : Bool) : State := { s with regs := s.regs.setFlags z n h c }

/-- The flags of a result. -/
def setAluFlags (s : State) (o : AluResult) : State := s.setFlags o.z o.n o.h o.c

/-- A register takes a result, and the flags with it. -/
def setAlu (s : State) (r : Reg8) (o : AluResult) : State := (s.setReg8 r o.r).setAluFlags o

/-- `cycles <- n` (R11). -/
def takes (s : State) (n : Nat) : State := { s with cycles := n }

/-! ## The bus -/

/-- `MemRead(a, 1)` (R10). -/
def memRead (s : State) (a : Word) : Byte := s.bus.read s.params a

/-- The bus after an access or a host move; a joypad line that fell since the last evaluation ends mode Stopped
(R464, R466). -/
def withBus (s : State) (b : Bus) : State :=
  { s with
    bus := b
    mode :=
      if s.mode = .stopped ∧ (s.bus.joy.lastLines &&& ~~~ b.joy.lastLines) ≠ 0#4 then .running else s.mode }

/-- `MemWrite(a, 1, v)` (R10). -/
def memWrite (s : State) (a : Word) (v : Byte) : State := s.withBus (s.bus.write s.params a v)

/-- `MemWrite(a, 2, v)`: low byte first (R10). -/
def memWrite16 (s : State) (a v : Word) : State := (s.memWrite a (Word.lo v)).memWrite (a + 1#16) (Word.hi v)

/-- The byte at address HL. -/
def readHL (s : State) : Byte := s.memRead s.regs.hl

/-- A read of the byte at HL, a change, and a write to the same address, with the flags of the change (R87, R88). -/
def updateHL (s : State) (o : AluResult) : State := (s.memWrite s.regs.hl o.r).setAluFlags o

/-! ## The stack -/

/-- `Push16(v)` (R10): high byte first, at SP - 1. -/
def push16 (s : State) (v : Word) : State :=
  let s := s.setSP (s.regs.sp - 1#16)
  let s := s.memWrite s.regs.sp (Word.hi v)
  let s := s.setSP (s.regs.sp - 1#16)
  s.memWrite s.regs.sp (Word.lo v)

/-- The word that `Pop16()` returns (R10): low byte at SP. -/
def popped (s : State) : Word := Word.ofBytes (s.memRead (s.regs.sp + 1#16)) (s.memRead s.regs.sp)

/-- `Pop16()` (R10), apart from its value. -/
def dropStack (s : State) : State := s.setSP (s.regs.sp + 2#16)

/-- `PC <- Pop16()` (R337). -/
def returnTo (s : State) : State := s.dropStack.setPC s.popped

/-- `Push16(PC); PC <- a` (R335). -/
def callTo (s : State) (a : Word) : State := (s.push16 s.regs.pc).setPC a

/-! ## The lock (R401) -/

/-- `Lock(op)` (R401): PC is back on the opcode byte, the mode is Locked, one M-cycle. -/
def lock (s : State) : State := { s.setPC s.opAddr with mode := .locked, lockReported := false, cycles := 1 }

/-! ## Interrupts (R411, R412, R421) -/

/-- `pending = IE & IF & 0x1F` (R412). -/
def pending (s : State) : BitVec 5 := s.bus.ie.extractLsb' 0 5 &&& s.bus.iflag

/-- The lowest set bit of a pending mask (R412). -/
def firstPending (m : BitVec 5) : Nat :=
  if m.getLsbD 0 then 0
  else if m.getLsbD 1 then 1
  else if m.getLsbD 2 then 2
  else if m.getLsbD 3 then 3
  else 4

/-- `IF[i] <- 0`. -/
def acknowledge (s : State) (i : Nat) : State := { s with bus.iflag := s.bus.iflag &&& ~~~ (1#5 <<< i) }

/-- The vector of interrupt `i` (R413). -/
def vector (i : Nat) : Word := BitVec.ofNat 16 (0x40 + 8 * i)

/-- The adjustment of PC that `halt_bug` adds before the push (R611). -/
def releaseHold (s : State) : State :=
  if s.haltPcHold then { s.setPC (s.regs.pc - 1#16) with haltPcHold := false } else s

/-- `IME <- 0; ime_pending <- 0`. -/
def disableInterrupts (s : State) : State := { s with ime := false, imePending := false }

/-- `Dispatch(pending)` (R421): the source is chosen before the push. -/
def dispatch (s : State) : State :=
  let i := firstPending s.pending
  let s := s.releaseHold
  (((s.push16 s.regs.pc).disableInterrupts.acknowledge i).setPC (vector i)).takes 5

/-- `IME <- 1; ime_pending <- 0`, what RETI adds to a return (R339, R424). -/
def enableInterrupts (s : State) : State := { s with ime := true, imePending := false }

/-- The return from an interrupt (R339, R424): PC and IME. -/
def returnFromInterrupt (s : State) : State := s.returnTo.enableInterrupts

/-! ## HALT (R362, R611) -/

/-- `HaltBug()` applies: the parameter, IME = 0, and a source already pending (R362, R611). -/
def haltBugApplies (s : State) : Bool := s.params.haltBug && !s.ime && s.pending ≠ 0#5

end State

end Sys2Proof.Machine
end

