-- ==== Sys2Proof/Machine/Alu16.lean ====
section
/-! DEFINITION. The 16-bit arithmetic instructions (R290 to R293). -/

namespace Sys2Proof.Machine

/-- `ADD HL,rr` (R290). -/
def execAddHLRp (p : Reg16) (s : State) : Answer :=
  .next (((s.setReg16 .hl (s.regs.hl + s.reg16 p)).setFlags s.regs.flagZ false (add16Half s.regs.hl (s.reg16 p))
    (add16Carry s.regs.hl (s.reg16 p))).takes 2)

/-- `INC rr` (R291). -/
def execIncRp (p : Reg16) (s : State) : Answer := .next ((s.setReg16 p (s.reg16 p + 1#16)).takes 2)

/-- `DEC rr` (R292). -/
def execDecRp (p : Reg16) (s : State) : Answer := .next ((s.setReg16 p (s.reg16 p - 1#16)).takes 2)

/-- `ADD SP,e` (R293). -/
def execAddSPE (e : Byte) (s : State) : Answer :=
  .next (((s.setSP (s.regs.sp + e.sext)).setFlags false false (spHalf s.regs.sp e) (spCarry s.regs.sp e)).takes 4)

end Sys2Proof.Machine
end

