-- ==== Sys2Proof/Machine/Alu8.lean ====
section
/-! DEFINITION. The 8-bit arithmetic and logic instructions (R251 to R282). -/

namespace Sys2Proof.Machine

/-- `ADD A,r` (R251). -/
def execAddR (x : Reg8) (s : State) : Answer := .next ((s.setAlu .a (add8 s.regs.a (s.reg8 x) false)).takes 1)

/-- `ADD A,(HL)` (R252). -/
def execAddHL (s : State) : Answer := .next ((s.setAlu .a (add8 s.regs.a s.readHL false)).takes 2)

/-- `ADD A,n` (R253). -/
def execAddN (n : Byte) (s : State) : Answer := .next ((s.setAlu .a (add8 s.regs.a n false)).takes 2)

/-- `ADC A,r` (R254). -/
def execAdcR (x : Reg8) (s : State) : Answer := .next ((s.setAlu .a (add8 s.regs.a (s.reg8 x) s.regs.flagC)).takes 1)

/-- `ADC A,(HL)` (R255). -/
def execAdcHL (s : State) : Answer := .next ((s.setAlu .a (add8 s.regs.a s.readHL s.regs.flagC)).takes 2)

/-- `ADC A,n` (R256). -/
def execAdcN (n : Byte) (s : State) : Answer := .next ((s.setAlu .a (add8 s.regs.a n s.regs.flagC)).takes 2)

/-- `SUB r` (R257). -/
def execSubR (x : Reg8) (s : State) : Answer := .next ((s.setAlu .a (sub8 s.regs.a (s.reg8 x) false)).takes 1)

/-- `SUB (HL)` (R258). -/
def execSubHL (s : State) : Answer := .next ((s.setAlu .a (sub8 s.regs.a s.readHL false)).takes 2)

/-- `SUB n` (R259). -/
def execSubN (n : Byte) (s : State) : Answer := .next ((s.setAlu .a (sub8 s.regs.a n false)).takes 2)

/-- `SBC A,r` (R260). -/
def execSbcR (x : Reg8) (s : State) : Answer := .next ((s.setAlu .a (sub8 s.regs.a (s.reg8 x) s.regs.flagC)).takes 1)

/-- `SBC A,(HL)` (R261). -/
def execSbcHL (s : State) : Answer := .next ((s.setAlu .a (sub8 s.regs.a s.readHL s.regs.flagC)).takes 2)

/-- `SBC A,n` (R262). -/
def execSbcN (n : Byte) (s : State) : Answer := .next ((s.setAlu .a (sub8 s.regs.a n s.regs.flagC)).takes 2)

/-- `AND r` (R263). -/
def execAndR (x : Reg8) (s : State) : Answer := .next ((s.setAlu .a (and8 s.regs.a (s.reg8 x))).takes 1)

/-- `AND (HL)` (R264). -/
def execAndHL (s : State) : Answer := .next ((s.setAlu .a (and8 s.regs.a s.readHL)).takes 2)

/-- `AND n` (R265). -/
def execAndN (n : Byte) (s : State) : Answer := .next ((s.setAlu .a (and8 s.regs.a n)).takes 2)

/-- `XOR r` (R266). -/
def execXorR (x : Reg8) (s : State) : Answer := .next ((s.setAlu .a (xor8 s.regs.a (s.reg8 x))).takes 1)

/-- `XOR (HL)` (R267). -/
def execXorHL (s : State) : Answer := .next ((s.setAlu .a (xor8 s.regs.a s.readHL)).takes 2)

/-- `XOR n` (R268). -/
def execXorN (n : Byte) (s : State) : Answer := .next ((s.setAlu .a (xor8 s.regs.a n)).takes 2)

/-- `OR r` (R269). -/
def execOrR (x : Reg8) (s : State) : Answer := .next ((s.setAlu .a (or8 s.regs.a (s.reg8 x))).takes 1)

/-- `OR (HL)` (R270). -/
def execOrHL (s : State) : Answer := .next ((s.setAlu .a (or8 s.regs.a s.readHL)).takes 2)

/-- `OR n` (R271). -/
def execOrN (n : Byte) (s : State) : Answer := .next ((s.setAlu .a (or8 s.regs.a n)).takes 2)

/-- `CP r` (R272): A is not written. -/
def execCpR (x : Reg8) (s : State) : Answer := .next ((s.setAluFlags (sub8 s.regs.a (s.reg8 x) false)).takes 1)

/-- `CP (HL)` (R273): A is not written. -/
def execCpHL (s : State) : Answer := .next ((s.setAluFlags (sub8 s.regs.a s.readHL false)).takes 2)

/-- `CP n` (R274): A is not written. -/
def execCpN (n : Byte) (s : State) : Answer := .next ((s.setAluFlags (sub8 s.regs.a n false)).takes 2)

/-- `INC r` (R275). -/
def execIncR (d : Reg8) (s : State) : Answer := .next ((s.setAlu d (inc8 (s.reg8 d) s.regs.flagC)).takes 1)

/-- `INC (HL)` (R276). -/
def execIncHL (s : State) : Answer := .next ((s.updateHL (inc8 s.readHL s.regs.flagC)).takes 3)

/-- `DEC r` (R277). -/
def execDecR (d : Reg8) (s : State) : Answer := .next ((s.setAlu d (dec8 (s.reg8 d) s.regs.flagC)).takes 1)

/-- `DEC (HL)` (R278). -/
def execDecHL (s : State) : Answer := .next ((s.updateHL (dec8 s.readHL s.regs.flagC)).takes 3)

/-- `DAA` (R279). -/
def execDaa (s : State) : Answer :=
  .next ((s.setAlu .a (daa8 s.regs.a s.regs.flagN s.regs.flagH s.regs.flagC)).takes 1)

/-- `CPL` (R280). -/
def execCpl (s : State) : Answer :=
  .next (((s.setReg8 .a (~~~ s.regs.a)).setFlags s.regs.flagZ true true s.regs.flagC).takes 1)

/-- `SCF` (R281). -/
def execScf (s : State) : Answer := .next ((s.setFlags s.regs.flagZ false false true).takes 1)

/-- `CCF` (R282). -/
def execCcf (s : State) : Answer := .next ((s.setFlags s.regs.flagZ false false (!s.regs.flagC)).takes 1)

end Sys2Proof.Machine
end

