-- ==== Sys2Proof/Machine/Control.lean ====
section
/-! DEFINITION. Jumps, calls, restarts and returns (R330 to R340). -/

namespace Sys2Proof.Machine

/-- `JP nn` (R330). -/
def execJpNn (nn : Word) (s : State) : Answer := .next ((s.setPC nn).takes 4)

/-- `JP cc,nn` (R331). -/
def execJpCc (c : Cond) (nn : Word) (s : State) : Answer :=
  .next (if s.regs.cond c then (s.setPC nn).takes 4 else s.takes 3)

/-- `JP HL` (R332). -/
def execJpHL (s : State) : Answer := .next ((s.setPC s.regs.hl).takes 1)

/-- `JR e` (R333). -/
def execJrE (e : Byte) (s : State) : Answer := .next ((s.setPC (s.regs.pc + e.sext)).takes 3)

/-- `JR cc,e` (R334). -/
def execJrCc (c : Cond) (e : Byte) (s : State) : Answer :=
  .next (if s.regs.cond c then (s.setPC (s.regs.pc + e.sext)).takes 3 else s.takes 2)

/-- `CALL nn` (R335). -/
def execCallNn (nn : Word) (s : State) : Answer := .next ((s.callTo nn).takes 6)

/-- `CALL cc,nn` (R336). -/
def execCallCc (c : Cond) (nn : Word) (s : State) : Answer :=
  .next (if s.regs.cond c then (s.callTo nn).takes 6 else s.takes 3)

/-- `RST t` (R340): the target is 8 * y. -/
def execRst (y : BitVec 3) (s : State) : Answer := .next ((s.callTo (0x00#8 ++ (0#2 ++ y ++ 0#3))).takes 4)

/-- `RET` (R337). -/
def execRet (s : State) : Answer := .next (s.returnTo.takes 4)

/-- `RET cc` (R338). -/
def execRetCc (c : Cond) (s : State) : Answer :=
  .next (if s.regs.cond c then s.returnTo.takes 5 else s.takes 2)

/-- `RETI` (R339). -/
def execReti (s : State) : Answer := .next (s.returnFromInterrupt.takes 4)

end Sys2Proof.Machine
end

