-- ==== Sys2Proof/Machine/Load16.lean ====
section
/-! DEFINITION. The 16-bit loads and the stack (R230 to R235). -/

namespace Sys2Proof.Machine

/-- `LD rr,nn` (R230). -/
def execLdRpNn (p : Reg16) (nn : Word) (s : State) : Answer := .next ((s.setReg16 p nn).takes 3)

/-- `LD (nn),SP` (R231). -/
def execLdNnSP (nn : Word) (s : State) : Answer := .next ((s.memWrite16 nn s.regs.sp).takes 5)

/-- `LD SP,HL` (R232). -/
def execLdSPHL (s : State) : Answer := .next ((s.setSP s.regs.hl).takes 2)

/-- `LD HL,SP+e` (R233). -/
def execLdHLSPE (e : Byte) (s : State) : Answer :=
  .next (((s.setReg16 .hl (s.regs.sp + e.sext)).setFlags false false (spHalf s.regs.sp e) (spCarry s.regs.sp e)).takes 3)

/-- `PUSH qq` (R234). -/
def execPushQ (q : RegStk) (s : State) : Answer := .next ((s.push16 (s.regStk q)).takes 4)

/-- `POP qq` (R235). -/
def execPopQ (q : RegStk) (s : State) : Answer := .next ((s.dropStack.setRegStk q s.popped).takes 3)

end Sys2Proof.Machine
end

