-- ==== Sys2Proof/Machine/Load8.lean ====
section
/-! DEFINITION. The 8-bit loads (R200 to R218). -/

namespace Sys2Proof.Machine

/-- `LD r,r'` (R200). -/
def execLdRR (d x : Reg8) (s : State) : Answer := .next ((s.setReg8 d (s.reg8 x)).takes 1)

/-- `LD r,n` (R201). -/
def execLdRN (d : Reg8) (n : Byte) (s : State) : Answer := .next ((s.setReg8 d n).takes 2)

/-- `LD r,(HL)` (R202). -/
def execLdRHL (d : Reg8) (s : State) : Answer := .next ((s.setReg8 d s.readHL).takes 2)

/-- `LD (HL),r` (R203). -/
def execLdHLR (x : Reg8) (s : State) : Answer := .next ((s.memWrite s.regs.hl (s.reg8 x)).takes 2)

/-- `LD (HL),n` (R204). -/
def execLdHLN (n : Byte) (s : State) : Answer := .next ((s.memWrite s.regs.hl n).takes 3)

/-- `LD A,(BC)` (R205). -/
def execLdABC (s : State) : Answer := .next ((s.setReg8 .a (s.memRead s.regs.bc)).takes 2)

/-- `LD A,(DE)` (R206). -/
def execLdADE (s : State) : Answer := .next ((s.setReg8 .a (s.memRead s.regs.de)).takes 2)

/-- `LD (BC),A` (R207). -/
def execLdBCA (s : State) : Answer := .next ((s.memWrite s.regs.bc s.regs.a).takes 2)

/-- `LD (DE),A` (R208). -/
def execLdDEA (s : State) : Answer := .next ((s.memWrite s.regs.de s.regs.a).takes 2)

/-- `LD A,(nn)` (R209). -/
def execLdANn (nn : Word) (s : State) : Answer := .next ((s.setReg8 .a (s.memRead nn)).takes 4)

/-- `LD (nn),A` (R210). -/
def execLdNnA (nn : Word) (s : State) : Answer := .next ((s.memWrite nn s.regs.a).takes 4)

/-- `LDH A,(C)` (R211). -/
def execLdhAC (s : State) : Answer := .next ((s.setReg8 .a (s.memRead s.regs.c.highPage)).takes 2)

/-- `LDH (C),A` (R212). -/
def execLdhCA (s : State) : Answer := .next ((s.memWrite s.regs.c.highPage s.regs.a).takes 2)

/-- `LDH A,(n)` (R213). -/
def execLdhAN (n : Byte) (s : State) : Answer := .next ((s.setReg8 .a (s.memRead n.highPage)).takes 3)

/-- `LDH (n),A` (R214). -/
def execLdhNA (n : Byte) (s : State) : Answer := .next ((s.memWrite n.highPage s.regs.a).takes 3)

/-- `LD A,(HL-)` (R215). -/
def execLdAHLD (s : State) : Answer := .next (((s.setReg8 .a s.readHL).setReg16 .hl (s.regs.hl - 1#16)).takes 2)

/-- `LD (HL-),A` (R216). -/
def execLdHLDA (s : State) : Answer :=
  .next (((s.memWrite s.regs.hl s.regs.a).setReg16 .hl (s.regs.hl - 1#16)).takes 2)

/-- `LD A,(HL+)` (R217). -/
def execLdAHLI (s : State) : Answer := .next (((s.setReg8 .a s.readHL).setReg16 .hl (s.regs.hl + 1#16)).takes 2)

/-- `LD (HL+),A` (R218). -/
def execLdHLIA (s : State) : Answer :=
  .next (((s.memWrite s.regs.hl s.regs.a).setReg16 .hl (s.regs.hl + 1#16)).takes 2)

end Sys2Proof.Machine
end

