-- ==== Sys2Proof/Machine/Rotate.lean ====
section
/-! DEFINITION. The rotates of A and the prefixed rotate, shift and bit instructions (R300 to R325). -/

namespace Sys2Proof.Machine

/-- A rotate of A takes the result and the carry of its prefixed namesake, with Z = 0 (R300 to R303). -/
def State.setRotatedA (s : State) (o : AluResult) : State := (s.setReg8 .a o.r).setFlags false false false o.c

/-- `RLCA` (R300). -/
def execRlca (s : State) : Answer := .next ((s.setRotatedA (rlc8 s.regs.a)).takes 1)

/-- `RRCA` (R301). -/
def execRrca (s : State) : Answer := .next ((s.setRotatedA (rrc8 s.regs.a)).takes 1)

/-- `RLA` (R302). -/
def execRla (s : State) : Answer := .next ((s.setRotatedA (rl8 s.regs.a s.regs.flagC)).takes 1)

/-- `RRA` (R303). -/
def execRra (s : State) : Answer := .next ((s.setRotatedA (rr8 s.regs.a s.regs.flagC)).takes 1)

/-- `RLC r` (R304). -/
def execRlcR (x : Reg8) (s : State) : Answer := .next ((s.setAlu x (rlc8 (s.reg8 x))).takes 2)

/-- `RLC (HL)` (R305). -/
def execRlcHL (s : State) : Answer := .next ((s.updateHL (rlc8 s.readHL)).takes 4)

/-- `RRC r` (R306). -/
def execRrcR (x : Reg8) (s : State) : Answer := .next ((s.setAlu x (rrc8 (s.reg8 x))).takes 2)

/-- `RRC (HL)` (R307). -/
def execRrcHL (s : State) : Answer := .next ((s.updateHL (rrc8 s.readHL)).takes 4)

/-- `RL r` (R308). -/
def execRlR (x : Reg8) (s : State) : Answer := .next ((s.setAlu x (rl8 (s.reg8 x) s.regs.flagC)).takes 2)

/-- `RL (HL)` (R309). -/
def execRlHL (s : State) : Answer := .next ((s.updateHL (rl8 s.readHL s.regs.flagC)).takes 4)

/-- `RR r` (R310). -/
def execRrR (x : Reg8) (s : State) : Answer := .next ((s.setAlu x (rr8 (s.reg8 x) s.regs.flagC)).takes 2)

/-- `RR (HL)` (R311). -/
def execRrHL (s : State) : Answer := .next ((s.updateHL (rr8 s.readHL s.regs.flagC)).takes 4)

/-- `SLA r` (R312). -/
def execSlaR (x : Reg8) (s : State) : Answer := .next ((s.setAlu x (sla8 (s.reg8 x))).takes 2)

/-- `SLA (HL)` (R313). -/
def execSlaHL (s : State) : Answer := .next ((s.updateHL (sla8 s.readHL)).takes 4)

/-- `SRA r` (R314). -/
def execSraR (x : Reg8) (s : State) : Answer := .next ((s.setAlu x (sra8 (s.reg8 x))).takes 2)

/-- `SRA (HL)` (R315). -/
def execSraHL (s : State) : Answer := .next ((s.updateHL (sra8 s.readHL)).takes 4)

/-- `SWAP r` (R316). -/
def execSwapR (x : Reg8) (s : State) : Answer := .next ((s.setAlu x (swap8 (s.reg8 x))).takes 2)

/-- `SWAP (HL)` (R317). -/
def execSwapHL (s : State) : Answer := .next ((s.updateHL (swap8 s.readHL)).takes 4)

/-- `SRL r` (R318). -/
def execSrlR (x : Reg8) (s : State) : Answer := .next ((s.setAlu x (srl8 (s.reg8 x))).takes 2)

/-- `SRL (HL)` (R319). -/
def execSrlHL (s : State) : Answer := .next ((s.updateHL (srl8 s.readHL)).takes 4)

/-- `BIT b,r` (R320). -/
def execBitR (b : BitVec 3) (x : Reg8) (s : State) : Answer :=
  .next ((s.setFlags (!(s.reg8 x).getLsbD b.toNat) false true s.regs.flagC).takes 2)

/-- `BIT b,(HL)` (R321). -/
def execBitHL (b : BitVec 3) (s : State) : Answer :=
  .next ((s.setFlags (!s.readHL.getLsbD b.toNat) false true s.regs.flagC).takes 3)

/-- `RES b,r` (R322). -/
def execResR (b : BitVec 3) (x : Reg8) (s : State) : Answer := .next ((s.setReg8 x (resBit b (s.reg8 x))).takes 2)

/-- `RES b,(HL)` (R323). -/
def execResHL (b : BitVec 3) (s : State) : Answer := .next ((s.memWrite s.regs.hl (resBit b s.readHL)).takes 4)

/-- `SET b,r` (R324). -/
def execSetR (b : BitVec 3) (x : Reg8) (s : State) : Answer := .next ((s.setReg8 x (setBit b (s.reg8 x))).takes 2)

/-- `SET b,(HL)` (R325). -/
def execSetHL (b : BitVec 3) (s : State) : Answer := .next ((s.memWrite s.regs.hl (setBit b s.readHL)).takes 4)

end Sys2Proof.Machine
end

