-- ==== Sys2Proof/Machine/System.lean ====
section
/-! DEFINITION. The system instructions, the prefix and the undefined opcodes (R360 to R366). -/

namespace Sys2Proof.Machine

/-- `NOP` (R360). -/
def execNop (s : State) : Answer := .next (s.takes 1)

/-- `DI` (R361). -/
def execDi (s : State) : Answer := .next (s.disableInterrupts.takes 1)

/-- `HALT` (R362, R611). -/
def execHalt (s : State) : Answer :=
  .next ((if s.haltBugApplies then { s with haltPcHold := true } else { s with mode := .halted }).takes 1)

/-- `STOP` (R363): the byte after the opcode has no effect. -/
def execStop (_n : Byte) (s : State) : Answer := .next (State.takes { s with mode := .stopped } 1)

/-- `EI` (R364). -/
def execEi (s : State) : Answer := .next (State.takes { s with imePending := true } 1)

/-- The undefined opcode 0xD3 (R366, R401). -/
def execUndefD3 (s : State) : Answer := .next (s.lock)

/-- The undefined opcode 0xDB (R366, R401). -/
def execUndefDB (s : State) : Answer := .next (s.lock)

/-- The undefined opcode 0xDD (R366, R401). -/
def execUndefDD (s : State) : Answer := .next (s.lock)

/-- The undefined opcode 0xE3 (R366, R401). -/
def execUndefE3 (s : State) : Answer := .next (s.lock)

/-- The undefined opcode 0xE4 (R366, R401). -/
def execUndefE4 (s : State) : Answer := .next (s.lock)

/-- The undefined opcode 0xEB (R366, R401). -/
def execUndefEB (s : State) : Answer := .next (s.lock)

/-- The undefined opcode 0xEC (R366, R401). -/
def execUndefEC (s : State) : Answer := .next (s.lock)

/-- The undefined opcode 0xED (R366, R401). -/
def execUndefED (s : State) : Answer := .next (s.lock)

/-- The undefined opcode 0xF4 (R366, R401). -/
def execUndefF4 (s : State) : Answer := .next (s.lock)

/-- The undefined opcode 0xFC (R366, R401). -/
def execUndefFC (s : State) : Answer := .next (s.lock)

/-- The undefined opcode 0xFD (R366, R401). -/
def execUndefFD (s : State) : Answer := .next (s.lock)

/-- `PREFIX CB` with its second byte (R161, R365): the meaning of the prefixed row that `op2` selects. -/
def execPrefixCB (op2 : Byte) (s : State) : Answer :=
  let y := op2.fieldY
  let b := BitVec.ofNat 3 y
  match op2.fieldX, Reg8.ofCode op2.fieldZ with
  | 0, some x =>
    match y with
    | 0 => execRlcR x s
    | 1 => execRrcR x s
    | 2 => execRlR x s
    | 3 => execRrR x s
    | 4 => execSlaR x s
    | 5 => execSraR x s
    | 6 => execSwapR x s
    | _ => execSrlR x s
  | 0, none =>
    match y with
    | 0 => execRlcHL s
    | 1 => execRrcHL s
    | 2 => execRlHL s
    | 3 => execRrHL s
    | 4 => execSlaHL s
    | 5 => execSraHL s
    | 6 => execSwapHL s
    | _ => execSrlHL s
  | 1, some x => execBitR b x s
  | 1, none => execBitHL b s
  | 2, some x => execResR b x s
  | 2, none => execResHL b s
  | _, some x => execSetR b x s
  | _, none => execSetHL b s

end Sys2Proof.Machine
end

