-- ==== Sys2Proof/Machine/Dispatch.lean ====
section
/-! DEFINITION. One arm per instruction: each is one call of its meaning. `exec i s` runs `i` at a state whose PC is
already past the bytes of `i` (R12). -/

namespace Sys2Proof.Machine

def exec (i : Instr) (s : State) : Host.Outcome State Fault Refusal :=
  match i with
  | .ldRR d x => Sys2Proof.Machine.execLdRR d x s
  | .ldRN d n => Sys2Proof.Machine.execLdRN d n s
  | .ldRHL d => Sys2Proof.Machine.execLdRHL d s
  | .ldHLR x => Sys2Proof.Machine.execLdHLR x s
  | .ldHLN n => Sys2Proof.Machine.execLdHLN n s
  | .ldABC => Sys2Proof.Machine.execLdABC s
  | .ldADE => Sys2Proof.Machine.execLdADE s
  | .ldBCA => Sys2Proof.Machine.execLdBCA s
  | .ldDEA => Sys2Proof.Machine.execLdDEA s
  | .ldANn nn => Sys2Proof.Machine.execLdANn nn s
  | .ldNnA nn => Sys2Proof.Machine.execLdNnA nn s
  | .ldhAC => Sys2Proof.Machine.execLdhAC s
  | .ldhCA => Sys2Proof.Machine.execLdhCA s
  | .ldhAN n => Sys2Proof.Machine.execLdhAN n s
  | .ldhNA n => Sys2Proof.Machine.execLdhNA n s
  | .ldAHLD => Sys2Proof.Machine.execLdAHLD s
  | .ldHLDA => Sys2Proof.Machine.execLdHLDA s
  | .ldAHLI => Sys2Proof.Machine.execLdAHLI s
  | .ldHLIA => Sys2Proof.Machine.execLdHLIA s
  | .ldRpNn p nn => Sys2Proof.Machine.execLdRpNn p nn s
  | .ldNnSP nn => Sys2Proof.Machine.execLdNnSP nn s
  | .ldSPHL => Sys2Proof.Machine.execLdSPHL s
  | .ldHLSPE e => Sys2Proof.Machine.execLdHLSPE e s
  | .pushQ q => Sys2Proof.Machine.execPushQ q s
  | .popQ q => Sys2Proof.Machine.execPopQ q s
  | .addR x => Sys2Proof.Machine.execAddR x s
  | .addHL => Sys2Proof.Machine.execAddHL s
  | .addN n => Sys2Proof.Machine.execAddN n s
  | .adcR x => Sys2Proof.Machine.execAdcR x s
  | .adcHL => Sys2Proof.Machine.execAdcHL s
  | .adcN n => Sys2Proof.Machine.execAdcN n s
  | .subR x => Sys2Proof.Machine.execSubR x s
  | .subHL => Sys2Proof.Machine.execSubHL s
  | .subN n => Sys2Proof.Machine.execSubN n s
  | .sbcR x => Sys2Proof.Machine.execSbcR x s
  | .sbcHL => Sys2Proof.Machine.execSbcHL s
  | .sbcN n => Sys2Proof.Machine.execSbcN n s
  | .andR x => Sys2Proof.Machine.execAndR x s
  | .andHL => Sys2Proof.Machine.execAndHL s
  | .andN n => Sys2Proof.Machine.execAndN n s
  | .xorR x => Sys2Proof.Machine.execXorR x s
  | .xorHL => Sys2Proof.Machine.execXorHL s
  | .xorN n => Sys2Proof.Machine.execXorN n s
  | .orR x => Sys2Proof.Machine.execOrR x s
  | .orHL => Sys2Proof.Machine.execOrHL s
  | .orN n => Sys2Proof.Machine.execOrN n s
  | .cpR x => Sys2Proof.Machine.execCpR x s
  | .cpHL => Sys2Proof.Machine.execCpHL s
  | .cpN n => Sys2Proof.Machine.execCpN n s
  | .incR d => Sys2Proof.Machine.execIncR d s
  | .incHL => Sys2Proof.Machine.execIncHL s
  | .decR d => Sys2Proof.Machine.execDecR d s
  | .decHL => Sys2Proof.Machine.execDecHL s
  | .daa => Sys2Proof.Machine.execDaa s
  | .cpl => Sys2Proof.Machine.execCpl s
  | .scf => Sys2Proof.Machine.execScf s
  | .ccf => Sys2Proof.Machine.execCcf s
  | .addHLRp p => Sys2Proof.Machine.execAddHLRp p s
  | .incRp p => Sys2Proof.Machine.execIncRp p s
  | .decRp p => Sys2Proof.Machine.execDecRp p s
  | .addSPE e => Sys2Proof.Machine.execAddSPE e s
  | .rlca => Sys2Proof.Machine.execRlca s
  | .rrca => Sys2Proof.Machine.execRrca s
  | .rla => Sys2Proof.Machine.execRla s
  | .rra => Sys2Proof.Machine.execRra s
  | .jpNn nn => Sys2Proof.Machine.execJpNn nn s
  | .jpCc c nn => Sys2Proof.Machine.execJpCc c nn s
  | .jpHL => Sys2Proof.Machine.execJpHL s
  | .jrE e => Sys2Proof.Machine.execJrE e s
  | .jrCc c e => Sys2Proof.Machine.execJrCc c e s
  | .callNn nn => Sys2Proof.Machine.execCallNn nn s
  | .callCc c nn => Sys2Proof.Machine.execCallCc c nn s
  | .ret => Sys2Proof.Machine.execRet s
  | .retCc c => Sys2Proof.Machine.execRetCc c s
  | .reti => Sys2Proof.Machine.execReti s
  | .rst y => Sys2Proof.Machine.execRst y s
  | .nop => Sys2Proof.Machine.execNop s
  | .di => Sys2Proof.Machine.execDi s
  | .halt => Sys2Proof.Machine.execHalt s
  | .stop n => Sys2Proof.Machine.execStop n s
  | .ei => Sys2Proof.Machine.execEi s
  | .prefixCB op2 => Sys2Proof.Machine.execPrefixCB op2 s
  | .undefD3 => Sys2Proof.Machine.execUndefD3 s
  | .undefDB => Sys2Proof.Machine.execUndefDB s
  | .undefDD => Sys2Proof.Machine.execUndefDD s
  | .undefE3 => Sys2Proof.Machine.execUndefE3 s
  | .undefE4 => Sys2Proof.Machine.execUndefE4 s
  | .undefEB => Sys2Proof.Machine.execUndefEB s
  | .undefEC => Sys2Proof.Machine.execUndefEC s
  | .undefED => Sys2Proof.Machine.execUndefED s
  | .undefF4 => Sys2Proof.Machine.execUndefF4 s
  | .undefFC => Sys2Proof.Machine.execUndefFC s
  | .undefFD => Sys2Proof.Machine.execUndefFD s
  | .rlcR x => Sys2Proof.Machine.execRlcR x s
  | .rlcHL => Sys2Proof.Machine.execRlcHL s
  | .rrcR x => Sys2Proof.Machine.execRrcR x s
  | .rrcHL => Sys2Proof.Machine.execRrcHL s
  | .rlR x => Sys2Proof.Machine.execRlR x s
  | .rlHL => Sys2Proof.Machine.execRlHL s
  | .rrR x => Sys2Proof.Machine.execRrR x s
  | .rrHL => Sys2Proof.Machine.execRrHL s
  | .slaR x => Sys2Proof.Machine.execSlaR x s
  | .slaHL => Sys2Proof.Machine.execSlaHL s
  | .sraR x => Sys2Proof.Machine.execSraR x s
  | .sraHL => Sys2Proof.Machine.execSraHL s
  | .swapR x => Sys2Proof.Machine.execSwapR x s
  | .swapHL => Sys2Proof.Machine.execSwapHL s
  | .srlR x => Sys2Proof.Machine.execSrlR x s
  | .srlHL => Sys2Proof.Machine.execSrlHL s
  | .bitR b x => Sys2Proof.Machine.execBitR b x s
  | .bitHL b => Sys2Proof.Machine.execBitHL b s
  | .resR b x => Sys2Proof.Machine.execResR b x s
  | .resHL b => Sys2Proof.Machine.execResHL b s
  | .setR b x => Sys2Proof.Machine.execSetR b x s
  | .setHL b => Sys2Proof.Machine.execSetHL b s

end Sys2Proof.Machine
end

