-- ==== Sys2Proof/Machine/Tick.lean ====
section
/-! DEFINITION. The fetch, the CPU step, and the tick that the host performs (R14, R420, R620), with the report of a
lock (R31, R403). -/

namespace Sys2Proof.Machine

namespace State

/-! ## Fetch (R10, R611) -/

/-- The address of the byte after the opcode byte: PC does not advance over an opcode that `halt_bug` holds (R611). -/
def operandPC (s : State) : Word := if s.haltPcHold then s.regs.pc else s.regs.pc + 1#16

/-- The opcode byte. -/
def opcodeByte (s : State) : Byte := s.memRead s.regs.pc

/-- The instruction at PC (R160). A read has no side effect (R89), so bytes past its length do not matter. -/
def fetched (s : State) : Instr :=
  decodeBytes s.opcodeByte (s.memRead s.operandPC) (s.memRead (s.operandPC + 1#16))

/-- The state after the fetch: PC is past the instruction's bytes. -/
def afterFetch (s : State) : State :=
  { s.setPC (s.operandPC + BitVec.ofNat 16 (opLength s.opcodeByte - 1)) with
    opAddr := s.regs.pc
    haltPcHold := false }

/-- `Execute()` (R420). -/
def execute (s : State) : Answer := exec s.fetched s.afterFetch

/-! ## The CPU step (R420) -/

/-- After an instruction: an EI of the step before takes effect now (R364, R420), unless the instruction locked (R366:
the pending enable "is left as it is and never takes effect"): DEDUCED, unsafe (notes/assumptions/19.md). -/
def eiEffect (pendingBefore : Bool) (s : State) : State :=
  if pendingBefore ∧ s.imePending ∧ s.mode ≠ .locked then s.enableInterrupts else s

/-- Applies `f` to the state of an answer. -/
def mapAnswer (f : State → State) : Answer → Answer
  | .next s => .next (f s)
  | .fault r => .fault r
  | .refused r => .refused r

/-- A step in mode Running: a dispatch, or an instruction (R420). -/
def runStep (s : State) : Answer :=
  if s.ime ∧ s.pending ≠ 0#5 then .next s.dispatch
  else mapAnswer (eiEffect s.imePending) s.execute

/-- A step apart from the cost of an OAM copy (R420, R430). -/
def modeStep (s : State) : Answer :=
  match s.mode with
  | .locked => .next (s.takes 1)
  | .halted => if s.pending = 0#5 then .next (s.takes 1) else runStep { s with mode := .running }
  | .stopped => .next (s.takes 1)
  | .running => runStep s

/-- `dma_cost <- 0` (R420). -/
def clearDmaCost (s : State) : State := { s with bus.dmaCost := 0 }

/-- `CpuStep()` (R420): the cost of an OAM copy of the step before is added (R91). -/
def cpuStep (s : State) : Answer := mapAnswer (fun t => t.takes (t.cycles + s.bus.dmaCost)) (modeStep s.clearDmaCost)

/-! ## The tick (R14) -/

/-- The first tick that finds the CPU Locked reports it (R31, R403): DEDUCED, unsafe (notes/assumptions/7.md). -/
def reportLock (s : State) : State :=
  if s.mode = .locked then { s with lockReported := true } else s

/-- The devices advance by the cycles of the step (R14). -/
def advance (s : State) : State := { s with bus := s.bus.advance s.params (4 * s.cycles) }

/-- `Tick()` (R14, R620). -/
def tick (s : State) : Answer := mapAnswer advance s.reportLock.cpuStep

/-! ## Placing an instruction at PC -/

/-- Stores the bytes where a fetch at `a` finds them. -/
def placeBytes (s : State) (a : Word) : List Byte → State
  | [] => s
  | v :: vs => placeBytes { s with bus := s.bus.poke a v } (a + 1#16) vs

/-- Makes the next step fetch at PC: mode Running, no held opcode, no interrupt to dispatch. DESIGN CHOICE, safe
(notes/assumptions/15.md). -/
def readyToFetch (s : State) : State :=
  { s with
    mode := .running
    haltPcHold := false
    ime := if s.pending = 0#5 then s.ime else false }

end State

end Sys2Proof.Machine
end

