-- ==== Sys2Proof/Machine/Step.lean ====
section
/-! DEFINITION. The step of the machine is one tick (R14, R620), and how an instruction is placed where the next step
fetches. -/

namespace Sys2Proof.Machine

/-- One step: one tick. -/
def step (s : State) : Host.Outcome State Fault Refusal := s.tick

/-- `s` with the instruction of `nbits` bits `w` stored at PC, so that the next step runs it. -/
def State.withFetchWord (s : State) (nbits w : Nat) : State :=
  (s.placeBytes s.regs.pc (Sys2Proof.tableBytes nbits w)).readyToFetch

end Sys2Proof.Machine
end

