-- ==== Sys2Proof/Machine/Boot.lean ====
section
/-! DEFINITION. Building the machine from a ROM image: the header (R110, R111, R604), the refusals of a load (R112), and
the reset procedure with its parameters (R7, R143, R600, R601). `State.reset` is the case of the all-zero 32 KiB image
with every parameter at its default and every unspecified byte 0. -/

namespace Sys2Proof.Machine

/-- A ROM image: its length and its bytes, keyed by offset (R110). -/
structure RomImage where
  size : Nat
  bytes : Memory
  deriving DecidableEq, Repr

/-- The image of a list of bytes. -/
def RomImage.ofList (bs : List Byte) : RomImage := ⟨bs.length, Memory.writeList [] 0 bs⟩

/-- Why a load is refused (R112). A refused load builds no machine. -/
inductive LoadError where
  | imageTooShort
  | unknownCartridgeType (v : Byte)
  | unknownRomSizeCode (v : Byte)
  | unknownRamSizeCode (v : Byte)
  | lengthMismatch
  deriving DecidableEq, Repr

/-- What a cartridge-type byte says (R111). `ramByCode`: cartridge RAM as the RAM-size code says. -/
structure CartType where
  variant : Variant
  ramByCode : Bool
  hasRtc : Bool
  battery : Bool
  deriving DecidableEq, Repr

/-- The table of cartridge-type bytes (R111). -/
def CartType.ofByte (v : Byte) : Option CartType :=
  match v.toNat with
  | 0x00 => some ⟨.none, false, false, false⟩
  | 0x08 => some ⟨.none, true, false, false⟩
  | 0x09 => some ⟨.none, true, false, true⟩
  | 0x01 => some ⟨.mbc1, false, false, false⟩
  | 0x02 => some ⟨.mbc1, true, false, false⟩
  | 0x03 => some ⟨.mbc1, true, false, true⟩
  | 0x05 => some ⟨.mbc2, false, false, false⟩
  | 0x06 => some ⟨.mbc2, false, false, true⟩
  | 0x0F => some ⟨.mbc3, false, true, true⟩
  | 0x10 => some ⟨.mbc3, true, true, true⟩
  | 0x11 => some ⟨.mbc3, false, false, false⟩
  | 0x12 => some ⟨.mbc3, true, false, false⟩
  | 0x13 => some ⟨.mbc3, true, false, true⟩
  | _ => none

/-- `rom_banks` of a ROM-size code (R111). -/
def romBanksOfCode (v : Byte) : Option Nat := if v.toNat ≤ 8 then some (2 * 2 ^ v.toNat) else none

/-- The bytes of cartridge RAM of a RAM-size code (R111). -/
def ramSizeOfCode (v : Byte) : Option Nat :=
  match v.toNat with
  | 0 => some 0
  | 1 => some 2048
  | 2 => some 8192
  | 3 => some 32768
  | 4 => some 131072
  | 5 => some 65536
  | _ => none

/-- What the header of an image says of the cartridge (R111, R601 step 1). -/
structure CartHeader where
  variant : Variant
  romBanks : Nat
  ramBanks : Nat
  ramSize : Nat
  hasRtc : Bool
  battery : Bool
  deriving DecidableEq, Repr

/-- The header of an image, or the refusal of the load (R110 to R112). -/
def loadCart (img : RomImage) : Except LoadError CartHeader :=
  if img.size < 0x0150 then .error .imageTooShort
  else
    match CartType.ofByte (img.bytes.read 0x0147) with
    | none => .error (.unknownCartridgeType (img.bytes.read 0x0147))
    | some t =>
      match romBanksOfCode (img.bytes.read 0x0148) with
      | none => .error (.unknownRomSizeCode (img.bytes.read 0x0148))
      | some banks =>
        match ramSizeOfCode (img.bytes.read 0x0149) with
        | none => .error (.unknownRamSizeCode (img.bytes.read 0x0149))
        | some size =>
          if img.size ≠ 16384 * banks then .error .lengthMismatch
          else
            let ram := if t.ramByCode then size else 0
            .ok ⟨t.variant, banks, (ram + 8191) / 8192, if t.variant = .mbc2 then 512 else ram, t.hasRtc, t.battery⟩

/-- The controller registers of `c` on the cartridge of header `h`. -/
def Cart.withHeader (c : Cart) (h : CartHeader) : Cart :=
  { c with
    variant := h.variant
    romBanks := h.romBanks
    ramBanks := h.ramBanks
    ramSize := h.ramSize
    hasRtc := h.hasRtc
    battery := h.battery }

/-- The parameters of a load beside the image (R7, R143): the machine parameters, `reset_regs`, `ram_init`,
`cart_ram_init`, and the clock the host restores.

`resetRegs` gives every register and hidden state element of R40 and R44, the controller registers among them; the load
sets the rest (`boot`). `mode3Len` is the element whose default R44 gives as a formula: `none` is that formula. -/
structure BootArgs where
  params : Params
  resetRegs : State
  mode3Len : Option Nat
  vram : Memory
  wram : Memory
  oam : Memory
  hram : Memory
  waveRam : Memory
  cartRam : Memory
  rtcLive : Rtc
  rtcLatched : Rtc
  deriving DecidableEq, Repr

/-- Every parameter at its default; the unspecified bytes read as unlisted. -/
def BootArgs.default : BootArgs where
  params := Params.default
  resetRegs := State.reset
  mode3Len := none
  vram := []
  wram := []
  oam := []
  hram := []
  waveRam := []
  cartRam := []
  rtcLive := Rtc.zero
  rtcLatched := Rtc.zero

/-- `mode3_len` at reset (R44): 172 plus the extra dots of the line the PPU starts on, unless `reset_regs` gives it. -/
def BootArgs.resetMode3Len (args : BootArgs) : Nat :=
  let p := args.resetRegs.bus.ppu
  args.mode3Len.getD (172 + { p with lineObjs := p.selectObjs args.params args.oam }.extraDots args.params args.oam)

/-- The bus after reset on a cartridge of header `h` (R601): registers as `reset_regs` (step 2), memories (steps 3
and 4), the restored clock (step 4), no audio, no frame, a framebuffer of 0 (step 5). -/
def bootBus (args : BootArgs) (img : RomImage) (h : CartHeader) : Bus :=
  let b := args.resetRegs.bus
  { b with
    rom := img.bytes
    cartRam := args.cartRam
    vram := args.vram
    wram := args.wram
    oam := args.oam
    hram := args.hram
    waveRam := args.waveRam
    cart := { b.cart.withHeader h with rtcLive := args.rtcLive, rtcLatched := args.rtcLatched }
    ppu.mode3Len := args.resetMode3Len
    ppu.frameReady := false
    ppu.framebuffer := Vector.replicate 144 (Vector.replicate 160 0#2)
    apu.audioOut := [] }

/-- Execution starts here (R600), whatever `reset_regs` says of the other registers. -/
def entryPoint : Word := 0x0100#16

/-- The reset procedure (R600, R601). The model's own `opAddr` and `cycles` start as in `State.reset`. -/
def boot (args : BootArgs) (img : RomImage) : Except LoadError State :=
  match loadCart img with
  | .error e => .error e
  | .ok h => .ok { args.resetRegs with
      regs.pc := entryPoint
      opAddr := entryPoint
      cycles := 0
      bus := bootBus args img h
      params := args.params }

end Sys2Proof.Machine
end

