-- ==== Sys2Proof/Machine/HostMoves.lean ====
section
/-! DEFINITION. The moves of the host between ticks (R465, R471, R620 to R624, R141) and what it reads of a lock (R402).
A snapshot is the State itself (R623). -/

namespace Sys2Proof.Machine

/-- The host's moves. `serial reply done`: the byte that replaces SB, if any, and whether SC[7] is cleared (R471). -/
inductive HostMove where
  | setButtons (buttons : Byte)
  | serial (reply : Option Byte) (done : Bool)
  | rtcSeconds (n : Nat)
  | takeFrame
  | takeAudio (n : Nat)
  deriving DecidableEq, Repr

namespace State

/-- `SetButtons(b)` (R465). -/
def setButtons (s : State) (v : Byte) : State := s.withBus (s.bus.joyEvaluate { s.bus.joy with buttons := v })

/-- `serial_event` (R471). -/
def serialEvent (s : State) (reply : Option Byte) (done : Bool) : State :=
  let ser := { s.bus.serial with sb := reply.getD s.bus.serial.sb, sc7 := s.bus.serial.sc7 && !done }
  { s with bus := { s.bus with serial := ser }.request irqSerial }

/-- The host supplies elapsed seconds (R141), on a cartridge with a running clock whose time source is the host. -/
def rtcSeconds (s : State) (n : Nat) : State :=
  if s.params.rtcSource = .host ∧ s.bus.cart.hasRtc ∧ s.bus.cart.rtcLive.halt = false then
    { s with bus.cart.rtcLive := s.bus.cart.rtcLive.tickSeconds n }
  else s

/-- The frame that `TakeFrame` hands over, if one is ready (R622). -/
def frame (s : State) : Option (Vector Row 144) := if s.bus.ppu.frameReady then some s.bus.ppu.framebuffer else none

/-- `TakeFrame` (R622), apart from the frame. -/
def takeFrame (s : State) : State := { s with bus.ppu.frameReady := false }

/-- The pairs that `TakeAudio` hands over (R624). -/
def audio (s : State) (n : Nat) : List (Nat × Nat) := s.bus.apu.audioOut.take n

/-- `TakeAudio` (R624): a prefix of `audio_out` is removed. -/
def takeAudio (s : State) (n : Nat) : State := { s with bus.apu.audioOut := s.bus.apu.audioOut.drop n }

/-- A move of the host. -/
def hostMove (s : State) : HostMove → State
  | .setButtons v => s.setButtons v
  | .serial reply done => s.serialEvent reply done
  | .rtcSeconds n => s.rtcSeconds n
  | .takeFrame => s.takeFrame
  | .takeAudio n => s.takeAudio n

/-- The cause of a lock: the opcode under PC (R402). -/
def lockCause (s : State) : Option Byte := if s.mode = .locked then some (s.memRead s.regs.pc) else none

/-- The tick that starts at `s` reports a lock (R31, R403). -/
def reportsLock (s : State) : Bool := s.mode = .locked && !s.lockReported

end State

end Sys2Proof.Machine
end

