-- ==== Sys2Proof/Safety.lean ====
section
/-! DEFINITION. The terms that claims use: what an instruction leaves alone, what a place of the bus is, what each shape
of instruction does, and the invariants of the machine. -/

namespace Sys2Proof

/-! ## Encodings -/

/-- The 3-bit code of a register in an opcode byte (R153). -/
def Reg8.bits (r : Reg8) : BitVec 3 := BitVec.ofNat 3 r.code

/-- The 2-bit code rr of a pair (R154). -/
def Reg16.bits (p : Reg16) : BitVec 2 := BitVec.ofNat 2 p.code

/-- The 2-bit code qq of a pair (R155). -/
def RegStk.bits (q : RegStk) : BitVec 2 := BitVec.ofNat 2 q.code

/-- The 2-bit code cc of a condition (R156). -/
def Cond.bits (c : Cond) : BitVec 2 := BitVec.ofNat 2 c.code

/-- The bytes `bs`, all of them, are the instruction `i`. -/
def Instr.EncodedAs (i : Instr) (bs : List Byte) : Prop := decode bs = .ok (i, [])

namespace Machine

/-! ## Frames -/

/-- The CPU state that no ordinary instruction changes: IME and its pending enable, the run mode, the hidden bits, the
address of the opcode and the parameters (R27 to R31, R42). -/
structure State.SameControl (s t : State) : Prop where
  ime : t.ime = s.ime
  imePending : t.imePending = s.imePending
  mode : t.mode = s.mode
  haltPcHold : t.haltPcHold = s.haltPcHold
  lockReported : t.lockReported = s.lockReported
  opAddr : t.opAddr = s.opAddr
  params : t.params = s.params

/-- Nothing beyond the CPU changed: every memory, register and device is the same, and every address reads as before. -/
structure State.SameBus (s t : State) : Prop where
  bus : t.bus = s.bus
  reads : ∀ a, t.memRead a = s.memRead a

/-- SP and PC are unchanged. -/
def Regs.SamePointers (r r' : Regs) : Prop := r'.sp = r.sp ∧ r'.pc = r.pc

/-- Every 8-bit register outside `ds`, and F, is unchanged. -/
def Regs.SameBut (ds : List Reg8) (r r' : Regs) : Prop := (∀ x, x ∉ ds → r'.get8 x = r.get8 x) ∧ r'.f = r.f

/-- As `SameBut`, where the instruction also writes F. -/
def Regs.SameButFlags (ds : List Reg8) (r r' : Regs) : Prop := ∀ x, x ∉ ds → r'.get8 x = r.get8 x

/-- The four flags of F, and its low nibble 0 (R22). -/
def Regs.FlagsAre (r : Regs) (z n h c : Bool) : Prop :=
  r.flagZ = z ∧ r.flagN = n ∧ r.flagH = h ∧ r.flagC = c ∧ r.f.extractLsb' 0 4 = 0#4

/-! ## Places of the bus -/

/-- A byte store: a write here stores one byte and does nothing else (R66, R68, R70, R89, R410, R564). -/
def Place.isMemory : Place → Bool
  | .vram _ => true
  | .cartRam _ => true
  | .cartNibble _ => true
  | .wram _ => true
  | .oam _ => true
  | .wave _ => true
  | .hram _ => true
  | .ie => true
  | .rom _ => false
  | .rtc _ => false
  | .io _ => false
  | .absent => false

/-- What a read of the place gives once `v` has been stored there. -/
def Place.view (v : Byte) : Place → Byte
  | .cartNibble _ => 0b1111#4 ++ v.extractLsb' 0 4
  | _ => v

/-- A write here changes what no address reads: nothing is there, or a read-only register, or a live clock register,
whose reads come from the latched copy (R71, R82, R137, R484). -/
def Place.isInert : Place → Bool
  | .absent => true
  | .rtc _ => true
  | .io .ly => true
  | _ => false

/-- A write at place `p` may change what the other address `a` reads (R89): a controller register moves the two
cartridge windows; a register may change other registers; DMA writes OAM (R90); LCDC may open or close VRAM and OAM
(R84). -/
def Place.mayAffect (prm : Params) (c : Cart) (p : Place) (a : Word) : Bool :=
  match p with
  | .rom _ => a.toNat ≤ 0x7FFF || (0xA000 ≤ a.toNat && a.toNat ≤ 0xBFFF)
  | .io r =>
    match c.place a with
    | .io _ => true
    | .oam _ => r = .dma || (r = .lcdc && prm.ppuAccessBlocking)
    | .vram _ => r = .lcdc && prm.ppuAccessBlocking
    | _ => false
  | _ => false

/-- `c` is the bus `b` after a store of `v` at address `a` and nothing else, as what every address reads. -/
structure Bus.StoredAt (prm : Params) (b c : Bus) (a : Word) (v : Byte) : Prop where
  /-- It is the bus write of R62. -/
  bus : c = b.write prm a v
  /-- Memory that the PPU does not close reads what was stored. -/
  self : (b.cart.place a).isMemory = true → b.blocked prm (b.cart.place a) = false →
    c.read prm a = (b.cart.place a).view v
  /-- Every address that is another place, and that a write there does not affect, reads as before. -/
  others : ∀ a', b.cart.place a' ≠ b.cart.place a → (b.cart.place a).mayAffect prm b.cart a' = false →
    c.read prm a' = b.read prm a'
  /-- A write the PPU shuts out, or a write at an inert place, leaves what every address reads. -/
  inert : (b.blocked prm (b.cart.place a) = true ∨ (b.cart.place a).isInert = true) →
    ∀ a', c.read prm a' = b.read prm a'

/-- A program store: the byte changes are those of bus writes, in order (R60: "through nothing else"). -/
inductive Bus.Written (prm : Params) : Bus → Bus → Prop where
  | refl (b : Bus) : Bus.Written prm b b
  | step {b c : Bus} (a : Word) (v : Byte) (h : Bus.Written prm b c) : Bus.Written prm b (c.write prm a v)

/-! ## Invariants -/

/-- Every offset of the array is below `n`. -/
def Memory.below (n : Nat) (m : Memory) : Bool := m.all fun c => c.1 < n

/-- The memories keep their canonical form, and those of fixed size their size (R39). -/
def Bus.memInv (b : Bus) : Bool :=
  b.rom.wf && b.cartRam.wf && b.vram.wf && b.wram.wf && b.oam.wf && b.hram.wf && b.waveRam.wf
    && b.vram.below 8192 && b.wram.below 8192 && b.oam.below 160 && b.hram.below 127 && b.waveRam.below 16

/-- The PPU's counters are in range, the window's rows are counted at most once a line, the selection is no longer than
its limit, an LCD that is off shows line 0, and the STAT line is at the level of its conditions (R36, R488, R489, R493,
R496). -/
def Ppu.inv (prm : Params) (p : Ppu) : Bool :=
  p.ly < 154 && p.dot < 456 && 172 ≤ p.mode3Len && p.mode3Len ≤ 289
    && (p.winLine ≤ p.ly || (80 + p.mode3Len ≤ p.dot && p.winLine = p.ly + 1))
    && p.lineObjs.length ≤ prm.objPerLine
    && (p.lcdOn || (p.ly = 0 && p.dot = 0 && p.winLine = 0 && !p.winTriggered))
    && p.statLine = p.statLevel

/-- A channel that is on has its DAC on and a running timer; counters are in range; an APU that is off has no channel
on (R37, R543, R544, R547, R582). -/
def Apu.inv (a : Apu) : Bool :=
  (!a.ch1.on || (a.ch1.env.dac && 0 < a.ch1.timer && a.on))
    && (!a.ch2.on || (a.ch2.env.dac && 0 < a.ch2.timer && a.on))
    && (!a.ch3.on || (a.ch3.dac && 0 < a.ch3.timer && a.on))
    && (!a.ch4.on || (a.ch4.env.dac && 0 < a.ch4.timer && a.on))
    && a.ch1.len.count ≤ 64 && a.ch2.len.count ≤ 64 && a.ch3.len.count ≤ 256 && a.ch4.len.count ≤ 64
    && 0 < a.fsCounter && a.fsCounter ≤ 8192

/-- No bank register holds 0, and less than one second is accumulated (R125, R130, R134, R140). -/
def Cart.inv (c : Cart) : Bool :=
  c.bank1 ≠ 0#5 && c.mbc2RomBank ≠ 0#4 && c.mbc3RomBank ≠ 0#7 && c.rtcSubsec < Cart.secondTCycles

/-- The joypad's remembered lines are its lines (R464). -/
def Joypad.inv (j : Joypad) : Bool := j.lastLines = j.lines

/-- The low nibble of F is 0 (R22), no hold without the parameter (R42), and an OAM copy costs 160 or nothing (R30). -/
def State.cpuInv (s : State) : Bool :=
  s.regs.f.extractLsb' 0 4 = 0#4 && (s.params.haltBug || !s.haltPcHold) && (s.bus.dmaCost = 0 || s.bus.dmaCost = 160)

/-- The invariant of the machine. -/
def State.inv (s : State) : Bool :=
  s.cpuInv && s.bus.memInv && s.bus.ppu.inv s.params && s.bus.apu.inv && s.bus.cart.inv && s.bus.joy.inv

/-! ## Shapes of instructions -/

/-- Only registers and the cycle count changed; the instruction took `n` M-cycles. -/
structure State.OnlyRegs (s t : State) (n : Nat) : Prop where
  control : s.SameControl t
  outside : s.SameBus t
  cycles : t.cycles = n

/-- Beside registers and the cycle count, one byte store happened. -/
structure State.OneStore (s t : State) (a : Word) (v : Byte) (n : Nat) : Prop where
  control : s.SameControl t
  stored : Bus.StoredAt s.params s.bus t.bus a v
  cycles : t.cycles = n

/-- Beside registers and the cycle count, two byte stores happened, in this order. -/
structure State.TwoStores (s t : State) (a₁ : Word) (v₁ : Byte) (a₂ : Word) (v₂ : Byte) (n : Nat) : Prop where
  control : s.SameControl t
  stored : ∃ b, Bus.StoredAt s.params s.bus b a₁ v₁ ∧ Bus.StoredAt s.params b t.bus a₂ v₂
  cycles : t.cycles = n

/-- `i` is encoded as `bs` and loads `v` into register `d`, changing nothing else. -/
def State.Loads (s : State) (i : Instr) (bs : List Byte) (d : Reg8) (v : Byte) (n : Nat) : Prop :=
  i.EncodedAs bs ∧ ∃ t, exec i s = .next t ∧ t.reg8 d = v ∧ s.regs.SameBut [d] t.regs ∧ s.regs.SamePointers t.regs
    ∧ s.OnlyRegs t n

/-- `i` is encoded as `bs` and stores `v` at address `a`, changing no register. -/
def State.Stores (s : State) (i : Instr) (bs : List Byte) (a : Word) (v : Byte) (n : Nat) : Prop :=
  i.EncodedAs bs ∧ ∃ t, exec i s = .next t ∧ t.regs = s.regs ∧ s.OneStore t a v n

/-- `i` is encoded as `bs` and makes `v` of register `d`, with the four flags, changing nothing else. -/
def State.Computes (s : State) (i : Instr) (bs : List Byte) (d : Reg8) (v : Byte) (z n h c : Bool) (k : Nat) : Prop :=
  i.EncodedAs bs ∧ ∃ t, exec i s = .next t ∧ t.reg8 d = v ∧ t.regs.FlagsAre z n h c ∧ s.regs.SameButFlags [d] t.regs
    ∧ s.regs.SamePointers t.regs ∧ s.OnlyRegs t k

/-- `i` is encoded as `bs` and sets the four flags, changing nothing else. -/
def State.Tests (s : State) (i : Instr) (bs : List Byte) (z n h c : Bool) (k : Nat) : Prop :=
  i.EncodedAs bs ∧ ∃ t, exec i s = .next t ∧ t.regs.FlagsAre z n h c ∧ s.regs.SameButFlags [] t.regs
    ∧ s.regs.SamePointers t.regs ∧ s.OnlyRegs t k

/-- `i` is encoded as `bs` and stores `v` at address HL, with the four flags, changing no other register. -/
def State.Updates (s : State) (i : Instr) (bs : List Byte) (v : Byte) (z n h c : Bool) (k : Nat) : Prop :=
  i.EncodedAs bs ∧ ∃ t, exec i s = .next t ∧ t.regs.FlagsAre z n h c ∧ s.regs.SameButFlags [] t.regs
    ∧ s.regs.SamePointers t.regs ∧ s.OneStore t s.regs.hl v k

/-- `i` is encoded as `bs` and sets PC to `a`, changing nothing else. -/
def State.Jumps (s : State) (i : Instr) (bs : List Byte) (a : Word) (k : Nat) : Prop :=
  i.EncodedAs bs ∧ ∃ t, exec i s = .next t ∧ t.regs = { s.regs with pc := a } ∧ s.OnlyRegs t k

/-- `i` is encoded as `bs`, pushes PC high byte first and sets PC to `a`, changing nothing else. -/
def State.Calls (s : State) (i : Instr) (bs : List Byte) (a : Word) (k : Nat) : Prop :=
  i.EncodedAs bs ∧ ∃ t, exec i s = .next t ∧ t.regs = { s.regs with sp := s.regs.sp - 2#16, pc := a }
    ∧ s.TwoStores t (s.regs.sp - 1#16) (Word.hi s.regs.pc) (s.regs.sp - 2#16) (Word.lo s.regs.pc) k

/-- The sum of A, `v` and the carry-in `c` with its flags (R250), as `i` leaves them in A. -/
def State.Adds (s : State) (i : Instr) (bs : List Byte) (v : Byte) (c : Bool) (k : Nat) : Prop :=
  let r := s.regs.a + v + (BitVec.ofBool c).zeroExtend 8
  s.Computes i bs .a r (r = 0#8) false (0xF < s.regs.a.toNat % 16 + v.toNat % 16 + c.toNat)
    (0xFF < s.regs.a.toNat + v.toNat + c.toNat) k

/-- A less `v` and the borrow-in `c` with its flags (R250), as `i` leaves them in A. -/
def State.Subtracts (s : State) (i : Instr) (bs : List Byte) (v : Byte) (c : Bool) (k : Nat) : Prop :=
  let r := s.regs.a - v - (BitVec.ofBool c).zeroExtend 8
  s.Computes i bs .a r (r = 0#8) true (s.regs.a.toNat % 16 < v.toNat % 16 + c.toNat)
    (s.regs.a.toNat < v.toNat + c.toNat) k

/-- The flags of A less `v` (R250), as `i` leaves them without writing A. -/
def State.Compares (s : State) (i : Instr) (bs : List Byte) (v : Byte) (k : Nat) : Prop :=
  s.Tests i bs (s.regs.a = v) true (s.regs.a.toNat % 16 < v.toNat % 16) (s.regs.a.toNat < v.toNat) k

/-- The seven registers but for HL, and the pointers, are unchanged. -/
def Regs.SameButHL (r r' : Regs) : Prop := r.SameBut [.h, .l] r' ∧ r.SamePointers r'

/-- Every pair but `p`, A, F and PC are unchanged (R154). -/
def Regs.SameButPair (p : Reg16) (r r' : Regs) : Prop :=
  (∀ q, q ≠ p → r'.get16 q = r.get16 q) ∧ r'.a = r.a ∧ r'.f = r.f ∧ r'.pc = r.pc

/-! ## Runs -/

/-- `n` steps lead from `s` to `t`. -/
inductive State.Steps : Nat → State → State → Prop where
  | zero (s : State) : State.Steps 0 s s
  | succ {n : Nat} {s t u : State} (first : step s = .next t) (rest : State.Steps n t u) : State.Steps (n + 1) s u

/-! ## Modes -/

/-- The eleven undefined opcodes (R162). -/
def undefinedOpcodes : List Byte :=
  [0xD3#8, 0xDB#8, 0xDD#8, 0xE3#8, 0xE4#8, 0xEB#8, 0xEC#8, 0xED#8, 0xF4#8, 0xFC#8, 0xFD#8]

/-- The next step executes an instruction: mode Running, and no interrupt to dispatch (R412, R420). -/
def State.executes (s : State) : Prop := s.mode = .running ∧ (s.ime = false ∨ s.pending = 0#5)

/-- The next step dispatches an interrupt from mode Running (R412, R420). -/
def State.dispatches (s : State) : Prop := s.mode = .running ∧ s.ime = true ∧ s.pending ≠ 0#5

end Machine

end Sys2Proof
end

