-- ==== Sys2Proof/Certificates/Slice0/Obligations.lean ====
section
/-! DEFINITION. The statements for the provers, from the numbered rules of the spec. Every statement about an instruction
says its encoding, its result, its flags, its M-cycles, that it answers a next state, and what it leaves alone. -/

open Sys2Proof Sys2Proof.Machine

/-! ## 8-bit loads -/

/-- The loads of a register (R200, R201, R202, R205, R206, R209, R211, R213): the destination holds the source, no flag
and nothing else changes. -/
def Obligations.LoadRegister : Prop :=
  ∀ (s : State) (d x : Reg8) (n : Byte) (nn : Word),
    s.Loads (.ldRR d x) [0b01#2 ++ d.bits ++ x.bits] d (s.reg8 x) 1
    ∧ s.Loads (.ldRN d n) [0b00#2 ++ d.bits ++ 0b110#3, n] d n 2
    ∧ s.Loads (.ldRHL d) [0b01#2 ++ d.bits ++ 0b110#3] d (s.memRead s.regs.hl) 2
    ∧ s.Loads .ldABC [0x0A#8] .a (s.memRead s.regs.bc) 2
    ∧ s.Loads .ldADE [0x1A#8] .a (s.memRead s.regs.de) 2
    ∧ s.Loads (.ldANn nn) [0xFA#8, Word.lo nn, Word.hi nn] .a (s.memRead nn) 4
    ∧ s.Loads .ldhAC [0xF2#8] .a (s.memRead (0xFF00#16 + s.regs.c.zeroExtend 16)) 2
    ∧ s.Loads (.ldhAN n) [0xF0#8, n] .a (s.memRead (0xFF00#16 + n.zeroExtend 16)) 3

/-- The stores of a register or an immediate (R203, R204, R207, R208, R210, R212, R214): one byte store at the address
the form names, no register and no flag. -/
def Obligations.StoreByte : Prop :=
  ∀ (s : State) (x : Reg8) (n : Byte) (nn : Word), s.mode = .running → s.bus.memInv = true →
    s.Stores (.ldHLR x) [0b01110#5 ++ x.bits] s.regs.hl (s.reg8 x) 2
    ∧ s.Stores (.ldHLN n) [0x36#8, n] s.regs.hl n 3
    ∧ s.Stores .ldBCA [0x02#8] s.regs.bc s.regs.a 2
    ∧ s.Stores .ldDEA [0x12#8] s.regs.de s.regs.a 2
    ∧ s.Stores (.ldNnA nn) [0xEA#8, Word.lo nn, Word.hi nn] nn s.regs.a 4
    ∧ s.Stores .ldhCA [0xE2#8] (0xFF00#16 + s.regs.c.zeroExtend 16) s.regs.a 2
    ∧ s.Stores (.ldhNA n) [0xE0#8, n] (0xFF00#16 + n.zeroExtend 16) s.regs.a 3

/-- The loads and stores that step HL (R215 to R218): the access is at the old HL, then HL goes down or up by 1. -/
def Obligations.StepHL : Prop :=
  ∀ s : State, s.mode = .running → s.bus.memInv = true →
    (∀ p ∈ [(Instr.ldAHLD, 0x3A#8, s.regs.hl - 1#16), (Instr.ldAHLI, 0x2A#8, s.regs.hl + 1#16)],
      p.1.EncodedAs [p.2.1] ∧ ∃ t, exec p.1 s = .next t ∧ t.regs.a = s.memRead s.regs.hl ∧ t.regs.hl = p.2.2
        ∧ s.regs.SameBut [.a, .h, .l] t.regs ∧ s.regs.SamePointers t.regs ∧ s.OnlyRegs t 2)
    ∧ ∀ p ∈ [(Instr.ldHLDA, 0x32#8, s.regs.hl - 1#16), (Instr.ldHLIA, 0x22#8, s.regs.hl + 1#16)],
      p.1.EncodedAs [p.2.1] ∧ ∃ t, exec p.1 s = .next t ∧ t.regs.hl = p.2.2 ∧ s.regs.SameButHL t.regs
        ∧ s.OneStore t s.regs.hl s.regs.a 2

/-! ## 16-bit loads and the stack -/

/-- `LD rr,nn` and `LD SP,HL` (R230, R232). -/
def Obligations.LoadPair : Prop :=
  ∀ (s : State) (p : Reg16) (nn : Word),
    (Instr.EncodedAs (.ldRpNn p nn) [0b00#2 ++ p.bits ++ 0b0001#4, Word.lo nn, Word.hi nn]
      ∧ ∃ t, exec (.ldRpNn p nn) s = .next t ∧ t.reg16 p = nn ∧ s.regs.SameButPair p t.regs ∧ s.OnlyRegs t 3)
    ∧ Instr.EncodedAs .ldSPHL [0xF9#8]
      ∧ ∃ t, exec .ldSPHL s = .next t ∧ t.regs.sp = s.regs.hl ∧ s.regs.SameButPair .sp t.regs ∧ s.OnlyRegs t 2

/-- `LD HL,SP+e` and `ADD SP,e` (R233, R293): the signed byte is added to SP modulo 65536; Z and N are 0, HF and CF are
the carries out of bits 3 and 7 of the unsigned addition of the low bytes. -/
def Obligations.StackPointerPlus : Prop :=
  ∀ (s : State) (e : Byte),
    (Instr.EncodedAs (.ldHLSPE e) [0xF8#8, e]
      ∧ ∃ t, exec (.ldHLSPE e) s = .next t ∧ (t.regs.hl.toNat : Int) = (s.regs.sp.toNat + e.toInt) % 65536
        ∧ t.regs.FlagsAre false false (0xF < s.regs.sp.toNat % 16 + e.toNat % 16) (0xFF < s.regs.sp.toNat % 256 + e.toNat)
        ∧ s.regs.SameButFlags [.h, .l] t.regs ∧ s.regs.SamePointers t.regs ∧ s.OnlyRegs t 3)
    ∧ Instr.EncodedAs (.addSPE e) [0xE8#8, e]
      ∧ ∃ t, exec (.addSPE e) s = .next t ∧ (t.regs.sp.toNat : Int) = (s.regs.sp.toNat + e.toInt) % 65536
        ∧ t.regs.FlagsAre false false (0xF < s.regs.sp.toNat % 16 + e.toNat % 16) (0xFF < s.regs.sp.toNat % 256 + e.toNat)
        ∧ s.regs.SameButFlags [] t.regs ∧ t.regs.pc = s.regs.pc ∧ s.OnlyRegs t 4

/-- `LD (nn),SP` (R231): the low byte at nn, then the high byte at nn + 1. -/
def Obligations.StoreStackPointer : Prop :=
  ∀ (s : State) (nn : Word), s.mode = .running → s.bus.memInv = true →
    Instr.EncodedAs (.ldNnSP nn) [0x08#8, Word.lo nn, Word.hi nn]
    ∧ ∃ t, exec (.ldNnSP nn) s = .next t ∧ t.regs = s.regs
      ∧ s.TwoStores t nn (s.regs.sp.extractLsb' 0 8) (nn + 1#16) (s.regs.sp.extractLsb' 8 8) 5

/-- `PUSH qq` (R234): the high byte at SP - 1, then the low byte at SP - 2, and SP goes down by 2. -/
def Obligations.Push : Prop :=
  ∀ (s : State) (q : RegStk), s.mode = .running → s.bus.memInv = true →
    Instr.EncodedAs (.pushQ q) [0b11#2 ++ q.bits ++ 0b0101#4]
    ∧ ∃ t, exec (.pushQ q) s = .next t ∧ t.regs = { s.regs with sp := s.regs.sp - 2#16 }
      ∧ s.TwoStores t (s.regs.sp - 1#16) ((s.regStk q).extractLsb' 8 8) (s.regs.sp - 2#16)
        ((s.regStk q).extractLsb' 0 8) 4

/-- `POP qq` (R235): the pair takes the byte at SP as its low half and the byte at SP + 1 as its high half, AF without
bits 3:0 of F; SP goes up by 2. -/
def Obligations.PopFromStack : Prop :=
  ∀ (s : State) (q : RegStk),
    Instr.EncodedAs (.popQ q) [0b11#2 ++ q.bits ++ 0b0001#4]
    ∧ ∃ t, exec (.popQ q) s = .next t
      ∧ (q ≠ .af → t.regStk q = s.memRead (s.regs.sp + 1#16) ++ s.memRead s.regs.sp)
      ∧ (q = .af → t.regs.a = s.memRead (s.regs.sp + 1#16) ∧ t.regs.f = s.memRead s.regs.sp &&& 0xF0#8)
      ∧ (∀ q', q' ≠ q → t.regStk q' = s.regStk q') ∧ t.regs.sp = s.regs.sp + 2#16 ∧ t.regs.pc = s.regs.pc
      ∧ s.OnlyRegs t 3

/-! ## 8-bit arithmetic and logic -/

/-- `ADD` and `ADC` (R251 to R256). -/
def Obligations.AddWithCarry : Prop :=
  ∀ (s : State) (x : Reg8) (n : Byte),
    s.Adds (.addR x) [0b10000#5 ++ x.bits] (s.reg8 x) false 1
    ∧ s.Adds .addHL [0x86#8] (s.memRead s.regs.hl) false 2
    ∧ s.Adds (.addN n) [0xC6#8, n] n false 2
    ∧ s.Adds (.adcR x) [0b10001#5 ++ x.bits] (s.reg8 x) s.regs.flagC 1
    ∧ s.Adds .adcHL [0x8E#8] (s.memRead s.regs.hl) s.regs.flagC 2
    ∧ s.Adds (.adcN n) [0xCE#8, n] n s.regs.flagC 2

/-- `SUB`, `SBC` and `CP` (R257 to R262, R272 to R274). -/
def Obligations.Subtract : Prop :=
  ∀ (s : State) (x : Reg8) (n : Byte),
    s.Subtracts (.subR x) [0b10010#5 ++ x.bits] (s.reg8 x) false 1
    ∧ s.Subtracts .subHL [0x96#8] (s.memRead s.regs.hl) false 2
    ∧ s.Subtracts (.subN n) [0xD6#8, n] n false 2
    ∧ s.Subtracts (.sbcR x) [0b10011#5 ++ x.bits] (s.reg8 x) s.regs.flagC 1
    ∧ s.Subtracts .sbcHL [0x9E#8] (s.memRead s.regs.hl) s.regs.flagC 2
    ∧ s.Subtracts (.sbcN n) [0xDE#8, n] n s.regs.flagC 2
    ∧ s.Compares (.cpR x) [0b10111#5 ++ x.bits] (s.reg8 x) 1
    ∧ s.Compares .cpHL [0xBE#8] (s.memRead s.regs.hl) 2
    ∧ s.Compares (.cpN n) [0xFE#8, n] n 2

/-- `AND`, `XOR` and `OR` (R263 to R271). -/
def Obligations.Logic : Prop :=
  ∀ (s : State) (x : Reg8) (n : Byte),
    let a := s.regs.a
    let m := s.memRead s.regs.hl
    let v := s.reg8 x
    s.Computes (.andR x) [0b10100#5 ++ x.bits] .a (a &&& v) (a &&& v = 0#8) false true false 1
    ∧ s.Computes .andHL [0xA6#8] .a (a &&& m) (a &&& m = 0#8) false true false 2
    ∧ s.Computes (.andN n) [0xE6#8, n] .a (a &&& n) (a &&& n = 0#8) false true false 2
    ∧ s.Computes (.xorR x) [0b10101#5 ++ x.bits] .a (a ^^^ v) (a = v) false false false 1
    ∧ s.Computes .xorHL [0xAE#8] .a (a ^^^ m) (a = m) false false false 2
    ∧ s.Computes (.xorN n) [0xEE#8, n] .a (a ^^^ n) (a = n) false false false 2
    ∧ s.Computes (.orR x) [0b10110#5 ++ x.bits] .a (a ||| v) (a ||| v = 0#8) false false false 1
    ∧ s.Computes .orHL [0xB6#8] .a (a ||| m) (a ||| m = 0#8) false false false 2
    ∧ s.Computes (.orN n) [0xF6#8, n] .a (a ||| n) (a ||| n = 0#8) false false false 2

/-- `INC r` and `DEC r` (R275, R277): CF is kept. -/
def Obligations.StepRegister : Prop :=
  ∀ (s : State) (d : Reg8),
    let v := s.reg8 d
    s.Computes (.incR d) [0b00#2 ++ d.bits ++ 0b100#3] d (v + 1#8) (v = 0xFF#8) false (v.toNat % 16 = 15) s.regs.flagC 1
    ∧ s.Computes (.decR d) [0b00#2 ++ d.bits ++ 0b101#3] d (v - 1#8) (v = 0x01#8) true (v.toNat % 16 = 0)
      s.regs.flagC 1

/-- `DAA` (R279), for every A and all eight flag settings, as the rule's block says. -/
def Obligations.DecimalAdjust : Prop :=
  ∀ s : State,
    let a := s.regs.a.toNat
    let low := if s.regs.flagH = true ∨ (s.regs.flagN = false ∧ 9 < a % 16) then 0x06 else 0
    let high := if s.regs.flagC = true ∨ (s.regs.flagN = false ∧ 0x99 < a) then 0x60 else 0
    let r := if s.regs.flagN = true then (a + 256 - (low + high)) % 256 else (a + (low + high)) % 256
    s.Computes .daa [0x27#8] .a (BitVec.ofNat 8 r) (r = 0) s.regs.flagN false
      (s.regs.flagC = true ∨ (s.regs.flagN = false ∧ 0x99 < a)) 1

/-- `CPL`, `SCF` and `CCF` (R280 to R282): Z is kept. -/
def Obligations.FlagInstructions : Prop :=
  ∀ s : State,
    s.Computes .cpl [0x2F#8] .a (0xFF#8 - s.regs.a) s.regs.flagZ true true s.regs.flagC 1
    ∧ s.Tests .scf [0x37#8] s.regs.flagZ false false true 1
    ∧ s.Tests .ccf [0x3F#8] s.regs.flagZ false false (!s.regs.flagC) 1

/-! ## 16-bit arithmetic -/

/-- `ADD HL,rr`, `INC rr` and `DEC rr` (R290 to R292): the sum keeps Z and takes HF and CF from bits 11 and 15; the steps
change no flag. -/
def Obligations.PairArithmetic : Prop :=
  ∀ (s : State) (p : Reg16),
    (Instr.EncodedAs (.addHLRp p) [0b00#2 ++ p.bits ++ 0b1001#4]
      ∧ ∃ t, exec (.addHLRp p) s = .next t ∧ t.regs.hl = s.regs.hl + s.reg16 p
        ∧ t.regs.FlagsAre s.regs.flagZ false (0xFFF < s.regs.hl.toNat % 0x1000 + (s.reg16 p).toNat % 0x1000)
          (0xFFFF < s.regs.hl.toNat + (s.reg16 p).toNat)
        ∧ s.regs.SameButFlags [.h, .l] t.regs ∧ s.regs.SamePointers t.regs ∧ s.OnlyRegs t 2)
    ∧ (Instr.EncodedAs (.incRp p) [0b00#2 ++ p.bits ++ 0b0011#4]
      ∧ ∃ t, exec (.incRp p) s = .next t ∧ t.reg16 p = s.reg16 p + 1#16 ∧ s.regs.SameButPair p t.regs ∧ s.OnlyRegs t 2)
    ∧ Instr.EncodedAs (.decRp p) [0b00#2 ++ p.bits ++ 0b1011#4]
      ∧ ∃ t, exec (.decRp p) s = .next t ∧ t.reg16 p = s.reg16 p - 1#16 ∧ s.regs.SameButPair p t.regs ∧ s.OnlyRegs t 2

/-! ## Rotates, shifts and bits -/

/-- `RLCA`, `RRCA`, `RLA` and `RRA` (R300 to R303): Z is 0 whatever the result. -/
def Obligations.RotateA : Prop :=
  ∀ s : State,
    let a := s.regs.a
    let c := (BitVec.ofBool s.regs.flagC).zeroExtend 8
    s.Computes .rlca [0x07#8] .a (a.rotateLeft 1) false false false (a.getLsbD 7) 1
    ∧ s.Computes .rrca [0x0F#8] .a (a.rotateRight 1) false false false (a.getLsbD 0) 1
    ∧ s.Computes .rla [0x17#8] .a ((a <<< 1) ||| c) false false false (a.getLsbD 7) 1
    ∧ s.Computes .rra [0x1F#8] .a ((a >>> 1) ||| (c <<< 7)) false false false (a.getLsbD 0) 1

/-- The prefixed rotates and shifts of a register (R304, R306, R308, R310, R312, R314, R316, R318). -/
def Obligations.RotateRegister : Prop :=
  ∀ (s : State) (x : Reg8),
    let v := s.reg8 x
    let c := (BitVec.ofBool s.regs.flagC).zeroExtend 8
    s.Computes (.rlcR x) [0xCB#8, 0b00000#5 ++ x.bits] x (v.rotateLeft 1) (v.rotateLeft 1 = 0#8) false false
      (v.getLsbD 7) 2
    ∧ s.Computes (.rrcR x) [0xCB#8, 0b00001#5 ++ x.bits] x (v.rotateRight 1) (v.rotateRight 1 = 0#8) false false
      (v.getLsbD 0) 2
    ∧ s.Computes (.rlR x) [0xCB#8, 0b00010#5 ++ x.bits] x ((v <<< 1) ||| c) ((v <<< 1) ||| c = 0#8) false false
      (v.getLsbD 7) 2
    ∧ s.Computes (.rrR x) [0xCB#8, 0b00011#5 ++ x.bits] x ((v >>> 1) ||| (c <<< 7)) ((v >>> 1) ||| (c <<< 7) = 0#8)
      false false (v.getLsbD 0) 2
    ∧ s.Computes (.slaR x) [0xCB#8, 0b00100#5 ++ x.bits] x (v <<< 1) (v <<< 1 = 0#8) false false (v.getLsbD 7) 2
    ∧ s.Computes (.sraR x) [0xCB#8, 0b00101#5 ++ x.bits] x (v.sshiftRight 1) (v.sshiftRight 1 = 0#8) false false
      (v.getLsbD 0) 2
    ∧ s.Computes (.swapR x) [0xCB#8, 0b00110#5 ++ x.bits] x (v.rotateLeft 4) (v.rotateLeft 4 = 0#8) false false false 2
    ∧ s.Computes (.srlR x) [0xCB#8, 0b00111#5 ++ x.bits] x (v >>> 1) (v >>> 1 = 0#8) false false (v.getLsbD 0) 2

/-- The prefixed rotates and shifts of the byte at HL (R305, R307, R309, R311, R313, R315, R317, R319): one read, then one
store at the same address. -/
def Obligations.RotateMemory : Prop :=
  ∀ s : State, s.mode = .running → s.bus.memInv = true →
    let v := s.memRead s.regs.hl
    let c := (BitVec.ofBool s.regs.flagC).zeroExtend 8
    s.Updates .rlcHL [0xCB#8, 0x06#8] (v.rotateLeft 1) (v.rotateLeft 1 = 0#8) false false (v.getLsbD 7) 4
    ∧ s.Updates .rrcHL [0xCB#8, 0x0E#8] (v.rotateRight 1) (v.rotateRight 1 = 0#8) false false (v.getLsbD 0) 4
    ∧ s.Updates .rlHL [0xCB#8, 0x16#8] ((v <<< 1) ||| c) ((v <<< 1) ||| c = 0#8) false false (v.getLsbD 7) 4
    ∧ s.Updates .rrHL [0xCB#8, 0x1E#8] ((v >>> 1) ||| (c <<< 7)) ((v >>> 1) ||| (c <<< 7) = 0#8) false false
      (v.getLsbD 0) 4
    ∧ s.Updates .slaHL [0xCB#8, 0x26#8] (v <<< 1) (v <<< 1 = 0#8) false false (v.getLsbD 7) 4
    ∧ s.Updates .sraHL [0xCB#8, 0x2E#8] (v.sshiftRight 1) (v.sshiftRight 1 = 0#8) false false (v.getLsbD 0) 4
    ∧ s.Updates .swapHL [0xCB#8, 0x36#8] (v.rotateLeft 4) (v.rotateLeft 4 = 0#8) false false false 4
    ∧ s.Updates .srlHL [0xCB#8, 0x3E#8] (v >>> 1) (v >>> 1 = 0#8) false false (v.getLsbD 0) 4

/-- `INC (HL)`, `DEC (HL)`, `RES b,(HL)` and `SET b,(HL)` (R276, R278, R323, R325): one read, then one store at the same
address; RES and SET change no flag, and bit by bit nothing but bit b. -/
def Obligations.UpdateMemory : Prop :=
  ∀ (s : State) (b : BitVec 3), s.mode = .running → s.bus.memInv = true →
    let v := s.memRead s.regs.hl
    s.Updates .incHL [0x34#8] (v + 1#8) (v = 0xFF#8) false (v.toNat % 16 = 15) s.regs.flagC 3
    ∧ s.Updates .decHL [0x35#8] (v - 1#8) (v = 0x01#8) true (v.toNat % 16 = 0) s.regs.flagC 3
    ∧ (∃ r : Byte, (∀ j < 8, r.getLsbD j = (decide (j ≠ b.toNat) && v.getLsbD j))
      ∧ s.Stores (.resHL b) [0xCB#8, 0b10#2 ++ b ++ 0b110#3] s.regs.hl r 4)
    ∧ ∃ r : Byte, (∀ j < 8, r.getLsbD j = (decide (j = b.toNat) || v.getLsbD j))
      ∧ s.Stores (.setHL b) [0xCB#8, 0b11#2 ++ b ++ 0b110#3] s.regs.hl r 4

/-- `BIT`, and `RES` and `SET` of a register (R320, R321, R322, R324). -/
def Obligations.BitInstructions : Prop :=
  ∀ (s : State) (b : BitVec 3) (x : Reg8),
    s.Tests (.bitR b x) [0xCB#8, 0b01#2 ++ b ++ x.bits] (!(s.reg8 x).getLsbD b.toNat) false true s.regs.flagC 2
    ∧ s.Tests (.bitHL b) [0xCB#8, 0b01#2 ++ b ++ 0b110#3] (!(s.memRead s.regs.hl).getLsbD b.toNat) false true
      s.regs.flagC 3
    ∧ (∃ r : Byte, (∀ j < 8, r.getLsbD j = (decide (j ≠ b.toNat) && (s.reg8 x).getLsbD j))
      ∧ s.Loads (.resR b x) [0xCB#8, 0b10#2 ++ b ++ x.bits] x r 2)
    ∧ ∃ r : Byte, (∀ j < 8, r.getLsbD j = (decide (j = b.toNat) || (s.reg8 x).getLsbD j))
      ∧ s.Loads (.setR b x) [0xCB#8, 0b11#2 ++ b ++ x.bits] x r 2

/-! ## Control transfer -/

/-- The jumps (R330 to R334): a taken jump sets PC, a jump not taken only costs its time, and the condition is the flag
its code names. -/
def Obligations.Jump : Prop :=
  ∀ (s : State) (c : Cond) (nn : Word) (e : Byte),
    let rel : Word := BitVec.ofInt 16 (s.regs.pc.toNat + e.toInt)
    let holds := match c with
      | .nz => s.regs.f.getLsbD 7 = false
      | .z => s.regs.f.getLsbD 7 = true
      | .nc => s.regs.f.getLsbD 4 = false
      | .c => s.regs.f.getLsbD 4 = true
    s.Jumps (.jpNn nn) [0xC3#8, Word.lo nn, Word.hi nn] nn 4
    ∧ (holds → s.Jumps (.jpCc c nn) [0b110#3 ++ c.bits ++ 0b010#3, Word.lo nn, Word.hi nn] nn 4)
    ∧ (¬ holds → s.Jumps (.jpCc c nn) [0b110#3 ++ c.bits ++ 0b010#3, Word.lo nn, Word.hi nn] s.regs.pc 3)
    ∧ s.Jumps .jpHL [0xE9#8] s.regs.hl 1
    ∧ s.Jumps (.jrE e) [0x18#8, e] rel 3
    ∧ (holds → s.Jumps (.jrCc c e) [0b001#3 ++ c.bits ++ 0b000#3, e] rel 3)
    ∧ (¬ holds → s.Jumps (.jrCc c e) [0b001#3 ++ c.bits ++ 0b000#3, e] s.regs.pc 2)

/-- The calls and restarts (R335, R336, R340): PC is pushed high byte first; a call not taken pushes nothing. -/
def Obligations.Call : Prop :=
  ∀ (s : State) (c : Cond) (nn : Word) (y : BitVec 3), s.mode = .running → s.bus.memInv = true →
    s.Calls (.callNn nn) [0xCD#8, Word.lo nn, Word.hi nn] nn 6
    ∧ (s.regs.cond c = true → s.Calls (.callCc c nn) [0b110#3 ++ c.bits ++ 0b100#3, Word.lo nn, Word.hi nn] nn 6)
    ∧ (s.regs.cond c = false →
      s.Jumps (.callCc c nn) [0b110#3 ++ c.bits ++ 0b100#3, Word.lo nn, Word.hi nn] s.regs.pc 3)
    ∧ s.Calls (.rst y) [0b11#2 ++ y ++ 0b111#3] (BitVec.ofNat 16 (8 * y.toNat)) 4

/-- The returns (R337 to R339): PC is popped, low byte at SP; RETI also sets IME at once and drops a pending enable. -/
def Obligations.Return : Prop :=
  ∀ (s : State) (c : Cond),
    let back := { s.regs with sp := s.regs.sp + 2#16, pc := s.memRead (s.regs.sp + 1#16) ++ s.memRead s.regs.sp }
    (Instr.EncodedAs .ret [0xC9#8] ∧ ∃ t, exec .ret s = .next t ∧ t.regs = back ∧ s.OnlyRegs t 4)
    ∧ Instr.EncodedAs (.retCc c) [0b110#3 ++ c.bits ++ 0b000#3]
    ∧ (s.regs.cond c = true → ∃ t, exec (.retCc c) s = .next t ∧ t.regs = back ∧ s.OnlyRegs t 5)
    ∧ (s.regs.cond c = false → ∃ t, exec (.retCc c) s = .next t ∧ t.regs = s.regs ∧ s.OnlyRegs t 2)
    ∧ Instr.EncodedAs .reti [0xD9#8]
    ∧ ∃ t, exec .reti s = .next t ∧ t.regs = back ∧ t.ime = true ∧ t.imePending = false
      ∧ State.OnlyRegs { s with ime := true, imePending := false } t 4

/-! ## System instructions -/

/-- `NOP`, `DI`, `EI`, `HALT` and `STOP` (R360 to R364), as the meaning of the instruction alone: the delay of EI is a
property of the step (`Obligations.EiDelay`). -/
def Obligations.SystemInstructions : Prop :=
  ∀ (s : State) (n : Byte),
    (Instr.EncodedAs .nop [0x00#8] ∧ ∃ t, exec .nop s = .next t ∧ t.regs = s.regs ∧ s.OnlyRegs t 1)
    ∧ (Instr.EncodedAs .di [0xF3#8] ∧ ∃ t, exec .di s = .next t ∧ t.regs = s.regs ∧ t.ime = false
      ∧ t.imePending = false ∧ State.OnlyRegs { s with ime := false, imePending := false } t 1)
    ∧ (Instr.EncodedAs .ei [0xFB#8] ∧ ∃ t, exec .ei s = .next t ∧ t.regs = s.regs ∧ t.ime = s.ime
      ∧ t.imePending = true ∧ State.OnlyRegs { s with imePending := true } t 1)
    ∧ Instr.EncodedAs .halt [0x76#8]
    ∧ (s.params.haltBug = true ∧ s.ime = false ∧ s.bus.ie.extractLsb' 0 5 &&& s.bus.iflag ≠ 0#5 →
      ∃ t, exec .halt s = .next t ∧ t.regs = s.regs ∧ t.haltPcHold = true ∧ t.mode = s.mode
        ∧ State.OnlyRegs { s with haltPcHold := true } t 1)
    ∧ (¬ (s.params.haltBug = true ∧ s.ime = false ∧ s.bus.ie.extractLsb' 0 5 &&& s.bus.iflag ≠ 0#5) →
      ∃ t, exec .halt s = .next t ∧ t.regs = s.regs ∧ t.mode = .halted
        ∧ State.OnlyRegs { s with mode := .halted } t 1)
    ∧ Instr.EncodedAs (.stop n) [0x10#8, n]
    ∧ ∃ t, exec (.stop n) s = .next t ∧ t.regs = s.regs ∧ t.mode = .stopped
      ∧ State.OnlyRegs { s with mode := .stopped } t 1

/-- The eleven undefined opcodes (R162, R366, R401): PC goes back onto the opcode byte, the mode is Locked, the lock is
not yet reported; no register but PC, no memory and no device changes, in 1 M-cycle. -/
def Obligations.UndefinedOpcodesLock : Prop :=
  ∀ s : State, ∀ p ∈ [(0xD3#8, Instr.undefD3), (0xDB#8, .undefDB), (0xDD#8, .undefDD), (0xE3#8, .undefE3),
      (0xE4#8, .undefE4), (0xEB#8, .undefEB), (0xEC#8, .undefEC), (0xED#8, .undefED), (0xF4#8, .undefF4),
      (0xFC#8, .undefFC), (0xFD#8, .undefFD)],
    Instr.EncodedAs p.2 [p.1]
    ∧ ∃ t, exec p.2 s = .next t ∧ t.regs = { s.regs with pc := s.opAddr } ∧ t.mode = .locked ∧ t.lockReported = false
      ∧ State.OnlyRegs { s with mode := .locked, lockReported := false } t 1

/-- `PREFIX CB` (R365): the bytes 0xCB, op2 are one instruction, the prefixed row that op2 selects, and never a lock; the
term of the prefix itself has that row's effect, and the row takes 2 to 4 M-cycles. -/
def Obligations.PrefixedInstruction : Prop :=
  ∀ (s : State) (op2 : Byte),
    ∃ i t, Instr.EncodedAs i [0xCB#8, op2] ∧ (∀ x, i ≠ .prefixCB x) ∧ exec (.prefixCB op2) s = .next t
      ∧ exec i s = .next t ∧ 2 ≤ t.cycles ∧ t.cycles ≤ 4 ∧ (s.mode = .running → t.mode = .running)

/-! ## The step -/

/-- A step in which no interrupt is dispatched runs the decoded instruction (R420): if the bytes at PC decode to `i`, the
step is `exec i` with PC past the bytes of `i`, then the effect of an EI of the step before, the cost of an OAM copy
of the step before, and the devices' advance. -/
def Obligations.StepRunsDecodedInstruction : Prop :=
  ∀ (s : State) (i : Instr) (rest : List Byte), s.executes → s.haltPcHold = false →
    decode [s.memRead s.regs.pc, s.memRead (s.regs.pc + 1#16), s.memRead (s.regs.pc + 2#16)] = .ok (i, rest) →
    i.wellFormed = true
    ∧ ∃ t, exec i { s with
          regs := { s.regs with pc := s.regs.pc + BitVec.ofNat 16 (3 - rest.length) }
          opAddr := s.regs.pc
          bus := { s.bus with dmaCost := 0 } } = .next t
      ∧ step s = .next (State.advance { State.eiEffect s.imePending t with cycles := t.cycles + s.bus.dmaCost })

/-- `halt_bug` (R611 (a)): after the HALT that sets the hold, the next opcode byte is read without advancing PC, so it is
also the first operand byte, and PC ends one byte short. -/
def Obligations.HaltBugReadsOpcodeTwice : Prop :=
  ∀ (s : State) (i : Instr) (rest : List Byte), s.executes → s.haltPcHold = true →
    decode [s.memRead s.regs.pc, s.memRead s.regs.pc, s.memRead (s.regs.pc + 1#16)] = .ok (i, rest) →
    ∃ t, exec i { s with
          regs := { s.regs with pc := s.regs.pc + BitVec.ofNat 16 (2 - rest.length) }
          haltPcHold := false
          opAddr := s.regs.pc
          bus := { s.bus with dmaCost := 0 } } = .next t
      ∧ step s = .next (State.advance { State.eiEffect s.imePending t with cycles := t.cycles + s.bus.dmaCost })

/-- A step in a mode that executes nothing (R420, R430): Halted with nothing pending, Stopped and Locked cost one M-cycle
and the OAM copy's cost and only let the devices advance; Halted with a source pending, whatever IME, goes on as
Running in the same step. -/
def Obligations.IdleSteps : Prop :=
  ∀ s : State,
    let idle := State.advance { s with cycles := 1 + s.bus.dmaCost, bus := { s.bus with dmaCost := 0 } }
    (s.mode = .halted → s.pending = 0#5 → step s = .next idle)
    ∧ (s.mode = .halted → s.pending ≠ 0#5 → step s = step { s with mode := .running })
    ∧ (s.mode = .stopped → step s = .next idle)
    ∧ (s.mode = .locked → step s = .next { idle with lockReported := true })

/-- Locked is final (R401) and is reported once (R31, R403): however many steps follow, the mode stays Locked, no register,
memory, IME or pending enable changes, and only the first of those steps reports. -/
def Obligations.LockedForever : Prop :=
  ∀ (n : Nat) (s t : State), s.mode = .locked → State.Steps n s t →
    t.mode = .locked ∧ t.regs = s.regs ∧ t.ime = s.ime ∧ t.imePending = s.imePending
    ∧ (∀ a, a.toNat < 0xFF00 ∨ (0xFF80 ≤ a.toNat) → t.bus.peek a = s.bus.peek a)
    ∧ (0 < n → t.reportsLock = false) ∧ s.reportsLock = !s.lockReported

/-- Dispatch (R412, R421, R611 (b)): the source is the least pending bit, chosen before the push; the address of the next
instruction is pushed high byte first; IME and its pending enable are cleared, the request bit is cleared, PC is the
vector, and the step takes 5 M-cycles and the OAM copy's cost. -/
def Obligations.Dispatch : Prop :=
  ∀ (s : State) (i : Nat), s.dispatches → s.bus.memInv = true → i < 5 →
    (s.bus.ie.getLsbD i = true ∧ s.bus.iflag.getLsbD i = true) →
    (∀ j < i, ¬ (s.bus.ie.getLsbD j = true ∧ s.bus.iflag.getLsbD j = true)) →
    let back := if s.haltPcHold = true then s.regs.pc - 1#16 else s.regs.pc
    ∃ b c, Bus.StoredAt s.params { s.bus with dmaCost := 0 } b (s.regs.sp - 1#16) (back.extractLsb' 8 8)
      ∧ Bus.StoredAt s.params b c (s.regs.sp - 2#16) (back.extractLsb' 0 8)
      ∧ step s = .next (State.advance { s with
          regs := { s.regs with sp := s.regs.sp - 2#16, pc := BitVec.ofNat 16 (0x40 + 8 * i) }
          ime := false
          imePending := false
          haltPcHold := false
          cycles := 5 + s.bus.dmaCost
          bus := { c with iflag := c.iflag &&& ~~~ (1#5 <<< i) } })

/-- EI takes effect one instruction late (R28, R364): the step after EI's still starts with IME = 0, so no interrupt is
dispatched in it, and IME is 1 after it; not if its instruction is DI or an undefined opcode. -/
def Obligations.EiDelay : Prop :=
  ∀ s t u : State, s.executes → s.ime = false → s.imePending = false → s.fetched = .ei → step s = .next t →
    step t = .next u →
    t.ime = false ∧ t.imePending = true ∧ t.executes
    ∧ (t.fetched = .di → u.ime = false ∧ u.imePending = false)
    ∧ (t.fetched ≠ .di → u.mode ≠ .locked → u.ime = true ∧ u.imePending = false)
    ∧ (u.mode = .locked → u.ime = false)

/-- What changes IME (R27): it is set by RETI at once and by EI with a delay of one instruction, cleared by DI and by the
interrupt dispatch, and by nothing else. -/
def Obligations.ImeChanges : Prop :=
  ∀ s t : State, step s = .next t →
    (s.ime = false → t.ime = true → s.fetched = .reti ∨ s.imePending = true)
    ∧ (s.ime = true → t.ime = false → (s.pending ≠ 0#5 ∧ (s.mode = .running ∨ s.mode = .halted)) ∨ s.fetched = .di)

/-- What changes the run mode within a step (R29, R401, R423): a step that executes an instruction ends Locked exactly on
an undefined opcode, with every register as it was; Stopped exactly on STOP; Halted exactly on a HALT that is not
the case of `halt_bug`; a dispatch ends Running; Stopped and Locked stay. -/
def Obligations.ModeChanges : Prop :=
  ∀ s t : State, step s = .next t →
    (s.mode = .stopped → t.mode = .stopped)
    ∧ (s.mode = .locked → t.mode = .locked)
    ∧ (s.mode = .halted → s.pending = 0#5 → t.mode = .halted)
    ∧ (s.mode = .running ∨ (s.mode = .halted ∧ s.pending ≠ 0#5) →
      (s.ime = true ∧ s.pending ≠ 0#5 → t.mode = .running)
      ∧ (¬ (s.ime = true ∧ s.pending ≠ 0#5) →
        (t.mode = .locked ↔ s.opcodeByte ∈ undefinedOpcodes)
        ∧ (t.mode = .locked → t.regs = s.regs)
        ∧ (t.mode = .stopped ↔ s.opcodeByte = 0x10#8)
        ∧ (t.mode = .halted ↔ s.opcodeByte = 0x76#8 ∧ s.haltBugApplies = false)))

/-- A tick always ends, never fails and never blocks (R620), in 1 to 6 M-cycles beside the OAM copy's cost (R618). -/
def Obligations.StepTotal : Prop :=
  ∀ s : State, ∃ t, step s = .next t ∧ s.bus.dmaCost + 1 ≤ t.cycles ∧ t.cycles ≤ s.bus.dmaCost + 6

/-! ## The bus -/

/-- Echo RAM (R69) and the addresses that hold nothing (R71, R82): an access to 0xE000 to 0xFDFF is the access 0x2000
lower, and a byte written through either address is read through the other; a read of the gap or of an unmapped I/O
address gives 0xFF and a write changes nothing. -/
def Obligations.EchoAndUnmapped : Prop :=
  ∀ (b : Bus) (prm : Params) (a : Word) (v : Byte),
    (0xE000 ≤ a.toNat → a.toNat ≤ 0xFDFF → b.memInv = true →
      b.read prm a = b.read prm (a - 0x2000#16) ∧ b.write prm a v = b.write prm (a - 0x2000#16) v
      ∧ (b.write prm a v).read prm (a - 0x2000#16) = v ∧ (b.write prm (a - 0x2000#16) v).read prm a = v)
    ∧ ((0xFEA0 ≤ a.toNat ∧ a.toNat ≤ 0xFEFF) ∨ a = 0xFF03#16 ∨ (0xFF08 ≤ a.toNat ∧ a.toNat ≤ 0xFF0E) ∨ a = 0xFF15#16
        ∨ a = 0xFF1F#16 ∨ (0xFF27 ≤ a.toNat ∧ a.toNat ≤ 0xFF2F) ∨ (0xFF4C ≤ a.toNat ∧ a.toNat ≤ 0xFF7F) →
      b.read prm a = 0xFF#8 ∧ b.write prm a v = b)

/-- What a register reads after a write (the read and write columns of R40): the stored bits, every other bit 1; P1 keeps
bits 5:4 (its lines are `Obligations.JoypadLines`'); DIV is cleared whatever is written; STAT keeps its low three bits,
the coincidence and the mode (R482); LY ignores the write; NR52 takes the power bit and shows the channels (R582); wave
RAM holds the byte (R564); the other sound registers are written while the APU is on. -/
def Obligations.RegisterReadBack : Prop :=
  ∀ (b : Bus) (prm : Params) (v : Byte),
    (∀ a ∈ [0xFF01#16, 0xFF05#16, 0xFF06#16, 0xFF40#16, 0xFF42#16, 0xFF43#16, 0xFF45#16, 0xFF46#16, 0xFF47#16, 0xFF48#16]
        ++ [0xFF49#16, 0xFF4A#16, 0xFF4B#16, 0xFFFF#16], (b.write prm a v).read prm a = v)
    ∧ (b.write prm 0xFF02#16 v).read prm 0xFF02#16 = v ||| 0x7E#8
    ∧ (b.write prm 0xFF04#16 v).read prm 0xFF04#16 = 0x00#8
    ∧ (b.write prm 0xFF07#16 v).read prm 0xFF07#16 = v ||| 0xF8#8
    ∧ (b.write prm 0xFF0F#16 v).read prm 0xFF0F#16 = v ||| 0xE0#8
    ∧ ((b.write prm 0xFF00#16 v).read prm 0xFF00#16).extractLsb' 4 4 = 0b11#2 ++ v.extractLsb' 4 2
    ∧ ((b.write prm 0xFF41#16 v).read prm 0xFF41#16).extractLsb' 3 5 = (v ||| 0x80#8).extractLsb' 3 5
    ∧ ((b.write prm 0xFF41#16 v).read prm 0xFF41#16).extractLsb' 0 3 = (b.read prm 0xFF41#16).extractLsb' 0 3
    ∧ (b.read prm 0xFF41#16).extractLsb' 0 3 = BitVec.ofBool (b.ppu.ly = b.ppu.lyc.toNat) ++ b.ppu.mode.code
    ∧ (b.write prm 0xFF44#16 v) = b ∧ b.read prm 0xFF44#16 = BitVec.ofNat 8 b.ppu.ly
    ∧ ((b.write prm 0xFF26#16 v).read prm 0xFF26#16).extractLsb' 4 4 = v.extractLsb' 7 1 ++ 0b111#3
    ∧ ((b.write prm 0xFF26#16 v).read prm 0xFF26#16).extractLsb' 0 4 =
      (if b.apu.on = true ∧ v.getLsbD 7 = false then 0#4 else (b.read prm 0xFF26#16).extractLsb' 0 4)
    ∧ (b.read prm 0xFF26#16).extractLsb' 0 4 = BitVec.ofBool b.apu.ch4.on ++ BitVec.ofBool b.apu.ch3.on
      ++ BitVec.ofBool b.apu.ch2.on ++ BitVec.ofBool b.apu.ch1.on
    ∧ (∀ a : Word, 0xFF30 ≤ a.toNat → a.toNat ≤ 0xFF3F → b.memInv = true → (b.write prm a v).read prm a = v)
    ∧ (b.apu.on = true →
      (∀ a ∈ [0xFF12#16, 0xFF17#16, 0xFF21#16, 0xFF22#16, 0xFF24#16, 0xFF25#16], (b.write prm a v).read prm a = v)
      ∧ (b.write prm 0xFF10#16 v).read prm 0xFF10#16 = v ||| 0x80#8
      ∧ (∀ a ∈ [0xFF11#16, 0xFF16#16], (b.write prm a v).read prm a = v ||| 0x3F#8)
      ∧ (∀ a ∈ [0xFF13#16, 0xFF18#16, 0xFF1B#16, 0xFF1D#16, 0xFF20#16], (b.write prm a v).read prm a = 0xFF#8)
      ∧ (∀ a ∈ [0xFF14#16, 0xFF19#16, 0xFF1E#16, 0xFF23#16], (b.write prm a v).read prm a = v ||| 0xBF#8)
      ∧ (b.write prm 0xFF1A#16 v).read prm 0xFF1A#16 = v ||| 0x7F#8
      ∧ (b.write prm 0xFF1C#16 v).read prm 0xFF1C#16 = v ||| 0x9F#8)

/-- Access blocking (R84): with the parameter false nothing is shut; with it true and the LCD on, VRAM reads 0xFF and
ignores writes during pixel-transfer, OAM during OAM-scan and pixel-transfer; in every other mode, and at every other
address in every mode, reads and writes are open. -/
def Obligations.AccessBlocking : Prop :=
  ∀ (b : Bus) (prm : Params) (a : Word) (v : Byte),
    (prm.ppuAccessBlocking = false → b.read prm a = b.peek a ∧ b.write prm a v = b.writePlace a v (b.cart.place a))
    ∧ (b.ppu.lcdOn = false → b.read prm a = b.peek a ∧ b.write prm a v = b.writePlace a v (b.cart.place a))
    ∧ (prm.ppuAccessBlocking = true →
      (b.ppu.mode = .transfer → 0x8000 ≤ a.toNat → a.toNat ≤ 0x9FFF → b.read prm a = 0xFF#8 ∧ b.write prm a v = b)
      ∧ (b.ppu.mode = .oamScan ∨ b.ppu.mode = .transfer → 0xFE00 ≤ a.toNat → a.toNat ≤ 0xFE9F →
        b.read prm a = 0xFF#8 ∧ b.write prm a v = b)
      ∧ (¬ (b.ppu.mode = .transfer ∧ 0x8000 ≤ a.toNat ∧ a.toNat ≤ 0x9FFF) →
        ¬ ((b.ppu.mode = .oamScan ∨ b.ppu.mode = .transfer) ∧ 0xFE00 ≤ a.toNat ∧ a.toNat ≤ 0xFE9F) →
        b.read prm a = b.peek a ∧ b.write prm a v = b.writePlace a v (b.cart.place a)))

/-- The OAM copy (R90, R91): a write of `v` to 0xFF46 stores `v` in DMA, copies the 160 bytes that `v` ++ 0x00 onwards
read without the blocking of R84, leaves everything else alone, and costs the next step 160 M-cycles. -/
def Obligations.OamCopy : Prop :=
  ∀ (b : Bus) (prm : Params) (v : Byte), b.memInv = true →
    ∃ m, b.write prm 0xFF46#16 v = { b with ppu := { b.ppu with dma := v }, oam := m, dmaCost := 160 }
      ∧ (∀ i < 160, m.read i = Bus.peek { b with ppu := { b.ppu with dma := v } } (BitVec.ofNat 16 (256 * v.toNat + i)))
      ∧ m.wf = true ∧ m.below 160 = true

/-- No step changes the ROM image, what the header gave, or the parameters (R16, R38, R122). -/
def Obligations.RomImmutable : Prop :=
  ∀ s t : State, step s = .next t →
    t.bus.rom = s.bus.rom ∧ t.params = s.params ∧ t.bus.cart.variant = s.bus.cart.variant
    ∧ t.bus.cart.romBanks = s.bus.cart.romBanks ∧ t.bus.cart.ramBanks = s.bus.cart.ramBanks
    ∧ t.bus.cart.ramSize = s.bus.cart.ramSize ∧ t.bus.cart.hasRtc = s.bus.cart.hasRtc

/-! ## The cartridge -/

/-- Variant None (R124): ROM reads are direct, writes below 0x8000 change nothing, and the RAM window is cartridge RAM if
there is any, with no enable latch. MBC1 (R113, R125 to R128): what each register range stores, and what the ROM and
RAM windows read in every banking state; a ROM bank register value 0 is stored as 1. -/
def Obligations.NoControllerAndMbc1 : Prop :=
  (∀ (b : Bus) (prm : Params) (a : Word) (v : Byte), b.cart.variant = .none →
    (a.toNat ≤ 0x7FFF → b.read prm a = b.rom.read (a.toNat % (16384 * b.cart.romBanks)) ∧ b.write prm a v = b)
    ∧ (0xA000 ≤ a.toNat → a.toNat ≤ 0xBFFF →
      (b.cart.ramBanks = 0 → b.read prm a = 0xFF#8 ∧ b.write prm a v = b)
      ∧ (0 < b.cart.ramBanks →
        let o := (a.toNat - 0xA000) % b.cart.ramSize
        b.read prm a = b.cartRam.read o ∧ b.write prm a v = { b with cartRam := b.cartRam.write o v })))
  ∧
  ∀ (b : Bus) (prm : Params) (w a : Word) (v : Byte), b.cart.variant = .mbc1 →
    (w.toNat ≤ 0x1FFF → (b.write prm w v).cart = { b.cart with ramEnable := v.toNat % 16 = 0xA })
    ∧ (0x2000 ≤ w.toNat → w.toNat ≤ 0x3FFF →
      (b.write prm w v).cart = { b.cart with bank1 := BitVec.ofNat 5 (max 1 (v.toNat % 32)) })
    ∧ (0x4000 ≤ w.toNat → w.toNat ≤ 0x5FFF → (b.write prm w v).cart = { b.cart with bank2 := BitVec.ofNat 2 v.toNat })
    ∧ (0x6000 ≤ w.toNat → w.toNat ≤ 0x7FFF → (b.write prm w v).cart = { b.cart with mbc1Mode := v.toNat % 2 = 1 })
    ∧ (a.toNat ≤ 0x3FFF → b.read prm a =
      b.rom.read ((if b.cart.mbc1Mode = true then b.cart.bank2.toNat * 32 else 0) % b.cart.romBanks * 16384 + a.toNat))
    ∧ (0x4000 ≤ a.toNat → a.toNat ≤ 0x7FFF → b.read prm a =
      b.rom.read ((b.cart.bank2.toNat * 32 + b.cart.bank1.toNat) % b.cart.romBanks * 16384 + (a.toNat - 0x4000)))
    ∧ (0xA000 ≤ a.toNat → a.toNat ≤ 0xBFFF →
      (b.cart.ramBanks = 0 ∨ b.cart.ramEnable = false → b.read prm a = 0xFF#8 ∧ b.write prm a v = b)
      ∧ (b.cart.ramBanks ≠ 0 → b.cart.ramEnable = true →
        let o := ((if b.cart.mbc1Mode = true then b.cart.bank2.toNat else 0) % b.cart.ramBanks * 8192
          + (a.toNat - 0xA000)) % b.cart.ramSize
        b.read prm a = b.cartRam.read o ∧ b.write prm a v = { b with cartRam := b.cartRam.write o v }))

/-- MBC2 (R130 to R132): address bit 8 selects the register below 0x4000, above it nothing is written; the upper ROM
window shows the selected bank; 512 cells of 4 bits repeat through the RAM window and read with the high nibble 1. -/
def Obligations.Mbc2 : Prop :=
  ∀ (b : Bus) (prm : Params) (w a : Word) (v : Byte), b.cart.variant = .mbc2 → b.memInv = true →
    (w.toNat ≤ 0x3FFF → w.getLsbD 8 = false → (b.write prm w v).cart = { b.cart with ramEnable := v.toNat % 16 = 0xA })
    ∧ (w.toNat ≤ 0x3FFF → w.getLsbD 8 = true →
      (b.write prm w v).cart = { b.cart with mbc2RomBank := BitVec.ofNat 4 (max 1 (v.toNat % 16)) })
    ∧ (0x4000 ≤ w.toNat → w.toNat ≤ 0x7FFF → b.write prm w v = b)
    ∧ (a.toNat ≤ 0x3FFF → b.read prm a = b.rom.read (0 % b.cart.romBanks * 16384 + a.toNat))
    ∧ (0x4000 ≤ a.toNat → a.toNat ≤ 0x7FFF → b.read prm a =
      b.rom.read (b.cart.mbc2RomBank.toNat % b.cart.romBanks * 16384 + (a.toNat - 0x4000)))
    ∧ (0xA000 ≤ a.toNat → a.toNat ≤ 0xBFFF →
      (b.cart.ramEnable = false → b.read prm a = 0xFF#8 ∧ b.write prm a v = b)
      ∧ (b.cart.ramEnable = true → ∀ a' : Word, 0xA000 ≤ a'.toNat → a'.toNat ≤ 0xBFFF →
        (b.write prm a v).read prm a' =
          if a'.toNat % 512 = a.toNat % 512 then v ||| 0xF0#8 else b.read prm a'))

/-- MBC3 (R134 to R138): its registers, its ROM window, its RAM window by `ram_rtc_sel`, and the latch: a write of 0x00 and
then 0x01 to 0x6000 to 0x7FFF copies the live clock registers into the ones that reads return, and neither time nor
a write of a clock register changes what the window reads until the next latch. -/
def Obligations.Mbc3 : Prop :=
  ∀ (b : Bus) (prm : Params) (w a : Word) (v : Byte) (t : Nat), b.cart.variant = .mbc3 →
    (w.toNat ≤ 0x1FFF → (b.write prm w v).cart = { b.cart with ramEnable := v.toNat % 16 = 0xA })
    ∧ (0x2000 ≤ w.toNat → w.toNat ≤ 0x3FFF →
      (b.write prm w v).cart = { b.cart with mbc3RomBank := BitVec.ofNat 7 (max 1 (v.toNat % 128)) })
    ∧ (0x4000 ≤ w.toNat → w.toNat ≤ 0x5FFF → (b.write prm w v).cart = { b.cart with ramRtcSel := BitVec.ofNat 4 v.toNat })
    ∧ (0x6000 ≤ w.toNat → w.toNat ≤ 0x7FFF →
      ((b.write prm w 0x00#8).write prm w 0x01#8).cart.rtcLatched = b.cart.rtcLive
      ∧ (v ≠ 0x01#8 → (b.write prm w v).cart.rtcLatched = b.cart.rtcLatched))
    ∧ (a.toNat ≤ 0x3FFF → b.read prm a = b.rom.read (0 % b.cart.romBanks * 16384 + a.toNat))
    ∧ (0x4000 ≤ a.toNat → a.toNat ≤ 0x7FFF → b.read prm a =
      b.rom.read (b.cart.mbc3RomBank.toNat % b.cart.romBanks * 16384 + (a.toNat - 0x4000)))
    ∧ (0xA000 ≤ a.toNat → a.toNat ≤ 0xBFFF →
      (b.cart.ramEnable = false → b.read prm a = 0xFF#8 ∧ b.write prm a v = b)
      ∧ (b.cart.ramEnable = true → b.cart.ramRtcSel.toNat ≤ 3 → 0 < b.cart.ramBanks →
        let o := (b.cart.ramRtcSel.toNat % b.cart.ramBanks * 8192 + (a.toNat - 0xA000)) % b.cart.ramSize
        b.read prm a = b.cartRam.read o ∧ b.write prm a v = { b with cartRam := b.cartRam.write o v })
      ∧ (b.cart.ramEnable = true → 0x8 ≤ b.cart.ramRtcSel.toNat → b.cart.ramRtcSel.toNat ≤ 0xC → b.cart.hasRtc = true →
        b.read prm a = b.cart.rtcLatched.readIndex b.cart.ramRtcSel.toNat
        ∧ (b.advance prm t).read prm a = b.read prm a ∧ (b.write prm a v).read prm a = b.read prm a)
      ∧ (b.cart.ramEnable = true → ¬ (b.cart.ramRtcSel.toNat ≤ 3 ∧ 0 < b.cart.ramBanks) →
        ¬ (0x8 ≤ b.cart.ramRtcSel.toNat ∧ b.cart.ramRtcSel.toNat ≤ 0xC ∧ b.cart.hasRtc = true) →
        b.read prm a = 0xFF#8 ∧ b.write prm a v = b))

/-- One second of the clock (R140, R141): from registers in range, the whole count of seconds goes up by one modulo 512
days, the carry is set when it wraps and never cleared, the registers stay in range, and the halt bit is kept. -/
def Obligations.ClockSecond : Prop :=
  ∀ r : Rtc, r.s.toNat < 60 → r.m.toNat < 60 → r.h.toNat < 24 →
    let seconds := fun q : Rtc => ((q.day.toNat * 24 + q.h.toNat) * 60 + q.m.toNat) * 60 + q.s.toNat
    seconds r.tickSecond = (seconds r + 1) % 44236800
    ∧ r.tickSecond.carry = (r.carry || decide (seconds r + 1 = 44236800)) ∧ r.tickSecond.halt = r.halt
    ∧ r.tickSecond.s.toNat < 60 ∧ r.tickSecond.m.toNat < 60 ∧ r.tickSecond.h.toNat < 24

/-! ## Timer and joypad -/

/-- `TimerAdvance(t)` in closed form (R450, R455): the number of increments is the number of multiples of the period
passed; TIMA counts up, restarts from TMA at every overflow, and the interrupt is requested iff it overflowed. -/
def Obligations.TimerClosedForm : Prop :=
  ∀ (tm : Timer) (t : Nat),
    let period := match tm.tac.toNat % 4 with
      | 0 => 1024
      | 1 => 16
      | 2 => 64
      | _ => 256
    let k := if tm.tac.getLsbD 2 = true then (tm.sysclk.toNat + t) / period - tm.sysclk.toNat / period else 0
    let r := tm.advance t
    r.1.sysclk = BitVec.ofNat 16 (tm.sysclk.toNat + t) ∧ r.1.tma = tm.tma ∧ r.1.tac = tm.tac
    ∧ (tm.tima.toNat + k < 256 → r.1.tima.toNat = tm.tima.toNat + k ∧ r.2 = false)
    ∧ (256 ≤ tm.tima.toNat + k →
      r.1.tima.toNat = tm.tma.toNat + (tm.tima.toNat + k - 256) % (256 - tm.tma.toNat) ∧ r.2 = true)

/-- The joypad (R460 to R466): a line is low iff a pressed button of a selected group is on it; a write of P1 and the
host's buttons evaluate the lines, request the joypad interrupt iff one fell, and, in mode Stopped, a fall wakes. -/
def Obligations.JoypadLines : Prop :=
  ∀ (s : State) (v : Byte), s.bus.joy.inv = true →
    let line := fun (select : BitVec 2) (buttons : Byte) (k : Nat) =>
      !((!select.getLsbD 0 && buttons.getLsbD k) || (!select.getLsbD 1 && buttons.getLsbD (4 + k)))
    let before := line s.bus.joy.select s.bus.joy.buttons
    let P1 := s.memWrite 0xFF00#16 v
    let Set := s.setButtons v
    (∀ k < 4, (s.memRead 0xFF00#16).getLsbD k = before k)
    ∧ (∀ k < 4, (P1.memRead 0xFF00#16).getLsbD k = line (v.extractLsb' 4 2) s.bus.joy.buttons k)
    ∧ (P1.memRead 0xFF00#16).extractLsb' 4 4 = 0b11#2 ++ v.extractLsb' 4 2
    ∧ (∀ k < 4, (Set.memRead 0xFF00#16).getLsbD k = line s.bus.joy.select v k)
    ∧ ((∃ k < 4, before k = true ∧ line (v.extractLsb' 4 2) s.bus.joy.buttons k = false) →
      P1.bus.iflag = s.bus.iflag ||| 0b10000#5)
    ∧ ((∀ k < 4, before k = true → line (v.extractLsb' 4 2) s.bus.joy.buttons k = true) → P1.bus.iflag = s.bus.iflag)
    ∧ ((∃ k < 4, before k = true ∧ line s.bus.joy.select v k = false) →
      Set.bus.iflag = s.bus.iflag ||| 0b10000#5 ∧ (s.mode = .stopped → Set.mode = .running))
    ∧ ((∀ k < 4, before k = true → line s.bus.joy.select v k = true) →
      Set.bus.iflag = s.bus.iflag ∧ Set.mode = s.mode)

/-! ## PPU -/

/-- The frame (R480, R485, R488, R491, R504): `t` dots move the position in the frame of 70224 dots by `t`, and V-blank
is requested iff the start of line 144, position 65664, was passed. -/
def Obligations.FramePosition : Prop :=
  ∀ (prm : Params) (vram oam : Memory) (t : Nat) (p : Ppu), p.lcdOn = true → p.ly < 154 → p.dot < 456 →
    let r := p.advance prm vram oam t
    456 * r.1.ly + r.1.dot = (456 * p.ly + p.dot + t) % 70224
    ∧ r.1.ly < 154 ∧ r.1.dot < 456
    ∧ (r.2.getLsbD 0 = true ↔ ∃ k, 1 ≤ k ∧ k ≤ t ∧ (456 * p.ly + p.dot + k) % 70224 = 65664)

/-- The STAT line (R486, R489, R490): the level is that of the enabled conditions on the mode and on LY = LYC, and bit 1
of IF is requested exactly when it goes from 0 to 1, by a dot and by a write of STAT, LYC or LCDC alike. -/
def Obligations.StatLine : Prop :=
  ∀ (prm : Params) (vram oam : Memory) (p : Ppu) (v : Byte),
    let mode := fun q : Ppu => if q.lcdc.getLsbD 7 = false then 0 else if 144 ≤ q.ly then 1 else if q.dot < 80 then 2
      else if q.dot < 80 + q.mode3Len then 3 else 0
    let level := fun q : Ppu => q.lcdc.getLsbD 7 = true ∧ ((q.stat.getLsbD 3 = true ∧ q.ly = q.lyc.toNat)
      ∨ (q.stat.getLsbD 2 = true ∧ mode q = 2) ∨ (q.stat.getLsbD 1 = true ∧ mode q = 1)
      ∨ (q.stat.getLsbD 0 = true ∧ mode q = 0))
    (∀ r ∈ [p.dotStep prm vram oam, p.writeStat v, p.writeLyc v, p.writeLcdc v],
      (r.1.statLine = true ↔ level r.1) ∧ (r.2.getLsbD 1 = true ↔ p.statLine = false ∧ level r.1))
    ∧ p.statRead.extractLsb' 0 2 = BitVec.ofNat 2 (mode p)

/-- The LCD switched off and on (R493): off, the position, the window, the selection and the STAT line are reset, the
framebuffer stays, time does nothing, and nothing is requested; on, the PPU starts at line 0, dot 0, in mode 2. -/
def Obligations.LcdSwitch : Prop :=
  ∀ (prm : Params) (vram oam : Memory) (p : Ppu) (v : Byte) (t : Nat), p.inv prm = true →
    let q := (p.writeLcdc v).1
    (p.lcdOn = true → v.getLsbD 7 = false →
      q = { p with lcdc := v, ly := 0, dot := 0, winLine := 0, winTriggered := false, lineObjs := [], statLine := false }
      ∧ (p.writeLcdc v).2 = 0#5 ∧ q.mode = .hblank ∧ q.advance prm vram oam t = (q, 0#5))
    ∧ (p.lcdOn = false → v.getLsbD 7 = true →
      q.ly = 0 ∧ q.dot = 0 ∧ q.winLine = 0 ∧ q.mode = .oamScan ∧ q.framebuffer = p.framebuffer)

/-- Object selection at dot 80 (R496): the selected objects are the first ones in OAM order that cover the line, up to
the limit; each covers it, and an object that covers the line is left out only if the limit is reached before it. -/
def Obligations.ObjectSelection : Prop :=
  ∀ (prm : Params) (oam : Memory) (p : Ppu),
    let h := if p.lcdc.getLsbD 2 = true then 16 else 8
    let covers := fun n => (oam.read (4 * n)).toNat ≤ p.ly + 16 ∧ p.ly + 16 < (oam.read (4 * n)).toNat + h
    let sel := (p.scanEnd prm oam).lineObjs.map Prod.fst
    sel.Pairwise (· < ·) ∧ sel.length ≤ prm.objPerLine
    ∧ (∀ n ∈ sel, n < 40 ∧ covers n)
    ∧ (∀ n < 40, covers n → n ∉ sel → sel.length = prm.objPerLine ∧ ∀ m ∈ sel, m < n)

/-- The background alone (R494, R497, R501): with objects off and the window not shown, the composed line holds, in every
column, the shade BGP gives the colour of the tile pixel at the scrolled position; every other line is untouched. -/
def Obligations.BackgroundLine : Prop :=
  ∀ (vram oam : Memory) (p : Ppu) (x y : Nat), p.lcdc.getLsbD 0 = true → p.lcdc.getLsbD 1 = false →
    p.lcdc.getLsbD 5 = false → p.ly < 144 → x < 160 → y < 144 →
    let q := p.composeLine vram oam
    let bx := (x + p.scx.toNat) % 256
    let yy := (p.ly + p.scy.toNat) % 256
    let n := vram.read ((if p.lcdc.getLsbD 3 = true then 0x1C00 else 0x1800) + 32 * (yy / 8) + bx / 8)
    let base := if p.lcdc.getLsbD 4 = true then 16 * n.toNat
      else if n.toNat < 128 then 0x1000 + 16 * n.toNat else 0x1000 + 16 * n.toNat - 4096
    let lo := (vram.read (base + 2 * (yy % 8))).getLsbD (7 - bx % 8)
    let hi := (vram.read (base + 2 * (yy % 8) + 1)).getLsbD (7 - bx % 8)
    let c := 2 * hi.toNat + lo.toNat
    (q.framebuffer[p.ly]?.bind (·[x]?)) = some (p.bgp.extractLsb' (2 * c) 2)
    ∧ (y ≠ p.ly → q.framebuffer[y]? = p.framebuffer[y]?) ∧ q.winLine = p.winLine

/-- Object priority (R499): with objects on, the object shown at a column is one of the selected ones that cover the
column with a colour other than 0, and of all those it has the smallest X, and among equal X the lowest index. -/
def Obligations.ObjectPriority : Prop :=
  ∀ (vram oam : Memory) (p : Ppu) (x : Nat), p.lcdc.getLsbD 1 = true →
    let X := fun o : Nat × Byte => (oam.read (4 * o.1 + 1)).toNat
    let candidate := fun o : Nat × Byte => o ∈ p.lineObjs ∧ X o ≤ x + 8 ∧ x + 8 < X o + 8
      ∧ p.objPixel vram oam x o ≠ 0#2
    (∀ o, p.objWinner vram oam x = some o →
      candidate o ∧ ∀ o', candidate o' → X o < X o' ∨ (X o = X o' ∧ o.1 ≤ o'.1))
    ∧ (p.objWinner vram oam x = none → ∀ o, ¬ candidate o)

/-! ## APU -/

/-- The mixer (R542, R583): both sides of a sample are at most 480, and with the APU off both are 0. -/
def Obligations.SampleBounds : Prop :=
  ∀ a : Apu, a.sample.1 ≤ 480 ∧ a.sample.2 ≤ 480 ∧ (a.on = false → a.sample = (0, 0))

/-- Power (R541, R582): while the APU is off a write of NR10 to NR51 changes nothing; switching off clears every register,
flag, length, volume and sweep counter and keeps wave RAM, the noise register, the waveform timers and the samples;
switching on restarts the sequencer and the positions; NR52 with the power it already has does nothing. -/
def Obligations.ApuPower : Prop :=
  ∀ (b : Bus) (prm : Params) (a : Word) (v : Byte),
    (b.apu.on = false → 0xFF10 ≤ a.toNat → a.toNat ≤ 0xFF25 → b.write prm a v = b)
    ∧ (b.apu.on = v.getLsbD 7 → b.write prm 0xFF26#16 v = b)
    ∧ (b.apu.on = true → v.getLsbD 7 = false →
      let c := b.write prm 0xFF26#16 v
      c.waveRam = b.waveRam ∧ c.apu.ch4.lfsr = b.apu.ch4.lfsr ∧ c.apu.audioOut = b.apu.audioOut
      ∧ c.apu.ch1.timer = b.apu.ch1.timer ∧ c.apu.ch2.timer = b.apu.ch2.timer ∧ c.apu.ch3.timer = b.apu.ch3.timer
      ∧ c.apu.ch4.timer = b.apu.ch4.timer ∧ c.apu.ch3.buf = b.apu.ch3.buf ∧ c.apu.sampleAcc = b.apu.sampleAcc
      ∧ c.read prm 0xFF26#16 = 0x70#8
      ∧ (∀ p ∈ [(0xFF10#16, 0x80#8), (0xFF11#16, 0x3F#8), (0xFF12#16, 0x00#8), (0xFF14#16, 0xBF#8), (0xFF16#16, 0x3F#8)]
          ++ [(0xFF17#16, 0x00#8), (0xFF19#16, 0xBF#8), (0xFF1A#16, 0x7F#8), (0xFF1C#16, 0x9F#8), (0xFF1E#16, 0xBF#8)]
          ++ [(0xFF21#16, 0x00#8), (0xFF22#16, 0x00#8), (0xFF23#16, 0xBF#8), (0xFF24#16, 0x00#8), (0xFF25#16, 0x00#8)],
          c.read prm p.1 = p.2)
      ∧ c.apu.ch1.len.count = 0 ∧ c.apu.ch2.len.count = 0 ∧ c.apu.ch3.len.count = 0 ∧ c.apu.ch4.len.count = 0
      ∧ c.apu.ch1.env.vol = 0#4 ∧ c.apu.ch2.env.vol = 0#4 ∧ c.apu.ch4.env.vol = 0#4 ∧ c.apu.ch1.freq = 0#11
      ∧ c.apu.ch2.freq = 0#11 ∧ c.apu.ch3.freq = 0#11 ∧ c.apu.sweep = ⟨0#7, false, 0, 0#11⟩)
    ∧ (b.apu.on = false → v.getLsbD 7 = true →
      let c := b.write prm 0xFF26#16 v
      c.apu.on = true ∧ c.apu.fsCounter = 8192 ∧ c.apu.fsStep = 0#3 ∧ c.apu.ch1.dutyPos = 0#3
      ∧ c.apu.ch2.dutyPos = 0#3 ∧ c.apu.ch3.pos = 0#5)

/-- Sample generation (R585): with a sample period of at least one T-cycle, `t` T-cycles append as many pairs as whole
periods have accumulated, and the accumulator keeps the remainder, whether or not the APU is on. -/
def Obligations.SampleCount : Prop :=
  ∀ (prm : Params) (wave : Memory) (t : Nat) (a : Apu), 0 < prm.samplePeriodDen →
    prm.samplePeriodDen ≤ prm.samplePeriodNum → a.sampleAcc < prm.samplePeriodNum →
    let r := a.advance prm wave t
    let total := a.sampleAcc + t * prm.samplePeriodDen
    r.audioOut.length = a.audioOut.length + total / prm.samplePeriodNum
    ∧ r.sampleAcc = total % prm.samplePeriodNum
    ∧ ∃ more, r.audioOut = a.audioOut ++ more ∧ ∀ p ∈ more, p.1 ≤ 480 ∧ p.2 ≤ 480

/-! ## Reset, encodings, the invariant -/

/-- Reset (R44, and the reset column of R40): every hidden state element, and what every register of the map reads. It is
the reset procedure's result for the default parameters on the all-zero image of 32 KiB (the model's choice of image,
notes/assumptions/2.md). The procedure (R600, R601), for any `reset_regs` and any image that loads: the registers and
hidden elements, the controller's among them, are those of `reset_regs`, PC is 0x0100, the memories and the clock are
as supplied, no audio and no frame waits, and the framebuffer is 0. -/
def Obligations.ResetValues : Prop :=
  let s := State.reset
  let p := s.bus.ppu
  let u := s.bus.apu
  let c := s.bus.cart
  s.regs = ⟨0x01#8, 0xB0#8, 0x00#8, 0x13#8, 0x00#8, 0xD8#8, 0x01#8, 0x4D#8, 0xFFFE#16, 0x0100#16⟩
  ∧ s.ime = false ∧ s.imePending = false ∧ s.mode = .running ∧ s.bus.dmaCost = 0 ∧ s.lockReported = false
  ∧ s.haltPcHold = false ∧ s.bus.timer.sysclk = 0xABCC#16 ∧ s.bus.joy = ⟨0b00#2, 0x00#8, 0b1111#4⟩
  ∧ s.bus.serial = ⟨0x00#8, false, false⟩ ∧ p.ly = 0 ∧ p.dot = 0 ∧ p.mode3Len = 172 + p.extraDots s.params s.bus.oam
  ∧ p.statLine = false ∧ p.winLine = 0 ∧ p.winTriggered = false ∧ p.frameReady = false ∧ p.lineObjs = []
  ∧ p.framebuffer = Vector.replicate 144 (Vector.replicate 160 0#2)
  ∧ u.on = true ∧ u.ch1.on = false ∧ u.ch2.on = false ∧ u.ch3.on = false ∧ u.ch4.on = false
  ∧ u.ch1.len = ⟨false, 0⟩ ∧ u.ch2.len = ⟨false, 0⟩ ∧ u.ch3.len = ⟨false, 0⟩ ∧ u.ch4.len = ⟨false, 0⟩
  ∧ u.ch1.env.vol = 0#4 ∧ u.ch1.env.timer = 0 ∧ u.ch2.env.vol = 0#4 ∧ u.ch2.env.timer = 0 ∧ u.ch4.env.vol = 0#4
  ∧ u.ch4.env.timer = 0 ∧ u.ch1.dutyPos = 0#3 ∧ u.ch2.dutyPos = 0#3 ∧ u.ch3.pos = 0#5 ∧ u.ch3.buf = 0#4
  ∧ u.sweep.timer = 0 ∧ u.sweep.shadow = 0#11 ∧ u.sweep.on = false
  ∧ u.ch1.freq = 0x7FF#11 ∧ u.ch2.freq = 0x7FF#11 ∧ u.ch3.freq = 0x7FF#11
  ∧ u.ch1.timer = u.ch1.period ∧ u.ch2.timer = u.ch2.period ∧ u.ch3.timer = u.ch3.period ∧ u.ch4.timer = u.ch4.period
  ∧ u.ch4.lfsr = 0x7FFF#15 ∧ u.fsCounter = 8192 ∧ u.fsStep = 0#3 ∧ u.sampleAcc = 0 ∧ u.audioOut = []
  ∧ c.ramEnable = false ∧ c.bank1 = 1#5 ∧ c.mbc2RomBank = 1#4 ∧ c.mbc3RomBank = 1#7 ∧ c.bank2 = 0#2
  ∧ c.mbc1Mode = false ∧ c.ramRtcSel = 0#4 ∧ c.latchPrev = 0xFF#8 ∧ c.rtcSubsec = 0
  ∧ c.rtcLive = ⟨0#6, 0#6, 0#5, 0x00#8, false, false, false⟩ ∧ c.rtcLatched = c.rtcLive
  ∧ boot BootArgs.default ⟨32768, []⟩ = .ok s
  ∧ (∀ args img t, boot args img = .ok t →
    t.regs = { args.resetRegs.regs with pc := 0x0100#16 } ∧ t.params = args.params
    ∧ t.ime = args.resetRegs.ime ∧ t.imePending = args.resetRegs.imePending ∧ t.mode = args.resetRegs.mode
    ∧ t.haltPcHold = args.resetRegs.haltPcHold ∧ t.lockReported = args.resetRegs.lockReported
    ∧ t.bus.dmaCost = args.resetRegs.bus.dmaCost
    ∧ t.bus.timer = args.resetRegs.bus.timer ∧ t.bus.joy = args.resetRegs.bus.joy ∧ t.bus.ie = args.resetRegs.bus.ie
    ∧ t.bus.iflag = args.resetRegs.bus.iflag ∧ t.bus.serial = args.resetRegs.bus.serial
    ∧ t.bus.apu = { args.resetRegs.bus.apu with audioOut := [] }
    ∧ t.bus.ppu = { args.resetRegs.bus.ppu with
        mode3Len := t.bus.ppu.mode3Len
        frameReady := false
        framebuffer := Vector.replicate 144 (Vector.replicate 160 0#2) }
    ∧ (∀ n, args.mode3Len = some n → t.bus.ppu.mode3Len = n)
    ∧ (args.mode3Len = none →
      let q := args.resetRegs.bus.ppu
      t.bus.ppu.mode3Len =
        172 + { q with lineObjs := q.selectObjs args.params args.oam }.extraDots args.params args.oam)
    ∧ t.bus.rom = img.bytes ∧ t.bus.vram = args.vram ∧ t.bus.wram = args.wram ∧ t.bus.oam = args.oam
    ∧ t.bus.hram = args.hram ∧ t.bus.waveRam = args.waveRam ∧ t.bus.cartRam = args.cartRam
    ∧ (∃ h, loadCart img = .ok h ∧ t.bus.cart = { args.resetRegs.bus.cart with
        variant := h.variant
        romBanks := h.romBanks
        ramBanks := h.ramBanks
        ramSize := h.ramSize
        hasRtc := h.hasRtc
        battery := h.battery
        rtcLive := args.rtcLive
        rtcLatched := args.rtcLatched }))
  ∧ (∀ p ∈ [(0xFF00#16, 0xCF#8), (0xFF01#16, 0x00#8), (0xFF02#16, 0x7E#8), (0xFF04#16, 0xAB#8), (0xFF05#16, 0x00#8)]
      ++ [(0xFF06#16, 0x00#8), (0xFF07#16, 0xF8#8), (0xFF0F#16, 0xE1#8), (0xFF10#16, 0x80#8), (0xFF11#16, 0xBF#8)]
      ++ [(0xFF12#16, 0xF3#8), (0xFF13#16, 0xFF#8), (0xFF14#16, 0xBF#8), (0xFF16#16, 0x3F#8), (0xFF17#16, 0x00#8)]
      ++ [(0xFF18#16, 0xFF#8), (0xFF19#16, 0xBF#8), (0xFF1A#16, 0x7F#8), (0xFF1B#16, 0xFF#8), (0xFF1C#16, 0x9F#8)]
      ++ [(0xFF1D#16, 0xFF#8), (0xFF1E#16, 0xBF#8), (0xFF20#16, 0xFF#8), (0xFF21#16, 0x00#8), (0xFF22#16, 0x00#8)]
      ++ [(0xFF23#16, 0xBF#8), (0xFF24#16, 0x77#8), (0xFF25#16, 0xF3#8), (0xFF26#16, 0xF0#8), (0xFF40#16, 0x91#8)]
      ++ [(0xFF41#16, 0x86#8), (0xFF42#16, 0x00#8), (0xFF43#16, 0x00#8), (0xFF44#16, 0x00#8), (0xFF45#16, 0x00#8)]
      ++ [(0xFF46#16, 0xFF#8), (0xFF47#16, 0xFC#8), (0xFF48#16, 0xFF#8), (0xFF49#16, 0xFF#8), (0xFF4A#16, 0x00#8)]
      ++ [(0xFF4B#16, 0x00#8), (0xFFFF#16, 0x00#8)], s.memRead p.1 = p.2)

/-- Words written from the opcode maps (R159, R161) decode to the instructions the maps name. -/
def Obligations.SampleWords : Prop :=
  decode [0x41#8] = .ok (.ldRR .b .c, []) ∧ decode [0x36#8, 0xAB#8] = .ok (.ldHLN 0xAB#8, [])
  ∧ decode [0x31#8, 0x00#8, 0xD0#8] = .ok (.ldRpNn .sp 0xD000#16, []) ∧ decode [0xF5#8] = .ok (.pushQ .af, [])
  ∧ decode [0x9C#8] = .ok (.sbcR .h, []) ∧ decode [0x29#8] = .ok (.addHLRp .hl, [])
  ∧ decode [0x38#8, 0x10#8] = .ok (.jrCc .c 0x10#8, []) ∧ decode [0xEF#8] = .ok (.rst 5#3, [])
  ∧ decode [0x76#8] = .ok (.halt, []) ∧ decode [0xCB#8, 0x7F#8] = .ok (.bitR 7#3 .a, [])
  ∧ decode [0xCB#8, 0x9E#8] = .ok (.resHL 3#3, []) ∧ decode [0xFD#8, 0x00#8] = .ok (.undefFD, [0x00#8])

/-- Decoding the encoding of a well-formed instruction gives the instruction back, with every operand at every value,
and leaves the bytes after it. -/
def Obligations.DecodeEncode : Prop :=
  ∀ (i : Instr) (rest : List Byte), i.wellFormed = true → decode (encode i ++ rest) = .ok (i, rest)

/-- The machine right after reset meets the invariant. -/
def Obligations.ResetMeetsInvariant : Prop := State.reset.inv = true

/-- Every step keeps the invariant: the low nibble of F is 0 (R22), no hold without `halt_bug` (R42), an OAM copy costs
160 or nothing (R30); memories keep form and size; the PPU's counters, the STAT line, the APU's channels and counters,
the bank registers and the joypad's lines are as the rules that name them say. -/
def Obligations.StepKeepsInvariant : Prop :=
  ∀ s t : State, s.inv = true → step s = .next t → t.inv = true
end

