-- ==== Sys2Proof/Laws/Apu.lean ====
section
/-! SUPPORT. The laws of the APU: each channel operation keeps the channel's part of the invariant, and so do the frame
sequencer, a T-cycle, an advance and every register write. -/

namespace Sys2Proof.Machine

/-! ## Length counters and envelopes -/

theorem LengthCounter.clock_le (l : LengthCounter) : l.clock.1.count ≤ l.count := by
  unfold clock
  split
  · exact Nat.sub_le _ _
  · exact Nat.le_refl _

theorem LengthCounter.refill_le (l : LengthCounter) {m : Nat} (h : l.count ≤ m) : (l.refill m).count ≤ m := by
  unfold refill
  split
  · exact Nat.le_refl _
  · exact h

@[simp] theorem Envelope.clock_nr2 (e : Envelope) : e.clock.nr2 = e.nr2 := by
  unfold clock
  split
  · rfl
  · split <;> rfl

@[simp] theorem Envelope.clock_dac (e : Envelope) : e.clock.dac = e.dac := by simp only [dac, clock_nr2]

@[simp] theorem Envelope.trigger_dac (e : Envelope) : e.trigger.dac = e.dac := rfl

/-! ## Pulse channels -/

namespace Pulse

/-- The channel's part of the invariant, under an APU that is on or off. -/
structure Ok (on : Bool) (c : Pulse) : Prop where
  live : c.on = true → c.env.dac = true ∧ 0 < c.timer ∧ on = true
  len : c.len.count ≤ 64

theorem period_pos (c : Pulse) : 0 < c.period := by
  have := c.freq.isLt
  unfold period
  omega

theorem Ok.tick {on : Bool} {c : Pulse} (h : c.Ok on) : c.tick.Ok on := by
  unfold Pulse.tick
  split
  · rename_i hon
    split
    · exact ⟨fun hc => ⟨(h.live hon).1, period_pos _, (h.live hon).2.2⟩, h.len⟩
    · rename_i ht
      exact ⟨fun hc => ⟨(h.live hon).1, Nat.pos_of_ne_zero ht, (h.live hon).2.2⟩, h.len⟩
  · exact h

theorem Ok.lengthClock {on : Bool} {c : Pulse} (h : c.Ok on) : c.lengthClock.Ok on :=
  ⟨fun hc => h.live (by simp only [Pulse.lengthClock, Bool.and_eq_true] at hc; exact hc.1),
    (LengthCounter.clock_le _).trans h.len⟩

theorem Ok.envelopeClock {on : Bool} {c : Pulse} (h : c.Ok on) : Ok on { c with env := c.env.clock } :=
  ⟨fun hc => by simpa using h.live hc, h.len⟩

theorem Ok.off {on : Bool} {c : Pulse} (h : c.Ok on) (b : Bool) : Ok on { c with on := c.on && b } :=
  ⟨fun hc => h.live (by simp only [Bool.and_eq_true] at hc; exact hc.1), h.len⟩

theorem Ok.setFreq {on : Bool} {c : Pulse} (h : c.Ok on) (f : BitVec 11) : Ok on { c with freq := f } :=
  ⟨h.live, h.len⟩

theorem Ok.trigger {c : Pulse} (h : c.len.count ≤ 64) : c.trigger.Ok true :=
  ⟨fun hc => ⟨hc, period_pos _, rfl⟩, LengthCounter.refill_le _ h⟩

theorem Ok.writeNr1 {on : Bool} {c : Pulse} (h : c.Ok on) (v : Byte) : (c.writeNr1 v).Ok on :=
  ⟨h.live, Nat.sub_le _ _⟩

theorem Ok.writeNr2 {on : Bool} {c : Pulse} (h : c.Ok on) (v : Byte) : (c.writeNr2 v).Ok on :=
  ⟨fun hc => by
    simp only [Pulse.writeNr2, Bool.and_eq_true] at hc
    exact ⟨hc.2, (h.live hc.1).2⟩, h.len⟩

theorem Ok.writeNr3 {on : Bool} {c : Pulse} (h : c.Ok on) (v : Byte) : (c.writeNr3 v).Ok on := ⟨h.live, h.len⟩

theorem Ok.writeNr4 {on : Bool} {c : Pulse} (h : c.Ok on) (v : Byte) : (c.writeNr4 v).Ok on := ⟨h.live, h.len⟩

theorem Ok.powerOff (c : Pulse) : c.powerOff.Ok false := ⟨nofun, Nat.zero_le _⟩

theorem Ok.dutyPos {on : Bool} {c : Pulse} (h : c.Ok on) (d : BitVec 3) : Ok on { c with dutyPos := d } :=
  ⟨h.live, h.len⟩

theorem Ok.powerOn {c : Pulse} (h : c.Ok false) : c.Ok true :=
  ⟨fun hc => absurd (h.live hc).2.2 (by simp), h.len⟩

end Pulse

/-! ## The wave channel -/

namespace Wave

/-- The channel's part of the invariant. -/
structure Ok (on : Bool) (c : Wave) : Prop where
  live : c.on = true → c.dac = true ∧ 0 < c.timer ∧ on = true
  len : c.len.count ≤ 256

theorem period_pos (c : Wave) : 0 < c.period := by
  have := c.freq.isLt
  unfold period
  omega

theorem Ok.tick {on : Bool} {c : Wave} (h : c.Ok on) (wave : Memory) : (c.tick wave).Ok on := by
  unfold Wave.tick
  split
  · rename_i hon
    split
    · exact ⟨fun hc => ⟨(h.live hon).1, period_pos _, (h.live hon).2.2⟩, h.len⟩
    · rename_i ht
      exact ⟨fun hc => ⟨(h.live hon).1, Nat.pos_of_ne_zero ht, (h.live hon).2.2⟩, h.len⟩
  · exact h

theorem Ok.lengthClock {on : Bool} {c : Wave} (h : c.Ok on) : c.lengthClock.Ok on :=
  ⟨fun hc => h.live (by simp only [Wave.lengthClock, Bool.and_eq_true] at hc; exact hc.1),
    (LengthCounter.clock_le _).trans h.len⟩

theorem Ok.trigger {c : Wave} (h : c.len.count ≤ 256) : c.trigger.Ok true :=
  ⟨fun hc => ⟨hc, period_pos _, rfl⟩, LengthCounter.refill_le _ h⟩

theorem Ok.writeNr0 {on : Bool} {c : Wave} (h : c.Ok on) (v : Byte) : (c.writeNr0 v).Ok on :=
  ⟨fun hc => by
    simp only [Wave.writeNr0, Bool.and_eq_true] at hc
    exact ⟨hc.2, (h.live hc.1).2⟩, h.len⟩

theorem Ok.writeNr1 {on : Bool} {c : Wave} (h : c.Ok on) (v : Byte) : (c.writeNr1 v).Ok on :=
  ⟨h.live, Nat.sub_le _ _⟩

theorem Ok.writeNr2 {on : Bool} {c : Wave} (h : c.Ok on) (v : Byte) : (c.writeNr2 v).Ok on := ⟨h.live, h.len⟩

theorem Ok.writeNr3 {on : Bool} {c : Wave} (h : c.Ok on) (v : Byte) : (c.writeNr3 v).Ok on := ⟨h.live, h.len⟩

theorem Ok.writeNr4 {c : Wave} (h : c.Ok true) (v : Byte) : (c.writeNr4 v).Ok true := by
  unfold Wave.writeNr4
  dsimp only
  split
  · exact Ok.trigger h.len
  · exact ⟨h.live, h.len⟩

theorem Ok.powerOff (c : Wave) : c.powerOff.Ok false := ⟨nofun, Nat.zero_le _⟩

theorem Ok.powerOn {c : Wave} (h : c.Ok false) : Ok true { c with pos := 0#5 } :=
  ⟨fun hc => absurd (h.live hc).2.2 (by simp), h.len⟩

end Wave

/-! ## The noise channel -/

namespace Noise

/-- The channel's part of the invariant. -/
structure Ok (on : Bool) (c : Noise) : Prop where
  live : c.on = true → c.env.dac = true ∧ 0 < c.timer ∧ on = true
  len : c.len.count ≤ 64

theorem period_pos (c : Noise) : 0 < c.period := by
  unfold period
  refine Nat.mul_pos ?_ (Nat.pow_pos (by omega))
  split <;> omega

theorem Ok.tick {on : Bool} {c : Noise} (h : c.Ok on) : c.tick.Ok on := by
  unfold Noise.tick
  split
  · rename_i hon
    split
    · exact ⟨fun hc => ⟨(h.live hon).1, period_pos _, (h.live hon).2.2⟩, h.len⟩
    · rename_i ht
      exact ⟨fun hc => ⟨(h.live hon).1, Nat.pos_of_ne_zero ht, (h.live hon).2.2⟩, h.len⟩
  · exact h

theorem Ok.lengthClock {on : Bool} {c : Noise} (h : c.Ok on) : c.lengthClock.Ok on :=
  ⟨fun hc => h.live (by simp only [Noise.lengthClock, Bool.and_eq_true] at hc; exact hc.1),
    (LengthCounter.clock_le _).trans h.len⟩

theorem Ok.envelopeClock {on : Bool} {c : Noise} (h : c.Ok on) : Ok on { c with env := c.env.clock } :=
  ⟨fun hc => by simpa using h.live hc, h.len⟩

theorem Ok.trigger {c : Noise} (h : c.len.count ≤ 64) : c.trigger.Ok true :=
  ⟨fun hc => ⟨hc, period_pos _, rfl⟩, LengthCounter.refill_le _ h⟩

theorem Ok.writeNr1 {on : Bool} {c : Noise} (h : c.Ok on) (v : Byte) : (c.writeNr1 v).Ok on :=
  ⟨h.live, Nat.sub_le _ _⟩

theorem Ok.writeNr2 {on : Bool} {c : Noise} (h : c.Ok on) (v : Byte) : (c.writeNr2 v).Ok on :=
  ⟨fun hc => by
    simp only [Noise.writeNr2, Bool.and_eq_true] at hc
    exact ⟨hc.2, (h.live hc.1).2⟩, h.len⟩

theorem Ok.setNr43 {on : Bool} {c : Noise} (h : c.Ok on) (v : Byte) : Ok on { c with nr43 := v } := ⟨h.live, h.len⟩

theorem Ok.writeNr4 {c : Noise} (h : c.Ok true) (v : Byte) : (c.writeNr4 v).Ok true := by
  unfold Noise.writeNr4
  dsimp only
  split
  · exact Ok.trigger h.len
  · exact ⟨h.live, h.len⟩

theorem Ok.powerOff (c : Noise) : c.powerOff.Ok false := ⟨nofun, Nat.zero_le _⟩

theorem Ok.powerOn {c : Noise} (h : c.Ok false) : c.Ok true :=
  ⟨fun hc => absurd (h.live hc).2.2 (by simp), h.len⟩

end Noise

/-! ## The whole unit -/

namespace Apu

/-- The invariant in parts. -/
structure Ok (a : Apu) : Prop where
  ch1 : a.ch1.Ok a.on
  ch2 : a.ch2.Ok a.on
  ch3 : a.ch3.Ok a.on
  ch4 : a.ch4.Ok a.on
  fs : 0 < a.fsCounter ∧ a.fsCounter ≤ 8192

theorem inv_iff (a : Apu) : a.inv = true ↔ a.Ok := by
  simp only [inv, Bool.and_eq_true, Bool.or_eq_true, Bool.not_eq_true', decide_eq_true_eq]
  constructor
  · rintro ⟨⟨⟨⟨⟨⟨⟨⟨⟨h1, h2⟩, h3⟩, h4⟩, l1⟩, l2⟩, l3⟩, l4⟩, f1⟩, f2⟩
    refine ⟨⟨fun h => ?_, l1⟩, ⟨fun h => ?_, l2⟩, ⟨fun h => ?_, l3⟩, ⟨fun h => ?_, l4⟩, f1, f2⟩
    · simpa [h, and_assoc] using h1
    · simpa [h, and_assoc] using h2
    · simpa [h, and_assoc] using h3
    · simpa [h, and_assoc] using h4
  · rintro ⟨⟨h1, l1⟩, ⟨h2, l2⟩, ⟨h3, l3⟩, ⟨h4, l4⟩, f1, f2⟩
    refine ⟨⟨⟨⟨⟨⟨⟨⟨⟨?_, ?_⟩, ?_⟩, ?_⟩, l1⟩, l2⟩, l3⟩, l4⟩, f1⟩, f2⟩
    · cases h : a.ch1.on with
      | false => exact .inl rfl
      | true => exact .inr (by simpa [and_assoc] using h1 h)
    · cases h : a.ch2.on with
      | false => exact .inl rfl
      | true => exact .inr (by simpa [and_assoc] using h2 h)
    · cases h : a.ch3.on with
      | false => exact .inl rfl
      | true => exact .inr (by simpa [and_assoc] using h3 h)
    · cases h : a.ch4.on with
      | false => exact .inl rfl
      | true => exact .inr (by simpa [and_assoc] using h4 h)

theorem Ok.lengthClock {a : Apu} (h : a.Ok) : a.lengthClock.Ok :=
  ⟨h.ch1.lengthClock, h.ch2.lengthClock, h.ch3.lengthClock, h.ch4.lengthClock, h.fs⟩

theorem Ok.envelopeClock {a : Apu} (h : a.Ok) : a.envelopeClock.Ok :=
  ⟨h.ch1.envelopeClock, h.ch2.envelopeClock, h.ch3, h.ch4.envelopeClock, h.fs⟩

/-- The sweep clock changes the sweep unit, and channel 1 in frequency or by switching it off (R549). -/
theorem sweepClock_spec (a : Apu) : ∃ s f b, a.sweepClock = { a with sweep := s, ch1 := { a.ch1 with freq := f, on := a.ch1.on && b } } := by
  unfold sweepClock
  dsimp only
  split
  · exact ⟨{ a.sweep with timer := a.sweep.timer - 1 }, a.ch1.freq, true, by simp⟩
  · split
    · exact ⟨{ a.sweep with timer := a.sweep.reload }, a.ch1.freq, true, by simp⟩
    · split
      · exact ⟨{ a.sweep with timer := a.sweep.reload }, a.ch1.freq, false, by simp⟩
      · split
        · exact ⟨{ a.sweep with timer := a.sweep.reload }, a.ch1.freq, true, by simp⟩
        · exact ⟨_, _, _, rfl⟩

theorem Ok.sweepClock {a : Apu} (h : a.Ok) : a.sweepClock.Ok := by
  obtain ⟨s, f, b, he⟩ := a.sweepClock_spec
  rw [he]
  exact ⟨(h.ch1.off b).setFreq f, h.ch2, h.ch3, h.ch4, h.fs⟩

theorem Ok.frameStep {a : Apu} (h : a.Ok) : a.frameStep.Ok := by
  unfold Apu.frameStep
  dsimp only
  have h1 : (if a.fsStep.toNat % 2 = 0 then a.lengthClock else a).Ok := by
    split
    · exact h.lengthClock
    · exact h
  generalize (if a.fsStep.toNat % 2 = 0 then a.lengthClock else a) = b at *
  have h2 : (if a.fsStep.toNat = 2 ∨ a.fsStep.toNat = 6 then b.sweepClock else b).Ok := by
    split
    · exact h1.sweepClock
    · exact h1
  generalize (if a.fsStep.toNat = 2 ∨ a.fsStep.toNat = 6 then b.sweepClock else b) = c at *
  have h3 : (if a.fsStep.toNat = 7 then c.envelopeClock else c).Ok := by
    split
    · exact h2.envelopeClock
    · exact h2
  exact ⟨h3.ch1, h3.ch2, h3.ch3, h3.ch4, h3.fs⟩

theorem Ok.clockChannels {a : Apu} (h : a.Ok) (wave : Memory) : (a.clockChannels wave).Ok := by
  unfold Apu.clockChannels
  dsimp only
  have h1 : (if a.fsCounter - 1 = 0 then { a with fsCounter := 8192 }.frameStep
      else { a with fsCounter := a.fsCounter - 1 }).Ok := by
    split
    · exact Ok.frameStep ⟨h.ch1, h.ch2, h.ch3, h.ch4, by simp⟩
    · exact ⟨h.ch1, h.ch2, h.ch3, h.ch4, by have := h.fs; simp only; omega⟩
  exact ⟨h1.ch1.tick, h1.ch2.tick, h1.ch3.tick wave, h1.ch4.tick, h1.fs⟩

theorem Ok.tick {a : Apu} (h : a.Ok) (prm : Params) (wave : Memory) : (a.tick prm wave).Ok := by
  have h1 : (if a.on then a.clockChannels wave else a).Ok := by
    split
    · exact h.clockChannels wave
    · exact h
  unfold Apu.tick
  generalize (if a.on then a.clockChannels wave else a) = b at h1 ⊢
  unfold sampleTick
  dsimp only
  split <;> exact ⟨h1.ch1, h1.ch2, h1.ch3, h1.ch4, h1.fs⟩

theorem Ok.advance {a : Apu} (h : a.Ok) (prm : Params) (wave : Memory) (t : Nat) : (a.advance prm wave t).Ok := by
  induction t generalizing a with
  | zero => exact h
  | succ t ih => exact ih (h.tick prm wave)

/-! ## Register writes -/

theorem Ok.writeNr14 {a : Apu} (h : a.Ok) (hon : a.on = true) (v : Byte) : (a.writeNr14 v).Ok := by
  unfold Apu.writeNr14
  dsimp only
  split
  · have h1 : ({ a.ch1.writeNr4 v with } : Pulse).trigger.Ok a.on := hon ▸ Pulse.Ok.trigger h.ch1.len
    exact ⟨h1.off _, h.ch2, h.ch3, h.ch4, h.fs⟩
  · exact ⟨h.ch1.writeNr4 v, h.ch2, h.ch3, h.ch4, h.fs⟩

theorem Ok.writeNr24 {a : Apu} (h : a.Ok) (hon : a.on = true) (v : Byte) : (a.writeNr24 v).Ok := by
  unfold Apu.writeNr24
  refine ⟨h.ch1, ?_, h.ch3, h.ch4, h.fs⟩
  dsimp only
  split
  · exact hon ▸ Pulse.Ok.trigger h.ch2.len
  · exact h.ch2.writeNr4 v

theorem Ok.powerOff (a : Apu) (h : a.Ok) : a.powerOff.Ok :=
  ⟨Pulse.Ok.powerOff _, Pulse.Ok.powerOff _, Wave.Ok.powerOff _, Noise.Ok.powerOff _, h.fs⟩

theorem Ok.powerOn {a : Apu} (h : a.Ok) (hoff : a.on = false) : a.powerOn.Ok :=
  ⟨(hoff ▸ h.ch1 : a.ch1.Ok false).powerOn.dutyPos _, (hoff ▸ h.ch2 : a.ch2.Ok false).powerOn.dutyPos _,
    (hoff ▸ h.ch3 : a.ch3.Ok false).powerOn, (hoff ▸ h.ch4 : a.ch4.Ok false).powerOn, by simp [Apu.powerOn]⟩

theorem Ok.writeNr52 {a : Apu} (h : a.Ok) (v : Byte) : (a.writeNr52 v).Ok := by
  unfold Apu.writeNr52
  split
  · exact h.powerOff
  · split
    · rename_i h2
      simp only [Bool.and_eq_true, Bool.not_eq_true'] at h2
      exact h.powerOn h2.1
    · exact h

end Apu

end Sys2Proof.Machine
end

