-- ==== Sys2Proof/Laws/Boot.lean ====
section
/-! SUPPORT. What the reset procedure can do (R600, R601): it refuses exactly when the load is refused, and otherwise
gives one state. -/

namespace Sys2Proof.Machine

/-- A load is refused with the header's refusal (R112). -/
theorem boot_error {args : BootArgs} {img : RomImage} {e : LoadError} (h : loadCart img = .error e) :
    boot args img = .error e := by
  simp [boot, h]

/-- A machine comes from an image that loads, and from it only this one. -/
theorem boot_ok {args : BootArgs} {img : RomImage} {t : State} (h : boot args img = .ok t) :
    ∃ c, loadCart img = .ok c ∧ t = { args.resetRegs with
      regs.pc := entryPoint
      opAddr := entryPoint
      cycles := 0
      bus := bootBus args img c
      params := args.params } := by
  unfold boot at h
  split at h
  · cases h
  · cases h
    exact ⟨_, ‹_›, rfl⟩

end Sys2Proof.Machine
end

