-- ==== Sys2Proof/Laws/Memory.lean ====
section
/-! SUPPORT. The laws of one byte array: a read after a write, and that a write keeps the canonical form and the
size. -/

namespace Sys2Proof.Machine.Memory

@[simp] theorem read_nil (a : Nat) : read [] a = unlisted := rfl

theorem read_lt_of_risingFrom {lo : Nat} {m : Memory} (h : risingFrom lo m = true) {a : Nat} (ha : a < lo) :
    read m a = unlisted := by
  induction m generalizing lo with
  | nil => rfl
  | cons c m ih =>
    simp only [risingFrom, Bool.and_eq_true, decide_eq_true_eq] at h
    have hne : a ≠ c.1 := by omega
    simpa [read, hne] using ih h.2 (by omega)

theorem risingFrom_mono {lo lo' : Nat} {m : Memory} (h : risingFrom lo m = true) (hle : lo' ≤ lo) :
    risingFrom lo' m = true := by
  cases m with
  | nil => rfl
  | cons c m =>
    simp only [risingFrom, Bool.and_eq_true, decide_eq_true_eq] at h ⊢
    exact ⟨by omega, h.2⟩

theorem risingFrom_write {lo : Nat} {m : Memory} (h : risingFrom lo m = true) {a : Nat} (ha : lo ≤ a) (v : Byte) :
    risingFrom lo (write m a v) = true := by
  induction m generalizing lo with
  | nil =>
    by_cases hv : v = unlisted
    · simp [write, hv, risingFrom]
    · simp [write, hv, risingFrom, ha]
  | cons c m ih =>
    simp only [risingFrom, Bool.and_eq_true, decide_eq_true_eq] at h
    obtain hlt | heq | hgt := Nat.lt_trichotomy a c.1
    · by_cases hv : v = unlisted
      · simp [write, hlt, hv, risingFrom, h.1, h.2]
      · simp [write, hlt, hv, risingFrom, ha, h.2]
    · subst heq
      by_cases hv : v = unlisted
      · simpa [write, hv] using risingFrom_mono h.2 (by omega)
      · simp [write, hv, risingFrom, h.1, h.2]
    · have h1 : ¬ a < c.1 := by omega
      have h2 : a ≠ c.1 := by omega
      simp [write, h1, h2, risingFrom, h.1, ih h.2 (by omega)]

/-- A read after a write, on an array whose offsets rise. -/
theorem read_write_of_risingFrom {lo : Nat} {m : Memory} (h : risingFrom lo m = true) (a : Nat) (v : Byte) (x : Nat) :
    read (write m a v) x = if x = a then v else read m x := by
  induction m generalizing lo with
  | nil => by_cases hv : v = unlisted <;> simp [write, hv, read]
  | cons c m ih =>
    simp only [risingFrom, Bool.and_eq_true, decide_eq_true_eq] at h
    obtain hlt | heq | hgt := Nat.lt_trichotomy a c.1
    · by_cases hv : v = unlisted
      · by_cases hx : x = a
        · have hne : x ≠ c.1 := by omega
          subst hx
          simpa [write, hlt, hv, read, hne] using read_lt_of_risingFrom h.2 (by omega)
        · simp [write, hlt, hv, hx]
      · simp [write, hlt, hv, read]
    · subst heq
      by_cases hx : x = c.1
      · subst hx
        by_cases hv : v = unlisted
        · simpa [write, hv] using read_lt_of_risingFrom h.2 (by omega)
        · simp [write, hv, read]
      · by_cases hv : v = unlisted <;> simp [write, hv, read, hx]
    · have h1 : ¬ a < c.1 := by omega
      have h2 : a ≠ c.1 := by omega
      by_cases hx : x = c.1
      · subst hx
        simp [write, h1, h2, read, Ne.symm h2]
      · simp [write, h1, h2, read, hx, ih h.2]

theorem all_write {p : Host.Cell → Bool} {m : Memory} (h : m.all p = true) (a : Nat) (v : Byte)
    (hp : v ≠ unlisted → p (a, v) = true) : (write m a v).all p = true := by
  induction m with
  | nil => by_cases hv : v = unlisted <;> simp [write, hv, hp]
  | cons c m ih =>
    simp only [List.all_cons, Bool.and_eq_true] at h
    by_cases h1 : a < c.1
    · by_cases hv : v = unlisted
      · simp only [write, h1, hv, if_true, List.all_cons, h.1, h.2, Bool.and_true]
      · simp only [write, h1, hv, if_true, if_false, List.all_cons, h.1, h.2, hp hv, Bool.and_true]
    · by_cases h2 : a = c.1
      · by_cases hv : v = unlisted
        · simp only [write, h2, hv, if_true, if_false, Nat.lt_irrefl, h.2]
        · simp only [write, ← h2, hv, if_true, if_false, Nat.lt_irrefl, List.all_cons, hp hv, h.2, Bool.and_true]
      · simp only [write, h1, h2, if_false, List.all_cons, h.1, ih h.2, Bool.and_true]

theorem wf_nil : wf [] = true := rfl

/-- A write keeps the canonical form. -/
theorem wf_write {m : Memory} (h : m.wf = true) (a : Nat) (v : Byte) : (m.write a v).wf = true := by
  simp only [wf, Bool.and_eq_true] at h ⊢
  exact ⟨risingFrom_write h.1 (by omega) v, all_write h.2 a v (by simp)⟩

/-- A read after a write. -/
theorem read_write {m : Memory} (h : m.wf = true) (a : Nat) (v : Byte) (x : Nat) :
    (m.write a v).read x = if x = a then v else m.read x := by
  simp only [wf, Bool.and_eq_true] at h
  exact read_write_of_risingFrom h.1 a v x

/-- A write below the size of the array keeps its size. -/
theorem below_write {n : Nat} {m : Memory} (h : m.below n = true) {a : Nat} (ha : a < n) (v : Byte) :
    (m.write a v).below n = true :=
  all_write h a v (by simp [ha])

/-- Equal canonical arrays are those that read alike. -/
theorem eq_of_read_eq_of_risingFrom {lo : Nat} {m m' : Memory} (h : risingFrom lo m = true)
    (h' : risingFrom lo m' = true) (hn : m.all (fun c => c.2 ≠ unlisted) = true)
    (hn' : m'.all (fun c => c.2 ≠ unlisted) = true) (he : ∀ a, read m a = read m' a) : m = m' := by
  induction m generalizing lo m' with
  | nil =>
    cases m' with
    | nil => rfl
    | cons c m' =>
      have := he c.1
      simp only [List.all_cons, Bool.and_eq_true, decide_eq_true_eq] at hn'
      simp [read, Ne.symm hn'.1] at this
  | cons c m ih =>
    cases m' with
    | nil =>
      have := he c.1
      simp only [List.all_cons, Bool.and_eq_true, decide_eq_true_eq] at hn
      simp [read, hn.1] at this
    | cons d m' =>
      simp only [risingFrom, Bool.and_eq_true, decide_eq_true_eq] at h h'
      simp only [List.all_cons, Bool.and_eq_true, decide_eq_true_eq] at hn hn'
      have hcd : c.1 = d.1 := by
        obtain hlt | heq | hgt := Nat.lt_trichotomy c.1 d.1
        · have h1 := he c.1
          have h2 := read_lt_of_risingFrom h'.2 (a := c.1) (by omega)
          simp only [read, if_true, Nat.ne_of_lt hlt, if_false, h2] at h1
          exact absurd h1 hn.1
        · exact heq
        · have h1 := he d.1
          have h2 := read_lt_of_risingFrom h.2 (a := d.1) (by omega)
          simp only [read, if_true, Nat.ne_of_lt hgt, if_false, h2] at h1
          exact absurd h1.symm hn'.1
      have hv : c.2 = d.2 := by simpa [read, hcd] using he c.1
      have hcons : c = d := Prod.ext hcd hv
      subst hcons
      refine congrArg (List.cons c) (ih h.2 h'.2 hn.2 hn'.2 fun a => ?_)
      by_cases hac : a = c.1
      · subst hac
        rw [read_lt_of_risingFrom h.2 (by omega), read_lt_of_risingFrom h'.2 (by omega)]
      · simpa [read, hac] using he a

/-- Canonical arrays that read alike are equal. -/
theorem eq_of_read_eq {m m' : Memory} (h : m.wf = true) (h' : m'.wf = true) (he : ∀ a, m.read a = m'.read a) :
    m = m' := by
  simp only [wf, Bool.and_eq_true] at h h'
  exact eq_of_read_eq_of_risingFrom h.1 h'.1 h.2 h'.2 he

end Sys2Proof.Machine.Memory
end

