-- ==== Sys2Proof/Laws/Regs.lean ====
section
/-! SUPPORT. The laws of register operands, pairs and flags. -/

namespace Sys2Proof.Machine.Regs

variable (r : Regs)

theorem get8_set8 (x y : Reg8) (v : Byte) : (r.set8 v x).get8 y = if y = x then v else r.get8 y := by
  cases x <;> cases y <;> rfl

@[simp] theorem get8_set8_self (x : Reg8) (v : Byte) : (r.set8 v x).get8 x = v := by cases x <;> rfl

theorem get8_set8_of_ne {x y : Reg8} (h : y ≠ x) (v : Byte) : (r.set8 v x).get8 y = r.get8 y := by
  simp [get8_set8, h]

@[simp] theorem set8_f (x : Reg8) (v : Byte) : (r.set8 v x).f = r.f := by cases x <;> rfl
@[simp] theorem set8_sp (x : Reg8) (v : Byte) : (r.set8 v x).sp = r.sp := by cases x <;> rfl
@[simp] theorem set8_pc (x : Reg8) (v : Byte) : (r.set8 v x).pc = r.pc := by cases x <;> rfl
@[simp] theorem set8_a (v : Byte) : (r.set8 v .a).a = v := rfl

@[simp] theorem setFlags_get8 (z n h c : Bool) (x : Reg8) : (r.setFlags z n h c).get8 x = r.get8 x := by
  cases x <;> rfl
@[simp] theorem setFlags_sp (z n h c : Bool) : (r.setFlags z n h c).sp = r.sp := rfl
@[simp] theorem setFlags_pc (z n h c : Bool) : (r.setFlags z n h c).pc = r.pc := rfl
@[simp] theorem setFlags_a (z n h c : Bool) : (r.setFlags z n h c).a = r.a := rfl

/-- What `setFlags` makes of the four flags and the low nibble. -/
theorem setFlags_flagsAre (z n h c : Bool) : (r.setFlags z n h c).FlagsAre z n h c := by
  refine ⟨?_, ?_, ?_, ?_, ?_⟩ <;> simp only [setFlags, flagZ, flagN, flagH, flagC] <;>
    revert z n h c <;> decide

@[simp] theorem setFlags_lowNibble (z n h c : Bool) : (r.setFlags z n h c).f.extractLsb' 0 4 = 0#4 :=
  (setFlags_flagsAre r z n h c).2.2.2.2

theorem getLsbD_ofBytes (x y : Byte) (i : Nat) :
    (Word.ofBytes x y).getLsbD i = if i < 8 then y.getLsbD i else x.getLsbD (i - 8) := by
  change (x ++ y).getLsbD i = _
  rw [BitVec.getLsbD_append]

@[simp] theorem ofBytes_hi_lo (w : Word) : Word.ofBytes (Word.hi w) (Word.lo w) = w := by
  refine BitVec.eq_of_getLsbD_eq fun i hi => ?_
  rw [getLsbD_ofBytes]
  by_cases h : i < 8
  · simp [h, Word.lo]
  · have h1 : 8 + (i - 8) = i := by omega
    have h2 : i - 8 < 8 := by omega
    simp [h, Word.hi, h1, h2]

@[simp] theorem hi_ofBytes (x y : Byte) : Word.hi (Word.ofBytes x y) = x := by
  refine BitVec.eq_of_getLsbD_eq fun i hi => ?_
  have h : ¬ 8 + i < 8 := by omega
  rw [Word.hi, BitVec.getLsbD_extractLsb', getLsbD_ofBytes]
  simp [hi, h]

@[simp] theorem lo_ofBytes (x y : Byte) : Word.lo (Word.ofBytes x y) = y := by
  refine BitVec.eq_of_getLsbD_eq fun i hi => ?_
  rw [Word.lo, BitVec.getLsbD_extractLsb', getLsbD_ofBytes]
  simp [hi]

theorem toNat_ofBytes (x y : Byte) : (Word.ofBytes x y).toNat = x.toNat * 256 + y.toNat := by
  change (x ++ y).toNat = _
  rw [BitVec.toNat_append, Nat.shiftLeft_eq, Nat.mul_comm, ← Nat.two_pow_add_eq_or_of_lt y.isLt]

@[simp] theorem get16_set16_self (p : Reg16) (v : Word) : (r.set16 v p).get16 p = v := by
  cases p <;> simp [set16, get16, setHL, bc, de, hl]

@[simp] theorem set16_f (p : Reg16) (v : Word) : (r.set16 v p).f = r.f := by cases p <;> rfl
@[simp] theorem set16_pc (p : Reg16) (v : Word) : (r.set16 v p).pc = r.pc := by cases p <;> rfl
@[simp] theorem set16_a (p : Reg16) (v : Word) : (r.set16 v p).a = r.a := by cases p <;> rfl

theorem get16_set16_of_ne {p q : Reg16} (h : q ≠ p) (v : Word) : (r.set16 v p).get16 q = r.get16 q := by
  cases p <;> cases q <;> first | rfl | exact absurd rfl h

@[simp] theorem getStk_setStk_self (q : RegStk) (v : Word) (h : q ≠ .af) : (r.setStk v q).getStk q = v := by
  cases q <;> simp_all [setStk, getStk, setHL, set16, bc, de, hl]

@[simp] theorem setStk_sp (q : RegStk) (v : Word) : (r.setStk v q).sp = r.sp := by cases q <;> rfl
@[simp] theorem setStk_pc (q : RegStk) (v : Word) : (r.setStk v q).pc = r.pc := by cases q <;> rfl

end Sys2Proof.Machine.Regs
end

