-- ==== Sys2Proof/Laws/Bus.lean ====
section
/-! SUPPORT. The laws of the bus: what a write can do, that it keeps the memories' invariant, and what every address
reads after it. -/

namespace Sys2Proof.Machine

/-! ## Places -/

/-- The offset of a place is below the size of its memory. -/
def Place.inRange : Place → Bool
  | .vram o => o < 8192
  | .wram o => o < 8192
  | .oam o => o < 160
  | .wave o => o < 16
  | .hram o => o < 127
  | _ => true

/-- A place of the I/O block: a wave byte, a register or nothing. -/
theorem Place.ofIo_cases (o : Nat) :
    (∃ k, Place.ofIo o = .wave k ∧ k < 16) ∨ (∃ r, Place.ofIo o = .io r) ∨ Place.ofIo o = .absent := by
  unfold Place.ofIo
  by_cases h : 0x30 ≤ o ∧ o ≤ 0x3F
  · exact .inl ⟨o - 0x30, by rw [if_pos h], by omega⟩
  · rw [if_neg h]
    cases IoReg.ofOffset o with
    | none => exact .inr (.inr rfl)
    | some r => exact .inr (.inl ⟨r, rfl⟩)

/-- Outside the cartridge's windows, the place of an address, whatever the cartridge (R63). -/
theorem Cart.place_outside (a : Word) (h1 : ¬ a.toNat ≤ 0x7FFF)
    (h2 : ¬ (0xA000 ≤ a.toNat ∧ a.toNat ≤ 0xBFFF)) :
    ∃ p, (∀ c : Cart, c.place a = p) ∧
      ((∃ o, p = .vram o ∧ o < 8192) ∨ (∃ o, p = .wram o ∧ o < 8192) ∨ (∃ o, p = .oam o ∧ o < 160)
        ∨ (∃ o, p = .wave o ∧ o < 16) ∨ (∃ r, p = .io r) ∨ (∃ o, p = .hram o ∧ o < 127) ∨ p = .ie
        ∨ p = .absent) := by
  have ha := a.isLt
  by_cases h3 : a.toNat ≤ 0x9FFF
  · exact ⟨.vram (a.toNat - 0x8000), fun c => by simp [Cart.place, h1, h3], .inl ⟨_, rfl, by omega⟩⟩
  have h4 : ¬ a.toNat ≤ 0xBFFF := by omega
  by_cases h5 : a.toNat ≤ 0xDFFF
  · exact ⟨.wram (a.toNat - 0xC000), fun c => by simp [Cart.place, h1, h3, h4, h5],
      .inr (.inl ⟨_, rfl, by omega⟩)⟩
  by_cases h6 : a.toNat ≤ 0xFDFF
  · exact ⟨.wram (a.toNat - 0xE000), fun c => by simp [Cart.place, h1, h3, h4, h5, h6],
      .inr (.inl ⟨_, rfl, by omega⟩)⟩
  by_cases h7 : a.toNat ≤ 0xFE9F
  · exact ⟨.oam (a.toNat - 0xFE00), fun c => by simp [Cart.place, h1, h3, h4, h5, h6, h7],
      .inr (.inr (.inl ⟨_, rfl, by omega⟩))⟩
  by_cases h8 : a.toNat ≤ 0xFEFF
  · exact ⟨.absent, fun c => by simp [Cart.place, h1, h3, h4, h5, h6, h7, h8], by simp⟩
  by_cases h9 : a.toNat ≤ 0xFF7F
  · refine ⟨Place.ofIo (a.toNat - 0xFF00), fun c => by simp [Cart.place, h1, h3, h4, h5, h6, h7, h8, h9], ?_⟩
    obtain ⟨k, hk, hlt⟩ | ⟨r, hr⟩ | h := Place.ofIo_cases (a.toNat - 0xFF00)
    · rw [hk]; exact .inr (.inr (.inr (.inl ⟨k, rfl, hlt⟩)))
    · rw [hr]; simp
    · rw [h]; simp
  by_cases h10 : a.toNat ≤ 0xFFFE
  · exact ⟨.hram (a.toNat - 0xFF80), fun c => by simp [Cart.place, h1, h3, h4, h5, h6, h7, h8, h9, h10],
      .inr (.inr (.inr (.inr (.inr (.inl ⟨_, rfl, by omega⟩)))))⟩
  · exact ⟨.ie, fun c => by simp [Cart.place, h1, h3, h4, h5, h6, h7, h8, h9, h10], by simp⟩

theorem Cart.place_rom (c : Cart) (a : Word) (h : a.toNat ≤ 0x7FFF) : c.place a = .rom (c.romOffset a.toNat) := by
  simp [Cart.place, h]

theorem Cart.place_window (c : Cart) (a : Word) (h1 : 0xA000 ≤ a.toNat) (h2 : a.toNat ≤ 0xBFFF) :
    c.place a = Place.ofRamTarget (c.ramTarget a.toNat) := by
  have h3 : ¬ a.toNat ≤ 0x7FFF := by omega
  have h4 : ¬ a.toNat ≤ 0x9FFF := by omega
  simp [Cart.place, h2, h3, h4]

theorem Cart.place_vram (c : Cart) (a : Word) (h1 : 0x8000 ≤ a.toNat) (h2 : a.toNat ≤ 0x9FFF) :
    c.place a = .vram (a.toNat - 0x8000) := by
  simp [Cart.place, h2, Nat.not_le.2 (show 0x7FFF < a.toNat by omega)]

theorem Cart.place_oam (c : Cart) (a : Word) (h1 : 0xFE00 ≤ a.toNat) (h2 : a.toNat ≤ 0xFE9F) :
    c.place a = .oam (a.toNat - 0xFE00) := by
  simp [Cart.place, h2, Nat.not_le.2 (show 0x7FFF < a.toNat by omega), Nat.not_le.2 (show 0x9FFF < a.toNat by omega),
    Nat.not_le.2 (show 0xBFFF < a.toNat by omega), Nat.not_le.2 (show 0xDFFF < a.toNat by omega),
    Nat.not_le.2 (show 0xFDFF < a.toNat by omega)]

theorem Cart.place_inRange (c : Cart) (a : Word) : (c.place a).inRange = true := by
  by_cases h1 : a.toNat ≤ 0x7FFF
  · rw [c.place_rom a h1]; rfl
  by_cases h2 : 0xA000 ≤ a.toNat ∧ a.toNat ≤ 0xBFFF
  · rw [c.place_window a h2.1 h2.2]; cases c.ramTarget a.toNat <;> rfl
  obtain ⟨p, hp, h⟩ := Cart.place_outside a h1 h2
  rw [hp]
  obtain ⟨o, rfl, h⟩ | ⟨o, rfl, h⟩ | ⟨o, rfl, h⟩ | ⟨o, rfl, h⟩ | ⟨r, rfl⟩ | ⟨o, rfl, h⟩ | rfl | rfl := h <;>
    simp_all [Place.inRange]

/-- Outside the two cartridge windows the place of an address does not depend on the cartridge. -/
theorem Cart.place_of_outside (c c' : Cart) (a : Word) (h1 : ¬ a.toNat ≤ 0x7FFF)
    (h2 : ¬ (0xA000 ≤ a.toNat ∧ a.toNat ≤ 0xBFFF)) : c'.place a = c.place a := by
  obtain ⟨p, hp, -⟩ := Cart.place_outside a h1 h2
  rw [hp, hp]

/-- The targets of one cartridge's RAM window are bytes or nibbles, never both. -/
theorem Cart.not_nibble_of_ram (c : Cart) {a a' : Nat} {o o' : Nat} (h : c.ramTarget a = .ram o) :
    c.ramTarget a' ≠ .nibble o' := by
  unfold Cart.ramTarget at h ⊢
  cases hv : c.variant <;> simp only [hv] at h ⊢ <;> split_ifs at h ⊢ <;> simp_all

/-- Cartridge RAM is reached in its window only. -/
theorem Cart.ramTarget_of_place {c : Cart} {a : Word} {o : Nat} :
    (c.place a = .cartRam o → c.ramTarget a.toNat = .ram o)
      ∧ (c.place a = .cartNibble o → c.ramTarget a.toNat = .nibble o) := by
  by_cases h1 : a.toNat ≤ 0x7FFF
  · rw [c.place_rom a h1]; simp
  by_cases h2 : 0xA000 ≤ a.toNat ∧ a.toNat ≤ 0xBFFF
  · rw [c.place_window a h2.1 h2.2]; cases c.ramTarget a.toNat <;> simp [Place.ofRamTarget]
  obtain ⟨p, hp, h⟩ := Cart.place_outside a h1 h2
  rw [hp]
  obtain ⟨o, rfl, h⟩ | ⟨o, rfl, h⟩ | ⟨o, rfl, h⟩ | ⟨o, rfl, h⟩ | ⟨r, rfl⟩ | ⟨o, rfl, h⟩ | rfl | rfl := h <;> simp

theorem Cart.not_both_ram (c : Cart) {a a' : Word} {o o' : Nat} (h : c.place a = .cartRam o) :
    c.place a' ≠ .cartNibble o' := fun h' =>
  c.not_nibble_of_ram (Cart.ramTarget_of_place.1 h) (Cart.ramTarget_of_place.2 h')

/-! ## The memories' invariant -/

namespace Bus

variable (b : Bus)

/-- The memories' invariant in parts. -/
theorem memInv_iff : b.memInv = true ↔
    b.rom.wf = true ∧ b.cartRam.wf = true ∧ b.vram.wf = true ∧ b.wram.wf = true ∧ b.oam.wf = true
      ∧ b.hram.wf = true ∧ b.waveRam.wf = true ∧ b.vram.below 8192 = true ∧ b.wram.below 8192 = true
      ∧ b.oam.below 160 = true ∧ b.hram.below 127 = true ∧ b.waveRam.below 16 = true := by
  simp only [memInv, Bool.and_eq_true, and_assoc]

/-- A bus with the same memories has the same invariant. -/
theorem memInv_congr {b c : Bus} (h1 : c.rom = b.rom) (h2 : c.cartRam = b.cartRam) (h3 : c.vram = b.vram)
    (h4 : c.wram = b.wram) (h5 : c.oam = b.oam) (h6 : c.hram = b.hram) (h7 : c.waveRam = b.waveRam) :
    c.memInv = b.memInv := by
  simp only [memInv, h1, h2, h3, h4, h5, h6, h7]

@[simp] theorem request_memInv (m : BitVec 5) : (b.request m).memInv = b.memInv := rfl

/-! ## What the OAM copy does -/

/-- The OAM copy changes OAM only. -/
theorem dmaCopy_eq (v : Byte) (n : Nat) : ∃ m, dmaCopy v n b = { b with oam := m } := by
  induction n with
  | zero => exact ⟨b.oam, rfl⟩
  | succ n ih =>
    obtain ⟨m, h⟩ := ih
    exact ⟨_, by simp only [dmaCopy, h]; rfl⟩

/-- A write of DMA changes the register, OAM and the cost (R90). -/
theorem dmaWrite_eq (v : Byte) :
    ∃ m, b.dmaWrite v = { b with ppu.dma := v, oam := m, dmaCost := 160 } ∧ dmaCopy v 160 { b with ppu.dma := v } =
      { b with ppu.dma := v, oam := m } := by
  obtain ⟨m, h⟩ := dmaCopy_eq { b with ppu.dma := v } v 160
  exact ⟨m, by unfold dmaWrite; rw [h], h⟩

theorem dmaCopy_memInv (v : Byte) (n : Nat) (hn : n ≤ 160) (h : b.memInv = true) : (dmaCopy v n b).memInv = true := by
  induction n with
  | zero => exact h
  | succ n ih =>
    have ih := (memInv_iff _).1 (ih (by omega))
    simp only [memInv_iff, dmaCopy]
    simp only [ih, Memory.wf_write ih.2.2.2.2.1, true_and, and_true]
    exact Memory.below_write ih.2.2.2.2.2.2.2.2.2.1 (by omega) _

/-! ## Writes -/

/-- A write to an I/O register other than DMA changes no memory and no cartridge register; DMA changes OAM. -/
theorem ioWrite_memories (v : Byte) (r : IoReg) :
    (b.ioWrite v r).rom = b.rom ∧ (b.ioWrite v r).cartRam = b.cartRam ∧ (b.ioWrite v r).vram = b.vram
      ∧ (b.ioWrite v r).wram = b.wram ∧ (b.ioWrite v r).hram = b.hram ∧ (b.ioWrite v r).waveRam = b.waveRam
      ∧ (b.ioWrite v r).cart = b.cart ∧ (b.ioWrite v r).ie = b.ie
      ∧ (r ≠ .dma → (b.ioWrite v r).oam = b.oam ∧ (b.ioWrite v r).dmaCost = b.dmaCost) := by
  cases r <;> first
    | (simp only [ioWrite, apuWrite]; split <;> simp)
    | (simp only [ioWrite]
       obtain ⟨m, h, -⟩ := b.dmaWrite_eq v
       rw [h]
       simp)
    | simp [ioWrite, joyEvaluate, ppuEffect, request]

theorem ioWrite_memInv (v : Byte) (r : IoReg) (h : b.memInv = true) : (b.ioWrite v r).memInv = true := by
  by_cases hr : r = .dma
  · subst hr
    obtain ⟨m, h1, h2⟩ := b.dmaWrite_eq v
    have h3 := dmaCopy_memInv { b with ppu.dma := v } v 160 (Nat.le_refl _) h
    rw [h2] at h3
    rw [ioWrite, h1]
    exact h3
  · have hm := b.ioWrite_memories v r
    rw [memInv_congr (b := b) hm.1 hm.2.1 hm.2.2.1 hm.2.2.2.1 (hm.2.2.2.2.2.2.2.2 hr).1 hm.2.2.2.2.1
      hm.2.2.2.2.2.1]
    exact h

theorem writePlace_memInv (a : Word) (v : Byte) (p : Place) (hp : p.inRange = true) (h : b.memInv = true) :
    (b.writePlace a v p).memInv = true := by
  have hi := (memInv_iff b).1 h
  cases p with
  | io r => exact b.ioWrite_memInv v r h
  | rom | rtc | ie | absent => exact h
  | cartRam o => simp only [memInv_iff, writePlace, hi, Memory.wf_write hi.2.1, and_self]
  | cartNibble o => simp only [memInv_iff, writePlace, hi, Memory.wf_write hi.2.1, and_self]
  | vram o =>
    simp only [memInv_iff, writePlace, hi, Memory.wf_write hi.2.2.1, true_and, and_true]
    exact Memory.below_write hi.2.2.2.2.2.2.2.1 (by simpa [Place.inRange] using hp) _
  | wram o =>
    simp only [memInv_iff, writePlace, hi, Memory.wf_write hi.2.2.2.1, true_and, and_true]
    exact Memory.below_write hi.2.2.2.2.2.2.2.2.1 (by simpa [Place.inRange] using hp) _
  | oam o =>
    simp only [memInv_iff, writePlace, hi, Memory.wf_write hi.2.2.2.2.1, true_and, and_true]
    exact Memory.below_write hi.2.2.2.2.2.2.2.2.2.1 (by simpa [Place.inRange] using hp) _
  | hram o =>
    simp only [memInv_iff, writePlace, hi, Memory.wf_write hi.2.2.2.2.2.1, true_and, and_true]
    exact Memory.below_write hi.2.2.2.2.2.2.2.2.2.2.1 (by simpa [Place.inRange] using hp) _
  | wave o =>
    simp only [memInv_iff, writePlace, hi, Memory.wf_write hi.2.2.2.2.2.2.1, true_and]
    exact Memory.below_write hi.2.2.2.2.2.2.2.2.2.2.2 (by simpa [Place.inRange] using hp) _

/-- A bus write keeps the memories' invariant. -/
theorem write_memInv (prm : Params) (a : Word) (v : Byte) (h : b.memInv = true) : (b.write prm a v).memInv = true := by
  unfold write
  split
  · exact h
  · exact b.writePlace_memInv a v _ (Cart.place_inRange _ _) h

/-! ## What reads give after a write -/

/-- The bits a nibble cell keeps (R132). -/
theorem low_nibble_and (v : Byte) : (v &&& 0x0F#8).extractLsb' 0 4 = v.extractLsb' 0 4 := by
  refine BitVec.eq_of_getLsbD_eq fun i hi => ?_
  simp only [BitVec.getLsbD_extractLsb', BitVec.getLsbD_and, Nat.zero_add, hi, decide_true, Bool.true_and]
  have : (0x0F#8).getLsbD i = true := by
    have h : i = 0 ∨ i = 1 ∨ i = 2 ∨ i = 3 := by omega
    obtain rfl | rfl | rfl | rfl := h <;> rfl
  simp [this]

/-- A read of a place after a write to memory. -/
theorem readPlace_writePlace (a : Word) (v : Byte) {p q : Place} (hp : p.isMemory = true) (h : b.memInv = true)
    (h1 : ∀ o o', p = .cartRam o → q ≠ .cartNibble o') (h2 : ∀ o o', p = .cartNibble o → q ≠ .cartRam o') :
    (b.writePlace a v p).readPlace q = if q = p then p.view v else b.readPlace q := by
  have hi := (memInv_iff b).1 h
  cases p <;> simp only [Place.isMemory, Bool.false_eq_true] at hp <;> cases q <;>
    simp_all [writePlace, readPlace, ioRead, Place.view, Memory.read_write]
  split <;> simp [low_nibble_and]

/-- A write to memory leaves the cartridge registers and the PPU alone. -/
theorem writePlace_of_isMemory (a : Word) (v : Byte) {p : Place} (hp : p.isMemory = true) :
    (b.writePlace a v p).cart = b.cart ∧ (b.writePlace a v p).ppu = b.ppu := by
  cases p <;> simp_all [writePlace, Place.isMemory]

/-- An access the PPU does not shut out is the access of the place (R61, R62, R84). -/
theorem read_write_of_open {prm : Params} {a : Word} (v : Byte) (h : b.blocked prm (b.cart.place a) = false) :
    b.read prm a = b.peek a ∧ b.write prm a v = b.writePlace a v (b.cart.place a) := by
  simp [read, write, h]

/-- An access the PPU shuts out reads 0xFF and writes nothing (R84). -/
theorem read_write_of_blocked {prm : Params} {a : Word} (v : Byte) (h : b.blocked prm (b.cart.place a) = true) :
    b.read prm a = 0xFF#8 ∧ b.write prm a v = b := by
  simp [read, write, h]

theorem blocked_congr {b c : Bus} (h : c.ppu.mode = b.ppu.mode) (prm : Params) (p : Place) :
    c.blocked prm p = b.blocked prm p := by
  cases p <;> simp [blocked, h]

/-- A write to a register other than LCDC keeps the PPU's mode. -/
theorem ioWrite_mode (v : Byte) {r : IoReg} (hr : r ≠ .lcdc) : (b.ioWrite v r).ppu.mode = b.ppu.mode := by
  cases r <;> first
    | exact absurd rfl hr
    | (simp only [ioWrite, apuWrite]; split <;> rfl)
    | (simp only [ioWrite]
       obtain ⟨m, h, -⟩ := b.dmaWrite_eq v
       rw [h]
       rfl)
    | rfl

/-- A read of a place that is not a register, after a write to a register. -/
theorem readPlace_ioWrite (v : Byte) {r : IoReg} {q : Place} (h1 : ∀ r', q ≠ .io r') (h2 : ∀ o, q = .oam o → r ≠ .dma) :
    (b.ioWrite v r).readPlace q = b.readPlace q := by
  have hm := b.ioWrite_memories v r
  cases q with
  | io r' => exact absurd rfl (h1 r')
  | oam o => simp [readPlace, (hm.2.2.2.2.2.2.2.2 (h2 o rfl)).1]
  | _ => simp [readPlace, hm]

/-- A write to a live clock register leaves what every address reads (R137). -/
theorem read_writePlace_rtc (prm : Params) (a a' : Word) (v : Byte) (i : Nat) :
    (b.writePlace a v (.rtc i)).read prm a' = b.read prm a' := by
  have hp : (b.cart.writeRtc i v).place a' = b.cart.place a' := rfl
  simp only [writePlace, read, peek, hp]
  cases b.cart.place a' <;> rfl

/-- A write to an I/O register, as what an address it does not affect reads. -/
theorem read_ioWrite (prm : Params) {a' : Word} (v : Byte) {r : IoReg}
    (ha : (Place.io r).mayAffect prm b.cart a' = false) : (b.ioWrite v r).read prm a' = b.read prm a' := by
  have hc := (b.ioWrite_memories v r).2.2.2.2.2.2.1
  simp only [Place.mayAffect] at ha
  have hio : ∀ r', b.cart.place a' ≠ .io r' := fun r' h => by simp [h] at ha
  have hdma : ∀ o, b.cart.place a' = .oam o → r ≠ .dma := fun o h => by
    rintro rfl
    simp [h] at ha
  have hbl : (b.ioWrite v r).blocked prm (b.cart.place a') = b.blocked prm (b.cart.place a') := by
    by_cases hr : r = .lcdc
    · subst hr
      cases hp : b.cart.place a' <;> simp_all [blocked]
    · exact blocked_congr (b.ioWrite_mode v hr) prm _
  simp only [read, peek, hc, hbl, b.readPlace_ioWrite v hio hdma]

/-- What a bus write is, as what every address reads afterwards. -/
theorem write_storedAt (prm : Params) (a : Word) (v : Byte) (h : b.memInv = true) :
    StoredAt prm b (b.write prm a v) a v := by
  by_cases hb : b.blocked prm (b.cart.place a) = true
  · have hw : b.write prm a v = b := by simp [write, hb]
    rw [hw]
    exact ⟨hw.symm, fun _ h' => absurd (hb.symm.trans h') (by simp), fun _ _ _ => rfl, fun _ _ => rfl⟩
  have hw : b.write prm a v = b.writePlace a v (b.cart.place a) := by simp [write, hb]
  have hmem : (b.cart.place a).isMemory = true → ∀ a', (b.write prm a v).read prm a' =
      if b.blocked prm (b.cart.place a') = true then 0xFF#8
      else if b.cart.place a' = b.cart.place a then (b.cart.place a).view v else b.readPlace (b.cart.place a') := by
    intro hm a'
    have hp := b.writePlace_of_isMemory a v hm
    rw [hw, read, peek, hp.1, blocked_congr (congrArg Ppu.mode hp.2),
      b.readPlace_writePlace a v hm h (fun _ _ => Cart.not_both_ram _)
        (fun _ _ h h' => Cart.not_both_ram _ h' h)]
  refine ⟨rfl, fun hm hb' => ?_, fun a' hd ha => ?_, fun hi a' => ?_⟩
  · rw [hmem hm a]; simp [hb']
  · cases hp : b.cart.place a with
    | rom o =>
      simp only [hp, Place.mayAffect, Bool.or_eq_false_iff, decide_eq_false_iff_not, Bool.and_eq_false_iff] at ha
      obtain ⟨p', hp', hc⟩ := Cart.place_outside a' ha.1 (by omega)
      rw [hw, hp]
      simp only [writePlace, read, peek, hp']
      obtain ⟨o, rfl, h⟩ | ⟨o, rfl, h⟩ | ⟨o, rfl, h⟩ | ⟨o, rfl, h⟩ | ⟨r, rfl⟩ | ⟨o, rfl, h⟩ | rfl | rfl := hc <;> rfl
    | rtc i => rw [hw, hp, read_writePlace_rtc]
    | io r =>
      rw [hw, hp]
      rw [hp] at ha
      exact b.read_ioWrite prm v ha
    | absent => rw [hw, hp]; rfl
    | _ =>
      have hm : (b.cart.place a).isMemory = true := by rw [hp]; rfl
      rw [hmem hm a', read, peek]
      simp [hd]
  · cases hi with
    | inl h' => exact absurd h' hb
    | inr hi =>
      rw [hw]
      cases hp : b.cart.place a with
      | rtc i => rw [read_writePlace_rtc]
      | absent => rfl
      | io r =>
        rw [hp] at hi
        cases r <;> simp_all [Place.isInert, writePlace, ioWrite]
      | _ => simp [hp, Place.isInert] at hi

/-- The devices' advance changes no memory. -/
theorem advance_memInv (prm : Params) (t : Nat) : (b.advance prm t).memInv = b.memInv := rfl

end Bus

end Sys2Proof.Machine
end

