-- ==== Sys2Proof/Laws/State.lean ====
section
/-! SUPPORT. What each update of the state does to each field, true by unfolding, so that no proof unfolds a record
update. -/

namespace Sys2Proof.Machine.State

variable (s : State)

@[simp] theorem setReg8_regs (r : Reg8) (v : Byte) : (s.setReg8 r v).regs = s.regs.set8 v r := rfl
@[simp] theorem setReg8_ime (r : Reg8) (v : Byte) : (s.setReg8 r v).ime = s.ime := rfl
@[simp] theorem setReg8_imePending (r : Reg8) (v : Byte) : (s.setReg8 r v).imePending = s.imePending := rfl
@[simp] theorem setReg8_mode (r : Reg8) (v : Byte) : (s.setReg8 r v).mode = s.mode := rfl
@[simp] theorem setReg8_haltPcHold (r : Reg8) (v : Byte) : (s.setReg8 r v).haltPcHold = s.haltPcHold := rfl
@[simp] theorem setReg8_lockReported (r : Reg8) (v : Byte) : (s.setReg8 r v).lockReported = s.lockReported := rfl
@[simp] theorem setReg8_opAddr (r : Reg8) (v : Byte) : (s.setReg8 r v).opAddr = s.opAddr := rfl
@[simp] theorem setReg8_cycles (r : Reg8) (v : Byte) : (s.setReg8 r v).cycles = s.cycles := rfl
@[simp] theorem setReg8_bus (r : Reg8) (v : Byte) : (s.setReg8 r v).bus = s.bus := rfl
@[simp] theorem setReg8_params (r : Reg8) (v : Byte) : (s.setReg8 r v).params = s.params := rfl

@[simp] theorem setReg16_regs (p : Reg16) (v : Word) : (s.setReg16 p v).regs = s.regs.set16 v p := rfl
@[simp] theorem setReg16_ime (p : Reg16) (v : Word) : (s.setReg16 p v).ime = s.ime := rfl
@[simp] theorem setReg16_imePending (p : Reg16) (v : Word) : (s.setReg16 p v).imePending = s.imePending := rfl
@[simp] theorem setReg16_mode (p : Reg16) (v : Word) : (s.setReg16 p v).mode = s.mode := rfl
@[simp] theorem setReg16_haltPcHold (p : Reg16) (v : Word) : (s.setReg16 p v).haltPcHold = s.haltPcHold := rfl
@[simp] theorem setReg16_lockReported (p : Reg16) (v : Word) : (s.setReg16 p v).lockReported = s.lockReported := rfl
@[simp] theorem setReg16_opAddr (p : Reg16) (v : Word) : (s.setReg16 p v).opAddr = s.opAddr := rfl
@[simp] theorem setReg16_cycles (p : Reg16) (v : Word) : (s.setReg16 p v).cycles = s.cycles := rfl
@[simp] theorem setReg16_bus (p : Reg16) (v : Word) : (s.setReg16 p v).bus = s.bus := rfl
@[simp] theorem setReg16_params (p : Reg16) (v : Word) : (s.setReg16 p v).params = s.params := rfl

@[simp] theorem setRegStk_regs (q : RegStk) (v : Word) : (s.setRegStk q v).regs = s.regs.setStk v q := rfl
@[simp] theorem setRegStk_ime (q : RegStk) (v : Word) : (s.setRegStk q v).ime = s.ime := rfl
@[simp] theorem setRegStk_imePending (q : RegStk) (v : Word) : (s.setRegStk q v).imePending = s.imePending := rfl
@[simp] theorem setRegStk_mode (q : RegStk) (v : Word) : (s.setRegStk q v).mode = s.mode := rfl
@[simp] theorem setRegStk_haltPcHold (q : RegStk) (v : Word) : (s.setRegStk q v).haltPcHold = s.haltPcHold := rfl
@[simp] theorem setRegStk_lockReported (q : RegStk) (v : Word) : (s.setRegStk q v).lockReported = s.lockReported :=
  rfl
@[simp] theorem setRegStk_opAddr (q : RegStk) (v : Word) : (s.setRegStk q v).opAddr = s.opAddr := rfl
@[simp] theorem setRegStk_cycles (q : RegStk) (v : Word) : (s.setRegStk q v).cycles = s.cycles := rfl
@[simp] theorem setRegStk_bus (q : RegStk) (v : Word) : (s.setRegStk q v).bus = s.bus := rfl
@[simp] theorem setRegStk_params (q : RegStk) (v : Word) : (s.setRegStk q v).params = s.params := rfl

@[simp] theorem setSP_regs (v : Word) : (s.setSP v).regs = { s.regs with sp := v } := rfl
@[simp] theorem setSP_ime (v : Word) : (s.setSP v).ime = s.ime := rfl
@[simp] theorem setSP_imePending (v : Word) : (s.setSP v).imePending = s.imePending := rfl
@[simp] theorem setSP_mode (v : Word) : (s.setSP v).mode = s.mode := rfl
@[simp] theorem setSP_haltPcHold (v : Word) : (s.setSP v).haltPcHold = s.haltPcHold := rfl
@[simp] theorem setSP_lockReported (v : Word) : (s.setSP v).lockReported = s.lockReported := rfl
@[simp] theorem setSP_opAddr (v : Word) : (s.setSP v).opAddr = s.opAddr := rfl
@[simp] theorem setSP_cycles (v : Word) : (s.setSP v).cycles = s.cycles := rfl
@[simp] theorem setSP_bus (v : Word) : (s.setSP v).bus = s.bus := rfl
@[simp] theorem setSP_params (v : Word) : (s.setSP v).params = s.params := rfl

@[simp] theorem setPC_regs (v : Word) : (s.setPC v).regs = { s.regs with pc := v } := rfl
@[simp] theorem setPC_ime (v : Word) : (s.setPC v).ime = s.ime := rfl
@[simp] theorem setPC_imePending (v : Word) : (s.setPC v).imePending = s.imePending := rfl
@[simp] theorem setPC_mode (v : Word) : (s.setPC v).mode = s.mode := rfl
@[simp] theorem setPC_haltPcHold (v : Word) : (s.setPC v).haltPcHold = s.haltPcHold := rfl
@[simp] theorem setPC_lockReported (v : Word) : (s.setPC v).lockReported = s.lockReported := rfl
@[simp] theorem setPC_opAddr (v : Word) : (s.setPC v).opAddr = s.opAddr := rfl
@[simp] theorem setPC_cycles (v : Word) : (s.setPC v).cycles = s.cycles := rfl
@[simp] theorem setPC_bus (v : Word) : (s.setPC v).bus = s.bus := rfl
@[simp] theorem setPC_params (v : Word) : (s.setPC v).params = s.params := rfl

@[simp] theorem setFlags_regs (z n h c : Bool) : (s.setFlags z n h c).regs = s.regs.setFlags z n h c := rfl
@[simp] theorem setFlags_ime (z n h c : Bool) : (s.setFlags z n h c).ime = s.ime := rfl
@[simp] theorem setFlags_imePending (z n h c : Bool) : (s.setFlags z n h c).imePending = s.imePending := rfl
@[simp] theorem setFlags_mode (z n h c : Bool) : (s.setFlags z n h c).mode = s.mode := rfl
@[simp] theorem setFlags_haltPcHold (z n h c : Bool) : (s.setFlags z n h c).haltPcHold = s.haltPcHold := rfl
@[simp] theorem setFlags_lockReported (z n h c : Bool) : (s.setFlags z n h c).lockReported = s.lockReported := rfl
@[simp] theorem setFlags_opAddr (z n h c : Bool) : (s.setFlags z n h c).opAddr = s.opAddr := rfl
@[simp] theorem setFlags_cycles (z n h c : Bool) : (s.setFlags z n h c).cycles = s.cycles := rfl
@[simp] theorem setFlags_bus (z n h c : Bool) : (s.setFlags z n h c).bus = s.bus := rfl
@[simp] theorem setFlags_params (z n h c : Bool) : (s.setFlags z n h c).params = s.params := rfl

@[simp] theorem setAluFlags_regs (o : AluResult) : (s.setAluFlags o).regs = s.regs.setFlags o.z o.n o.h o.c := rfl
@[simp] theorem setAluFlags_ime (o : AluResult) : (s.setAluFlags o).ime = s.ime := rfl
@[simp] theorem setAluFlags_imePending (o : AluResult) : (s.setAluFlags o).imePending = s.imePending := rfl
@[simp] theorem setAluFlags_mode (o : AluResult) : (s.setAluFlags o).mode = s.mode := rfl
@[simp] theorem setAluFlags_haltPcHold (o : AluResult) : (s.setAluFlags o).haltPcHold = s.haltPcHold := rfl
@[simp] theorem setAluFlags_lockReported (o : AluResult) : (s.setAluFlags o).lockReported = s.lockReported := rfl
@[simp] theorem setAluFlags_opAddr (o : AluResult) : (s.setAluFlags o).opAddr = s.opAddr := rfl
@[simp] theorem setAluFlags_cycles (o : AluResult) : (s.setAluFlags o).cycles = s.cycles := rfl
@[simp] theorem setAluFlags_bus (o : AluResult) : (s.setAluFlags o).bus = s.bus := rfl
@[simp] theorem setAluFlags_params (o : AluResult) : (s.setAluFlags o).params = s.params := rfl

@[simp] theorem setAlu_regs (r : Reg8) (o : AluResult):
    (s.setAlu r o).regs = (s.regs.set8 o.r r).setFlags o.z o.n o.h o.c := rfl
@[simp] theorem setAlu_ime (r : Reg8) (o : AluResult) : (s.setAlu r o).ime = s.ime := rfl
@[simp] theorem setAlu_imePending (r : Reg8) (o : AluResult) : (s.setAlu r o).imePending = s.imePending := rfl
@[simp] theorem setAlu_mode (r : Reg8) (o : AluResult) : (s.setAlu r o).mode = s.mode := rfl
@[simp] theorem setAlu_haltPcHold (r : Reg8) (o : AluResult) : (s.setAlu r o).haltPcHold = s.haltPcHold := rfl
@[simp] theorem setAlu_lockReported (r : Reg8) (o : AluResult) : (s.setAlu r o).lockReported = s.lockReported := rfl
@[simp] theorem setAlu_opAddr (r : Reg8) (o : AluResult) : (s.setAlu r o).opAddr = s.opAddr := rfl
@[simp] theorem setAlu_cycles (r : Reg8) (o : AluResult) : (s.setAlu r o).cycles = s.cycles := rfl
@[simp] theorem setAlu_bus (r : Reg8) (o : AluResult) : (s.setAlu r o).bus = s.bus := rfl
@[simp] theorem setAlu_params (r : Reg8) (o : AluResult) : (s.setAlu r o).params = s.params := rfl

@[simp] theorem setRotatedA_regs (o : AluResult):
    (s.setRotatedA o).regs = { s.regs with a := o.r }.setFlags false false false o.c := rfl
@[simp] theorem setRotatedA_ime (o : AluResult) : (s.setRotatedA o).ime = s.ime := rfl
@[simp] theorem setRotatedA_imePending (o : AluResult) : (s.setRotatedA o).imePending = s.imePending := rfl
@[simp] theorem setRotatedA_mode (o : AluResult) : (s.setRotatedA o).mode = s.mode := rfl
@[simp] theorem setRotatedA_haltPcHold (o : AluResult) : (s.setRotatedA o).haltPcHold = s.haltPcHold := rfl
@[simp] theorem setRotatedA_lockReported (o : AluResult) : (s.setRotatedA o).lockReported = s.lockReported := rfl
@[simp] theorem setRotatedA_opAddr (o : AluResult) : (s.setRotatedA o).opAddr = s.opAddr := rfl
@[simp] theorem setRotatedA_cycles (o : AluResult) : (s.setRotatedA o).cycles = s.cycles := rfl
@[simp] theorem setRotatedA_bus (o : AluResult) : (s.setRotatedA o).bus = s.bus := rfl
@[simp] theorem setRotatedA_params (o : AluResult) : (s.setRotatedA o).params = s.params := rfl

@[simp] theorem takes_regs (n : Nat) : (s.takes n).regs = s.regs := rfl
@[simp] theorem takes_ime (n : Nat) : (s.takes n).ime = s.ime := rfl
@[simp] theorem takes_imePending (n : Nat) : (s.takes n).imePending = s.imePending := rfl
@[simp] theorem takes_mode (n : Nat) : (s.takes n).mode = s.mode := rfl
@[simp] theorem takes_haltPcHold (n : Nat) : (s.takes n).haltPcHold = s.haltPcHold := rfl
@[simp] theorem takes_lockReported (n : Nat) : (s.takes n).lockReported = s.lockReported := rfl
@[simp] theorem takes_opAddr (n : Nat) : (s.takes n).opAddr = s.opAddr := rfl
@[simp] theorem takes_cycles (n : Nat) : (s.takes n).cycles = n := rfl
@[simp] theorem takes_bus (n : Nat) : (s.takes n).bus = s.bus := rfl
@[simp] theorem takes_params (n : Nat) : (s.takes n).params = s.params := rfl

@[simp] theorem withBus_regs (b : Bus) : (s.withBus b).regs = s.regs := rfl
@[simp] theorem withBus_ime (b : Bus) : (s.withBus b).ime = s.ime := rfl
@[simp] theorem withBus_imePending (b : Bus) : (s.withBus b).imePending = s.imePending := rfl
@[simp] theorem withBus_haltPcHold (b : Bus) : (s.withBus b).haltPcHold = s.haltPcHold := rfl
@[simp] theorem withBus_lockReported (b : Bus) : (s.withBus b).lockReported = s.lockReported := rfl
@[simp] theorem withBus_opAddr (b : Bus) : (s.withBus b).opAddr = s.opAddr := rfl
@[simp] theorem withBus_cycles (b : Bus) : (s.withBus b).cycles = s.cycles := rfl
@[simp] theorem withBus_bus (b : Bus) : (s.withBus b).bus = b := rfl
@[simp] theorem withBus_params (b : Bus) : (s.withBus b).params = s.params := rfl

@[simp] theorem memWrite_regs (a : Word) (v : Byte) : (s.memWrite a v).regs = s.regs := rfl
@[simp] theorem memWrite_ime (a : Word) (v : Byte) : (s.memWrite a v).ime = s.ime := rfl
@[simp] theorem memWrite_imePending (a : Word) (v : Byte) : (s.memWrite a v).imePending = s.imePending := rfl
@[simp] theorem memWrite_haltPcHold (a : Word) (v : Byte) : (s.memWrite a v).haltPcHold = s.haltPcHold := rfl
@[simp] theorem memWrite_lockReported (a : Word) (v : Byte) : (s.memWrite a v).lockReported = s.lockReported := rfl
@[simp] theorem memWrite_opAddr (a : Word) (v : Byte) : (s.memWrite a v).opAddr = s.opAddr := rfl
@[simp] theorem memWrite_cycles (a : Word) (v : Byte) : (s.memWrite a v).cycles = s.cycles := rfl
@[simp] theorem memWrite_bus (a : Word) (v : Byte) : (s.memWrite a v).bus = s.bus.write s.params a v := rfl
@[simp] theorem memWrite_params (a : Word) (v : Byte) : (s.memWrite a v).params = s.params := rfl

@[simp] theorem updateHL_regs (o : AluResult) : (s.updateHL o).regs = s.regs.setFlags o.z o.n o.h o.c := rfl
@[simp] theorem updateHL_ime (o : AluResult) : (s.updateHL o).ime = s.ime := rfl
@[simp] theorem updateHL_imePending (o : AluResult) : (s.updateHL o).imePending = s.imePending := rfl
@[simp] theorem updateHL_haltPcHold (o : AluResult) : (s.updateHL o).haltPcHold = s.haltPcHold := rfl
@[simp] theorem updateHL_lockReported (o : AluResult) : (s.updateHL o).lockReported = s.lockReported := rfl
@[simp] theorem updateHL_opAddr (o : AluResult) : (s.updateHL o).opAddr = s.opAddr := rfl
@[simp] theorem updateHL_cycles (o : AluResult) : (s.updateHL o).cycles = s.cycles := rfl
@[simp] theorem updateHL_bus (o : AluResult) : (s.updateHL o).bus = s.bus.write s.params s.regs.hl o.r := rfl
@[simp] theorem updateHL_params (o : AluResult) : (s.updateHL o).params = s.params := rfl

@[simp] theorem dropStack_regs : (s.dropStack).regs = { s.regs with sp := s.regs.sp + 2#16 } := rfl
@[simp] theorem dropStack_ime : (s.dropStack).ime = s.ime := rfl
@[simp] theorem dropStack_imePending : (s.dropStack).imePending = s.imePending := rfl
@[simp] theorem dropStack_mode : (s.dropStack).mode = s.mode := rfl
@[simp] theorem dropStack_haltPcHold : (s.dropStack).haltPcHold = s.haltPcHold := rfl
@[simp] theorem dropStack_lockReported : (s.dropStack).lockReported = s.lockReported := rfl
@[simp] theorem dropStack_opAddr : (s.dropStack).opAddr = s.opAddr := rfl
@[simp] theorem dropStack_cycles : (s.dropStack).cycles = s.cycles := rfl
@[simp] theorem dropStack_bus : (s.dropStack).bus = s.bus := rfl
@[simp] theorem dropStack_params : (s.dropStack).params = s.params := rfl

@[simp] theorem lock_regs : (s.lock).regs = { s.regs with pc := s.opAddr } := rfl
@[simp] theorem lock_ime : (s.lock).ime = s.ime := rfl
@[simp] theorem lock_imePending : (s.lock).imePending = s.imePending := rfl
@[simp] theorem lock_mode : (s.lock).mode = .locked := rfl
@[simp] theorem lock_haltPcHold : (s.lock).haltPcHold = s.haltPcHold := rfl
@[simp] theorem lock_lockReported : (s.lock).lockReported = false := rfl
@[simp] theorem lock_opAddr : (s.lock).opAddr = s.opAddr := rfl
@[simp] theorem lock_cycles : (s.lock).cycles = 1 := rfl
@[simp] theorem lock_bus : (s.lock).bus = s.bus := rfl
@[simp] theorem lock_params : (s.lock).params = s.params := rfl

@[simp] theorem acknowledge_regs (i : Nat) : (s.acknowledge i).regs = s.regs := rfl
@[simp] theorem acknowledge_ime (i : Nat) : (s.acknowledge i).ime = s.ime := rfl
@[simp] theorem acknowledge_imePending (i : Nat) : (s.acknowledge i).imePending = s.imePending := rfl
@[simp] theorem acknowledge_mode (i : Nat) : (s.acknowledge i).mode = s.mode := rfl
@[simp] theorem acknowledge_haltPcHold (i : Nat) : (s.acknowledge i).haltPcHold = s.haltPcHold := rfl
@[simp] theorem acknowledge_lockReported (i : Nat) : (s.acknowledge i).lockReported = s.lockReported := rfl
@[simp] theorem acknowledge_opAddr (i : Nat) : (s.acknowledge i).opAddr = s.opAddr := rfl
@[simp] theorem acknowledge_cycles (i : Nat) : (s.acknowledge i).cycles = s.cycles := rfl
@[simp] theorem acknowledge_bus (i : Nat):
    (s.acknowledge i).bus = { s.bus with iflag := s.bus.iflag &&& ~~~ (1#5 <<< i) } := rfl
@[simp] theorem acknowledge_params (i : Nat) : (s.acknowledge i).params = s.params := rfl

@[simp] theorem disableInterrupts_regs : (s.disableInterrupts).regs = s.regs := rfl
@[simp] theorem disableInterrupts_ime : (s.disableInterrupts).ime = false := rfl
@[simp] theorem disableInterrupts_imePending : (s.disableInterrupts).imePending = false := rfl
@[simp] theorem disableInterrupts_mode : (s.disableInterrupts).mode = s.mode := rfl
@[simp] theorem disableInterrupts_haltPcHold : (s.disableInterrupts).haltPcHold = s.haltPcHold := rfl
@[simp] theorem disableInterrupts_lockReported : (s.disableInterrupts).lockReported = s.lockReported := rfl
@[simp] theorem disableInterrupts_opAddr : (s.disableInterrupts).opAddr = s.opAddr := rfl
@[simp] theorem disableInterrupts_cycles : (s.disableInterrupts).cycles = s.cycles := rfl
@[simp] theorem disableInterrupts_bus : (s.disableInterrupts).bus = s.bus := rfl
@[simp] theorem disableInterrupts_params : (s.disableInterrupts).params = s.params := rfl

@[simp] theorem enableInterrupts_regs : (s.enableInterrupts).regs = s.regs := rfl
@[simp] theorem enableInterrupts_ime : (s.enableInterrupts).ime = true := rfl
@[simp] theorem enableInterrupts_imePending : (s.enableInterrupts).imePending = false := rfl
@[simp] theorem enableInterrupts_mode : (s.enableInterrupts).mode = s.mode := rfl
@[simp] theorem enableInterrupts_haltPcHold : (s.enableInterrupts).haltPcHold = s.haltPcHold := rfl
@[simp] theorem enableInterrupts_lockReported : (s.enableInterrupts).lockReported = s.lockReported := rfl
@[simp] theorem enableInterrupts_opAddr : (s.enableInterrupts).opAddr = s.opAddr := rfl
@[simp] theorem enableInterrupts_cycles : (s.enableInterrupts).cycles = s.cycles := rfl
@[simp] theorem enableInterrupts_bus : (s.enableInterrupts).bus = s.bus := rfl
@[simp] theorem enableInterrupts_params : (s.enableInterrupts).params = s.params := rfl

@[simp] theorem clearDmaCost_regs : (s.clearDmaCost).regs = s.regs := rfl
@[simp] theorem clearDmaCost_ime : (s.clearDmaCost).ime = s.ime := rfl
@[simp] theorem clearDmaCost_imePending : (s.clearDmaCost).imePending = s.imePending := rfl
@[simp] theorem clearDmaCost_mode : (s.clearDmaCost).mode = s.mode := rfl
@[simp] theorem clearDmaCost_haltPcHold : (s.clearDmaCost).haltPcHold = s.haltPcHold := rfl
@[simp] theorem clearDmaCost_lockReported : (s.clearDmaCost).lockReported = s.lockReported := rfl
@[simp] theorem clearDmaCost_opAddr : (s.clearDmaCost).opAddr = s.opAddr := rfl
@[simp] theorem clearDmaCost_cycles : (s.clearDmaCost).cycles = s.cycles := rfl
@[simp] theorem clearDmaCost_bus : (s.clearDmaCost).bus = { s.bus with dmaCost := 0 } := rfl
@[simp] theorem clearDmaCost_params : (s.clearDmaCost).params = s.params := rfl

@[simp] theorem afterFetch_regs : (s.afterFetch).regs = { s.regs with pc := s.operandPC + BitVec.ofNat 16 (opLength s.opcodeByte - 1) } := rfl
@[simp] theorem afterFetch_ime : (s.afterFetch).ime = s.ime := rfl
@[simp] theorem afterFetch_imePending : (s.afterFetch).imePending = s.imePending := rfl
@[simp] theorem afterFetch_mode : (s.afterFetch).mode = s.mode := rfl
@[simp] theorem afterFetch_haltPcHold : (s.afterFetch).haltPcHold = false := rfl
@[simp] theorem afterFetch_lockReported : (s.afterFetch).lockReported = s.lockReported := rfl
@[simp] theorem afterFetch_opAddr : (s.afterFetch).opAddr = s.regs.pc := rfl
@[simp] theorem afterFetch_cycles : (s.afterFetch).cycles = s.cycles := rfl
@[simp] theorem afterFetch_bus : (s.afterFetch).bus = s.bus := rfl
@[simp] theorem afterFetch_params : (s.afterFetch).params = s.params := rfl

@[simp] theorem advance_regs : (s.advance).regs = s.regs := rfl
@[simp] theorem advance_ime : (s.advance).ime = s.ime := rfl
@[simp] theorem advance_imePending : (s.advance).imePending = s.imePending := rfl
@[simp] theorem advance_mode : (s.advance).mode = s.mode := rfl
@[simp] theorem advance_haltPcHold : (s.advance).haltPcHold = s.haltPcHold := rfl
@[simp] theorem advance_lockReported : (s.advance).lockReported = s.lockReported := rfl
@[simp] theorem advance_opAddr : (s.advance).opAddr = s.opAddr := rfl
@[simp] theorem advance_cycles : (s.advance).cycles = s.cycles := rfl
@[simp] theorem advance_bus : (s.advance).bus = s.bus.advance s.params (4 * s.cycles) := rfl
@[simp] theorem advance_params : (s.advance).params = s.params := rfl

/-- An access changes the run mode only from Stopped (R466). -/
theorem withBus_mode_of_ne (b : Bus) (h : s.mode ≠ .stopped) : (s.withBus b).mode = s.mode := by
  simp [withBus, h]

@[simp] theorem memWrite_mode_of_running (a : Word) (v : Byte) (h : s.mode = .running) :
    (s.memWrite a v).mode = .running := by
  simp [memWrite, withBus, h]

end Sys2Proof.Machine.State
end

