-- ==== Sys2Proof/Laws/Ops.lean ====
section
/-! SUPPORT. One lemma per shared operation of the CPU: everything it can do. -/

namespace Sys2Proof.Machine.State

variable (s : State)

/-! ## The stack -/

theorem sub_one_sub_one (w : Word) : w - 1#16 - 1#16 = w - 2#16 := by
  rw [BitVec.sub_sub]; rfl

@[simp] theorem push16_regs (v : Word) : (s.push16 v).regs = { s.regs with sp := s.regs.sp - 2#16 } := by
  simp [push16, sub_one_sub_one]

@[simp] theorem push16_bus (v : Word) : (s.push16 v).bus =
    (s.bus.write s.params (s.regs.sp - 1#16) (Word.hi v)).write s.params (s.regs.sp - 2#16) (Word.lo v) := by
  simp [push16, sub_one_sub_one]

@[simp] theorem push16_ime (v : Word) : (s.push16 v).ime = s.ime := rfl
@[simp] theorem push16_imePending (v : Word) : (s.push16 v).imePending = s.imePending := rfl
@[simp] theorem push16_haltPcHold (v : Word) : (s.push16 v).haltPcHold = s.haltPcHold := rfl
@[simp] theorem push16_lockReported (v : Word) : (s.push16 v).lockReported = s.lockReported := rfl
@[simp] theorem push16_opAddr (v : Word) : (s.push16 v).opAddr = s.opAddr := rfl
@[simp] theorem push16_cycles (v : Word) : (s.push16 v).cycles = s.cycles := rfl
@[simp] theorem push16_params (v : Word) : (s.push16 v).params = s.params := rfl
@[simp] theorem push16_mode_of_running (v : Word) (h : s.mode = .running) : (s.push16 v).mode = .running := by
  simp [push16, h]

@[simp] theorem callTo_regs (a : Word) : (s.callTo a).regs = { s.regs with sp := s.regs.sp - 2#16, pc := a } := by
  simp [callTo]
@[simp] theorem callTo_bus (a : Word) : (s.callTo a).bus =
    (s.bus.write s.params (s.regs.sp - 1#16) (Word.hi s.regs.pc)).write s.params (s.regs.sp - 2#16)
      (Word.lo s.regs.pc) := by
  simp [callTo]
@[simp] theorem callTo_ime (a : Word) : (s.callTo a).ime = s.ime := rfl
@[simp] theorem callTo_imePending (a : Word) : (s.callTo a).imePending = s.imePending := rfl
@[simp] theorem callTo_haltPcHold (a : Word) : (s.callTo a).haltPcHold = s.haltPcHold := rfl
@[simp] theorem callTo_lockReported (a : Word) : (s.callTo a).lockReported = s.lockReported := rfl
@[simp] theorem callTo_opAddr (a : Word) : (s.callTo a).opAddr = s.opAddr := rfl
@[simp] theorem callTo_params (a : Word) : (s.callTo a).params = s.params := rfl
@[simp] theorem callTo_mode_of_running (a : Word) (h : s.mode = .running) : (s.callTo a).mode = .running := by
  simp [callTo, h]

@[simp] theorem returnTo_regs : s.returnTo.regs = { s.regs with sp := s.regs.sp + 2#16, pc := s.popped } := rfl
@[simp] theorem returnTo_bus : s.returnTo.bus = s.bus := rfl
@[simp] theorem returnTo_ime : s.returnTo.ime = s.ime := rfl
@[simp] theorem returnTo_imePending : s.returnTo.imePending = s.imePending := rfl
@[simp] theorem returnTo_mode : s.returnTo.mode = s.mode := rfl
@[simp] theorem returnTo_haltPcHold : s.returnTo.haltPcHold = s.haltPcHold := rfl
@[simp] theorem returnTo_lockReported : s.returnTo.lockReported = s.lockReported := rfl
@[simp] theorem returnTo_opAddr : s.returnTo.opAddr = s.opAddr := rfl
@[simp] theorem returnTo_params : s.returnTo.params = s.params := rfl

@[simp] theorem memWrite16_regs (a v : Word) : (s.memWrite16 a v).regs = s.regs := rfl
@[simp] theorem memWrite16_bus (a v : Word) : (s.memWrite16 a v).bus =
    (s.bus.write s.params a (Word.lo v)).write s.params (a + 1#16) (Word.hi v) := rfl
@[simp] theorem memWrite16_params (a v : Word) : (s.memWrite16 a v).params = s.params := rfl
@[simp] theorem memWrite16_haltPcHold (a v : Word) : (s.memWrite16 a v).haltPcHold = s.haltPcHold := rfl
@[simp] theorem memWrite16_ime (a v : Word) : (s.memWrite16 a v).ime = s.ime := rfl
@[simp] theorem memWrite16_imePending (a v : Word) : (s.memWrite16 a v).imePending = s.imePending := rfl
@[simp] theorem memWrite16_lockReported (a v : Word) : (s.memWrite16 a v).lockReported = s.lockReported := rfl
@[simp] theorem memWrite16_opAddr (a v : Word) : (s.memWrite16 a v).opAddr = s.opAddr := rfl
@[simp] theorem memWrite16_mode_of_running (a v : Word) (h : s.mode = .running) :
    (s.memWrite16 a v).mode = .running := by
  simp [memWrite16, h]

@[simp] theorem updateHL_mode_of_running (o : AluResult) (h : s.mode = .running) :
    (s.updateHL o).mode = .running := by
  simp [updateHL, setAluFlags, setFlags, h]

/-! ## Interrupts -/

@[simp] theorem releaseHold_bus : s.releaseHold.bus = s.bus := by unfold releaseHold; split <;> rfl
@[simp] theorem releaseHold_params : s.releaseHold.params = s.params := by unfold releaseHold; split <;> rfl
@[simp] theorem releaseHold_mode : s.releaseHold.mode = s.mode := by unfold releaseHold; split <;> rfl
@[simp] theorem releaseHold_haltPcHold : s.releaseHold.haltPcHold = false := by
  unfold releaseHold
  split
  · rfl
  · simpa using ‹¬ s.haltPcHold = true›
@[simp] theorem releaseHold_sp : s.releaseHold.regs.sp = s.regs.sp := by unfold releaseHold; split <;> rfl
@[simp] theorem releaseHold_f : s.releaseHold.regs.f = s.regs.f := by unfold releaseHold; split <;> rfl
@[simp] theorem releaseHold_get8 (x : Reg8) : s.releaseHold.regs.get8 x = s.regs.get8 x := by
  unfold releaseHold; split
  · cases x <;> rfl
  · rfl
theorem releaseHold_of_not (h : s.haltPcHold = false) : s.releaseHold = s := by simp [releaseHold, h]

/-- The return address that a dispatch pushes (R421, R611). -/
def dispatchPC : Word := if s.haltPcHold then s.regs.pc - 1#16 else s.regs.pc

@[simp] theorem releaseHold_pc : s.releaseHold.regs.pc = s.dispatchPC := by
  unfold releaseHold dispatchPC; split <;> rfl

theorem dispatch_bus : s.dispatch.bus =
    { (s.bus.write s.params (s.regs.sp - 1#16) (Word.hi s.dispatchPC)).write s.params (s.regs.sp - 2#16)
        (Word.lo s.dispatchPC) with
      iflag := ((s.bus.write s.params (s.regs.sp - 1#16) (Word.hi s.dispatchPC)).write s.params
        (s.regs.sp - 2#16) (Word.lo s.dispatchPC)).iflag &&& ~~~ (1#5 <<< firstPending s.pending) } := by
  simp [dispatch]

theorem dispatch_regs : s.dispatch.regs =
    { s.releaseHold.regs with sp := s.regs.sp - 2#16, pc := vector (firstPending s.pending) } := by
  simp [dispatch]

@[simp] theorem dispatch_ime : s.dispatch.ime = false := rfl
@[simp] theorem dispatch_imePending : s.dispatch.imePending = false := rfl
@[simp] theorem dispatch_cycles : s.dispatch.cycles = 5 := rfl
@[simp] theorem dispatch_params : s.dispatch.params = s.params := by simp [dispatch]
@[simp] theorem dispatch_haltPcHold : s.dispatch.haltPcHold = false := by simp [dispatch]
theorem dispatch_mode (h : s.mode = .running) : s.dispatch.mode = .running := by simp [dispatch, h]

/-! ## Answers -/

@[simp] theorem mapAnswer_next (f : State → State) (t : State) : mapAnswer f (.next t) = .next (f t) := rfl

theorem mapAnswer_eq_next {f : State → State} {x : Answer} {t : State} :
    mapAnswer f x = .next t ↔ ∃ u, x = .next u ∧ f u = t := by
  cases x <;> simp [mapAnswer]

/-- The effect of an EI of the step before, on every field it can touch. -/
theorem eiEffect_cases (e : Bool) :
    (eiEffect e s = s.enableInterrupts ∧ e = true ∧ s.imePending = true ∧ s.mode ≠ .locked)
      ∨ (eiEffect e s = s ∧ ¬ (e = true ∧ s.imePending = true ∧ s.mode ≠ .locked)) := by
  unfold eiEffect
  split
  · exact .inl ⟨rfl, ‹_›⟩
  · exact .inr ⟨rfl, ‹_›⟩

@[simp] theorem eiEffect_regs (e : Bool) : (eiEffect e s).regs = s.regs := by
  obtain h | h := eiEffect_cases s e <;> rw [h.1]; rfl
@[simp] theorem eiEffect_bus (e : Bool) : (eiEffect e s).bus = s.bus := by
  obtain h | h := eiEffect_cases s e <;> rw [h.1]; rfl
@[simp] theorem eiEffect_mode (e : Bool) : (eiEffect e s).mode = s.mode := by
  obtain h | h := eiEffect_cases s e <;> rw [h.1]; rfl
@[simp] theorem eiEffect_params (e : Bool) : (eiEffect e s).params = s.params := by
  obtain h | h := eiEffect_cases s e <;> rw [h.1]; rfl
@[simp] theorem eiEffect_cycles (e : Bool) : (eiEffect e s).cycles = s.cycles := by
  obtain h | h := eiEffect_cases s e <;> rw [h.1]; rfl
@[simp] theorem eiEffect_haltPcHold (e : Bool) : (eiEffect e s).haltPcHold = s.haltPcHold := by
  obtain h | h := eiEffect_cases s e <;> rw [h.1]; rfl
@[simp] theorem eiEffect_lockReported (e : Bool) : (eiEffect e s).lockReported = s.lockReported := by
  obtain h | h := eiEffect_cases s e <;> rw [h.1]; rfl

end Sys2Proof.Machine.State
end

