-- ==== Sys2Proof/Laws/Exec.lean ====
section
/-! SUPPORT. What any instruction can do: every one answers a next state, reached through bus writes only, in 1 to 6
M-cycles (R60, R616 to R618). -/

namespace Sys2Proof.Machine

/-- `PREFIX CB` runs the row that its second byte selects (R365). -/
theorem execPrefixCB_eq (op2 : Byte) (s : State) : execPrefixCB op2 s = exec (decodeCB op2) s := by
  unfold execPrefixCB decodeCB
  generalize op2.fieldX = x
  generalize Reg8.ofCode op2.fieldZ = r
  generalize op2.fieldY = y
  rcases x with _ | _ | _ | x <;> cases r <;> try rfl
  all_goals rcases y with _ | _ | _ | _ | _ | _ | _ | y <;> rfl

theorem decodeCB_ne_prefixCB (op2 x : Byte) : decodeCB op2 ≠ .prefixCB x := by
  unfold decodeCB
  generalize op2.fieldX = x
  generalize Reg8.ofCode op2.fieldZ = r
  generalize op2.fieldY = y
  rcases x with _ | _ | _ | x <;> cases r <;> try (intro h; cases h)
  all_goals rcases y with _ | _ | _ | _ | _ | _ | _ | y <;> (intro h; cases h)

/-- What an instruction can do to the state, whichever it is. -/
structure Effect (s t : State) : Prop where
  params : t.params = s.params
  written : Bus.Written s.params s.bus t.bus
  lowNibble : s.regs.f.extractLsb' 0 4 = 0#4 → t.regs.f.extractLsb' 0 4 = 0#4
  cycles : 1 ≤ t.cycles ∧ t.cycles ≤ 6
  hold : t.haltPcHold = true → s.haltPcHold = true ∨ s.params.haltBug = true

@[simp] theorem Bus.Written.self {prm : Params} {b : Bus} : Bus.Written prm b b := .refl b

@[simp] theorem Bus.Written.write {prm : Params} {b c : Bus} (h : Bus.Written prm b c) (a : Word) (v : Byte) :
    Bus.Written prm b (c.write prm a v) := .step a v h

theorem low_nibble_mask (v : Byte) : (v &&& 0xF0#8).extractLsb' 0 4 = 0#4 := by
  refine BitVec.eq_of_getLsbD_eq fun i hi => ?_
  have : (0xF0#8).getLsbD i = false := by
    have h : i = 0 ∨ i = 1 ∨ i = 2 ∨ i = 3 := by omega
    obtain rfl | rfl | rfl | rfl := h <;> rfl
  simp [this]

@[simp] theorem Regs.setStk_lowNibble (r : Regs) (v : Word) (q : RegStk) (h : r.f.extractLsb' 0 4 = 0#4) :
    (r.setStk v q).f.extractLsb' 0 4 = 0#4 := by
  cases q <;> first | exact h | exact low_nibble_mask _

/-- An instruction whose state after is as `Effect` says, shown field by field. -/
theorem Effect.of {s t : State} (h1 : t.params = s.params) (h2 : Bus.Written s.params s.bus t.bus)
    (h3 : s.regs.f.extractLsb' 0 4 = 0#4 → t.regs.f.extractLsb' 0 4 = 0#4) (h4 : 1 ≤ t.cycles ∧ t.cycles ≤ 6)
    (h5 : t.haltPcHold = s.haltPcHold) : Effect s t := ⟨h1, h2, h3, h4, fun h => .inl (h5 ▸ h)⟩

/-- What any instruction but the prefix does. -/
theorem exec_effect_of_ne (i : Instr) (s : State) (h : ∀ x, i ≠ .prefixCB x) :
    ∃ t, exec i s = .next t ∧ Effect s t := by
  cases i with
  | prefixCB x => exact absurd rfl (h x)
  | popQ q =>
    exact ⟨_, rfl, .of (by simp) (by simp) (fun h => by simp [h]) (by simp) (by simp)⟩
  | halt =>
    refine ⟨_, rfl, ?_⟩
    by_cases hb : s.haltBugApplies = true
    · rw [if_pos hb]
      simp only [State.haltBugApplies, Bool.and_eq_true] at hb
      exact ⟨rfl, .refl _, id, by simp, fun _ => .inr hb.1.1⟩
    · rw [if_neg hb]
      exact .of rfl (.refl _) id (by simp) rfl
  | stop n => exact ⟨_, rfl, .of rfl (.refl _) id (by simp) rfl⟩
  | ei => exact ⟨_, rfl, .of rfl (.refl _) id (by simp) rfl⟩
  | jpCc c nn | jrCc c e | callCc c nn | retCc c =>
    refine ⟨_, rfl, ?_⟩
    split <;> exact .of (by simp) (by simp) (by simp) (by simp) (by simp)
  | reti => exact ⟨_, rfl, .of rfl (.refl _) id (by simp) rfl⟩
  | _ => exact ⟨_, rfl, .of (by simp) (by simp) (by simp) (by simp) (by simp)⟩

/-- What any instruction does: it answers a next state, through bus writes only, in 1 to 6 M-cycles. -/
theorem exec_effect (i : Instr) (s : State) : ∃ t, exec i s = .next t ∧ Effect s t := by
  by_cases h : ∃ x, i = .prefixCB x
  · obtain ⟨x, rfl⟩ := h
    change ∃ t, execPrefixCB x s = .next t ∧ Effect s t
    rw [execPrefixCB_eq]
    exact exec_effect_of_ne _ s (decodeCB_ne_prefixCB x)
  · exact exec_effect_of_ne i s fun x hx => h ⟨x, hx⟩

end Sys2Proof.Machine
end

