-- ==== Sys2Proof/Laws/Decode.lean ====
section
/-! SUPPORT. The decoder: how many bytes an instruction reads, what it leaves, and that what it gives is well-formed
(R150, R163). -/

namespace Sys2Proof

theorem opLength_cases (op : Byte) : opLength op = 1 ∨ opLength op = 2 ∨ opLength op = 3 := by
  unfold opLength
  split_ifs <;> simp

/-- The places of the quarter x = 0 that read a byte operand, and those that read a word. -/
def x0Uses (y z : Nat) : Bool × Bool := ((z = 0 && 2 ≤ y) || z = 6, (z = 0 && y = 1) || (z = 1 && y % 2 = 0))

/-- The same of the quarter x = 3. -/
def x3Uses (y z : Nat) : Bool × Bool :=
  ((z = 0 && 4 ≤ y) || (z = 3 && y = 1) || z = 6,
    (z = 2 && (y ≤ 3 || y = 5 || 7 ≤ y)) || (z = 3 && y = 0) || (z = 4 && (y ≤ 3 || 8 ≤ y)) || (z = 5 && y = 1))

theorem decodeX0_congr (y z : Nat) {n n' : Byte} {w w' : Word} (h1 : (x0Uses y z).1 = true → n = n')
    (h2 : (x0Uses y z).2 = true → w = w') : decodeX0 y z n w = decodeX0 y z n' w' := by
  rcases z with _ | _ | _ | _ | _ | _ | _ | z <;> simp [x0Uses] at h1 h2 <;> simp only [decodeX0]
  · rcases y with _ | _ | _ | _ | y <;> simp at h1 h2 <;> simp [*]
  · split
    · rw [h2 ‹_›]
    · rfl
  · rw [h1]

theorem decodeX3_congr (y z : Nat) {n n' : Byte} {w w' : Word} (h1 : (x3Uses y z).1 = true → n = n')
    (h2 : (x3Uses y z).2 = true → w = w') : decodeX3 y z n w = decodeX3 y z n' w' := by
  rcases z with _ | _ | _ | _ | _ | _ | _ | z <;> simp [x3Uses] at h1 h2 <;> simp only [decodeX3]
  · rcases y with _ | _ | _ | _ | _ | _ | _ | _ | y <;> simp at h1 h2 <;> simp [*]
  · rcases y with _ | _ | _ | _ | _ | _ | _ | _ | y <;> simp at h1 h2 <;> simp [*]
  · rcases y with _ | _ | _ | _ | _ | _ | _ | _ | y <;> first | rfl | simp_all
  · rcases y with _ | _ | _ | _ | _ | _ | _ | _ | y <;> simp at h1 h2 <;> simp [*]
  · rcases y with _ | _ | _ | _ | _ | _ | _ | _ | y <;> first | rfl | simp_all
  · rw [h1]

/-- Which operand bytes an opcode reads, against its length. -/
def usesOk (op : Byte) : Bool :=
  match op.fieldX with
  | 0 => (!(x0Uses op.fieldY op.fieldZ).1 || opLength op ≠ 1) && (!(x0Uses op.fieldY op.fieldZ).2 || opLength op = 3)
  | 1 => true
  | 2 => true
  | _ => (!(x3Uses op.fieldY op.fieldZ).1 || opLength op ≠ 1) && (!(x3Uses op.fieldY op.fieldZ).2 || opLength op = 3)

theorem usesOk_all : (List.range 256).all (fun n => usesOk (BitVec.ofNat 8 n)) = true := by decide +kernel

theorem usesOk_of (op : Byte) : usesOk op = true := by
  have := List.all_eq_true.1 usesOk_all op.toNat (List.mem_range.2 op.isLt)
  simpa using this

/-- An instruction does not depend on the bytes past its length. -/
theorem decodeBytes_congr (b0 b1 b2 c1 c2 : Byte) (h1 : opLength b0 ≠ 1 → b1 = c1) (h2 : opLength b0 = 3 → b2 = c2) :
    decodeBytes b0 b1 b2 = decodeBytes b0 c1 c2 := by
  have hu := usesOk_of b0
  unfold usesOk at hu
  unfold decodeBytes
  have hx : b0.fieldX = 0 ∨ b0.fieldX = 1 ∨ b0.fieldX = 2 ∨ b0.fieldX = 3 := by
    have := b0.isLt
    unfold Byte.fieldX
    omega
  obtain hx | hx | hx | hx := hx <;> simp only [hx] at hu ⊢
  · simp only [Bool.and_eq_true, Bool.or_eq_true, Bool.not_eq_true', decide_eq_true_eq] at hu
    refine decodeX0_congr _ _ (fun h => h1 ?_) (fun h => ?_)
    · exact hu.1.resolve_left (by simp [h])
    · have h3 := hu.2.resolve_left (by simp [h])
      rw [h1 (by omega), h2 h3]
  · simp only [Bool.and_eq_true, Bool.or_eq_true, Bool.not_eq_true', decide_eq_true_eq] at hu
    refine decodeX3_congr _ _ (fun h => h1 ?_) (fun h => ?_)
    · exact hu.1.resolve_left (by simp [h])
    · have h3 := hu.2.resolve_left (by simp [h])
      rw [h1 (by omega), h2 h3]

/-- Three bytes always hold an instruction, and what it does not read is left. -/
theorem decode_three (b0 b1 b2 : Byte) (rest : List Byte) : decode (b0 :: b1 :: b2 :: rest) =
    .ok (decodeBytes b0 b1 b2, (b1 :: b2 :: rest).drop (opLength b0 - 1)) := by
  unfold decode
  obtain h | h | h := opLength_cases b0
  · simp only [h, if_true]
    rw [decodeBytes_congr b0 0#8 0#8 b1 b2 (by simp [h]) (by simp [h])]
    rfl
  · simp only [h]
    rw [decodeBytes_congr b0 b1 0#8 b1 b2 (fun _ => rfl) (by simp [h])]
    rfl
  · simp only [h]
    rfl

theorem decodeCB_wellFormed (op2 : Byte) : (decodeCB op2).wellFormed = true := by
  have := Machine.decodeCB_ne_prefixCB op2
  cases h : decodeCB op2 <;> first | rfl | exact absurd h (this _)

/-- The decoder gives well-formed instructions only: the prefix alone is never one (R365). -/
theorem decodeBytes_wellFormed (b0 b1 b2 : Byte) : (decodeBytes b0 b1 b2).wellFormed = true := by
  unfold decodeBytes
  split
  · unfold decodeX0
    split <;> (try split) <;> rfl
  · unfold decodeX1
    split <;> rfl
  · unfold decodeX2
    split <;> rfl
  · unfold decodeX3 decodeAluN
    split <;> (try split) <;> first | rfl | exact decodeCB_wellFormed _

end Sys2Proof
end

