-- ==== Sys2Proof/Laws/Ppu.lean ====
section
/-! SUPPORT. The laws of the PPU: what each part of a dot step can do, and that a dot, an advance and a register write
keep its invariant. -/

namespace Sys2Proof.Machine.Ppu

variable (p : Ppu)

/-! ## Small laws -/

theorem extraDots_le (prm : Params) (oam : Memory) : p.extraDots prm oam ≤ 117 := by
  unfold extraDots
  dsimp only
  split
  · omega
  · exact Nat.min_le_left _ _
  · omega

theorem selectObjs_length_le (prm : Params) (oam : Memory) : (p.selectObjs prm oam).length ≤ prm.objPerLine := by
  simp only [selectObjs, List.length_map, List.length_take]
  exact Nat.min_le_left _ _

@[simp] theorem evaluateStat_lcdc : p.evaluateStat.1.lcdc = p.lcdc := rfl
@[simp] theorem evaluateStat_ly : p.evaluateStat.1.ly = p.ly := rfl
@[simp] theorem evaluateStat_dot : p.evaluateStat.1.dot = p.dot := rfl
@[simp] theorem evaluateStat_mode3Len : p.evaluateStat.1.mode3Len = p.mode3Len := rfl
@[simp] theorem evaluateStat_winLine : p.evaluateStat.1.winLine = p.winLine := rfl
@[simp] theorem evaluateStat_winTriggered : p.evaluateStat.1.winTriggered = p.winTriggered := rfl
@[simp] theorem evaluateStat_lineObjs : p.evaluateStat.1.lineObjs = p.lineObjs := rfl
@[simp] theorem evaluateStat_framebuffer : p.evaluateStat.1.framebuffer = p.framebuffer := rfl
@[simp] theorem evaluateStat_frameReady : p.evaluateStat.1.frameReady = p.frameReady := rfl
@[simp] theorem evaluateStat_statLine : p.evaluateStat.1.statLine = p.statLevel := rfl
@[simp] theorem evaluateStat_statLevel : p.evaluateStat.1.statLevel = p.statLevel := rfl
@[simp] theorem evaluateStat_lcdOn : p.evaluateStat.1.lcdOn = p.lcdOn := rfl
theorem evaluateStat_request : p.evaluateStat.2 = irqIf (p.statLevel && !p.statLine) irqStat := rfl

/-- The mode is fixed by LCDC[7], the line, the dot and the length of pixel-transfer. -/
theorem mode_congr {p q : Ppu} (h1 : q.lcdc = p.lcdc) (h2 : q.ly = p.ly) (h3 : q.dot = p.dot)
    (h4 : q.mode3Len = p.mode3Len) : q.mode = p.mode := by
  cases p
  cases q
  simp only at h1 h2 h3 h4
  subst h1 h2 h3 h4
  rfl

/-! ## The dot step in parts -/

/-- The dot is counted; nothing else. -/
def counted : Ppu := { p with dot := p.dot + 1 }

/-- The end of OAM-scan, where the dot is 80. -/
def scanned (prm : Params) (oam : Memory) : Ppu := if p.ly < 144 ∧ p.dot = 80 then p.scanEnd prm oam else p

/-- The end of pixel-transfer, where the dot is there. -/
def composed (vram oam : Memory) : Ppu :=
  if p.ly < 144 ∧ p.dot = 80 + p.mode3Len then p.composeLine vram oam else p

/-- The end of the line, where the dot is there. -/
def ended : Ppu × BitVec 5 := if p.dot = 456 then p.lineEnd else (p, 0#5)

/-- The dot step as the sequence of its parts. -/
theorem dotStep_eq (prm : Params) (vram oam : Memory) : p.dotStep prm vram oam =
    ((((p.counted.scanned prm oam).composed vram oam).ended.1.evaluateStat.1),
      ((p.counted.scanned prm oam).composed vram oam).ended.2
        ||| ((p.counted.scanned prm oam).composed vram oam).ended.1.evaluateStat.2) := rfl

/-- What the end of OAM-scan can do. -/
theorem scanned_spec (prm : Params) (oam : Memory) :
    (p.scanned prm oam).lcdc = p.lcdc ∧ (p.scanned prm oam).ly = p.ly ∧ (p.scanned prm oam).dot = p.dot
      ∧ (p.scanned prm oam).winLine = p.winLine ∧ (p.scanned prm oam).frameReady = p.frameReady
      ∧ (p.scanned prm oam).framebuffer = p.framebuffer ∧ (p.scanned prm oam).statLine = p.statLine
      ∧ ((p.scanned prm oam) = p
        ∨ (p.dot = 80 ∧ 172 ≤ (p.scanned prm oam).mode3Len ∧ (p.scanned prm oam).mode3Len ≤ 289
          ∧ (p.scanned prm oam).lineObjs.length ≤ prm.objPerLine)) := by
  unfold scanned
  by_cases h : p.ly < 144 ∧ p.dot = 80
  · rw [if_pos h]
    refine ⟨rfl, rfl, rfl, rfl, rfl, rfl, rfl, .inr ⟨h.2, Nat.le_add_right _ _, ?_, ?_⟩⟩
    · exact Nat.add_le_add_left (extraDots_le _ _ _) 172
    · exact selectObjs_length_le _ _ _
  · rw [if_neg h]
    simp

/-- What the end of pixel-transfer can do. -/
theorem composed_spec (vram oam : Memory) :
    (p.composed vram oam).lcdc = p.lcdc ∧ (p.composed vram oam).ly = p.ly ∧ (p.composed vram oam).dot = p.dot
      ∧ (p.composed vram oam).mode3Len = p.mode3Len ∧ (p.composed vram oam).lineObjs = p.lineObjs
      ∧ (p.composed vram oam).winTriggered = p.winTriggered ∧ (p.composed vram oam).frameReady = p.frameReady
      ∧ (p.composed vram oam).statLine = p.statLine
      ∧ ((p.composed vram oam).winLine = p.winLine
        ∨ ((p.composed vram oam).winLine = p.winLine + 1 ∧ p.dot = 80 + p.mode3Len)) := by
  unfold composed
  by_cases h : p.ly < 144 ∧ p.dot = 80 + p.mode3Len
  · rw [if_pos h]
    refine ⟨rfl, rfl, rfl, rfl, rfl, rfl, rfl, rfl, ?_⟩
    by_cases hw : p.windowVisible = true
    · exact .inr ⟨by simp [composeLine, hw], h.2⟩
    · exact .inl (by simp [composeLine, hw])
  · rw [if_neg h]
    simp

/-- What the end of a line can do. -/
theorem ended_spec : p.ended.1.lcdc = p.lcdc ∧ p.ended.1.mode3Len = p.mode3Len ∧ p.ended.1.lineObjs = p.lineObjs
    ∧ p.ended.1.framebuffer = p.framebuffer ∧ p.ended.1.statLine = p.statLine
    ∧ ((p.ended = (p, 0#5) ∧ p.dot ≠ 456)
      ∨ (p.dot = 456 ∧ p.ended.1.dot = 0
        ∧ ((p.ly + 1 = 144 ∧ p.ended.1.ly = 144 ∧ p.ended.1.winLine = p.winLine ∧ p.ended.2 = irqVblank)
          ∨ (p.ly + 1 = 154 ∧ p.ended.1.ly = 0 ∧ p.ended.1.winLine = 0 ∧ p.ended.2 = 0#5)
          ∨ (p.ly + 1 ≠ 144 ∧ p.ly + 1 ≠ 154 ∧ p.ended.1.ly = p.ly + 1 ∧ p.ended.1.winLine = p.winLine
            ∧ p.ended.2 = 0#5)))) := by
  unfold ended
  by_cases h : p.dot = 456
  · rw [if_pos h]
    unfold lineEnd
    by_cases h1 : p.ly + 1 = 144
    · rw [if_pos h1]
      exact ⟨rfl, rfl, rfl, rfl, rfl, .inr ⟨h, rfl, .inl ⟨h1, rfl, rfl, rfl⟩⟩⟩
    · rw [if_neg h1]
      by_cases h2 : p.ly + 1 = 154
      · rw [if_pos h2]
        exact ⟨rfl, rfl, rfl, rfl, rfl, .inr ⟨h, rfl, .inr (.inl ⟨h2, rfl, rfl, rfl⟩)⟩⟩
      · rw [if_neg h2]
        exact ⟨rfl, rfl, rfl, rfl, rfl, .inr ⟨h, rfl, .inr (.inr ⟨h1, h2, rfl, rfl, rfl⟩)⟩⟩
  · rw [if_neg h]
    exact ⟨rfl, rfl, rfl, rfl, rfl, .inl ⟨rfl, h⟩⟩

/-! ## The invariant -/

/-- The counters' part of the invariant. -/
structure Counters (prm : Params) : Prop where
  ly : p.ly < 154
  dot : p.dot < 456
  len : 172 ≤ p.mode3Len ∧ p.mode3Len ≤ 289
  win : p.winLine ≤ p.ly ∨ (80 + p.mode3Len ≤ p.dot ∧ p.winLine = p.ly + 1)
  objs : p.lineObjs.length ≤ prm.objPerLine

theorem inv_iff (prm : Params) : p.inv prm = true ↔
    p.Counters prm ∧ (p.lcdOn = true ∨ (p.ly = 0 ∧ p.dot = 0 ∧ p.winLine = 0 ∧ p.winTriggered = false))
      ∧ p.statLine = p.statLevel := by
  simp only [inv, Bool.and_eq_true, Bool.or_eq_true, decide_eq_true_eq, Bool.not_eq_true']
  constructor
  · rintro ⟨⟨⟨⟨⟨⟨⟨h1, h2⟩, h3⟩, h4⟩, h5⟩, h6⟩, h7⟩, h8⟩
    exact ⟨⟨h1, h2, ⟨h3, h4⟩, h5, h6⟩, by simpa [and_assoc] using h7, h8⟩
  · rintro ⟨⟨h1, h2, ⟨h3, h4⟩, h5, h6⟩, h7, h8⟩
    exact ⟨⟨⟨⟨⟨⟨⟨h1, h2⟩, h3⟩, h4⟩, h5⟩, h6⟩, by simpa [and_assoc] using h7⟩, h8⟩

/-- One dot keeps the counters in range. -/
theorem dotStep_counters (prm : Params) (vram oam : Memory) (h : p.Counters prm) :
    (p.dotStep prm vram oam).1.Counters prm := by
  rw [dotStep_eq]
  obtain ⟨h1, h2, h3, h4, h5⟩ := h
  have hs := p.counted.scanned_spec prm oam
  have hc := (p.counted.scanned prm oam).composed_spec vram oam
  have he := ((p.counted.scanned prm oam).composed vram oam).ended_spec
  generalize (p.counted.scanned prm oam) = q at *
  generalize (q.composed vram oam) = r at *
  generalize r.ended = e at *
  simp only [counted] at hs
  obtain ⟨-, s2, s3, s4, -, -, -, s5⟩ := hs
  obtain ⟨-, c2, c3, c4, c5, -, -, -, c6⟩ := hc
  obtain ⟨-, e2, e3, -, -, e4⟩ := he
  have hlen : 172 ≤ q.mode3Len ∧ q.mode3Len ≤ 289 := by
    obtain h | h := s5
    · rw [h]; exact h3
    · exact ⟨h.2.1, h.2.2.1⟩
  have hobj : q.lineObjs.length ≤ prm.objPerLine := by
    obtain h | h := s5
    · rw [h]; exact h5
    · exact h.2.2.2
  have hwin : p.winLine ≤ p.ly ∨ (80 + q.mode3Len ≤ p.dot ∧ p.winLine = p.ly + 1) := by
    obtain h | h := s5
    · rw [h]; exact h4
    · left; omega
  refine ⟨?_, ?_, ?_, ?_, ?_⟩ <;> simp only [evaluateStat_ly, evaluateStat_dot, evaluateStat_mode3Len,
    evaluateStat_winLine, evaluateStat_lineObjs]
  · obtain ⟨e4, -⟩ | ⟨-, -, ⟨-, e4, -⟩ | ⟨-, e4, -⟩ | ⟨-, e5, e4, -⟩⟩ := e4
    · rw [e4]; dsimp only; omega
    · omega
    · omega
    · omega
  · obtain ⟨e4, e5⟩ | ⟨-, e4, -⟩ := e4
    · rw [e4]; dsimp only; omega
    · omega
  · rw [e2, c4]; exact hlen
  · obtain ⟨e4, -⟩ | ⟨e5, e6, ⟨e7, e4, e8, -⟩ | ⟨-, -, e8, -⟩ | ⟨-, -, e4, e8, -⟩⟩ := e4
    · rw [e4]; dsimp only; omega
    · left; omega
    · left; omega
    · left; omega
  · rw [e3, c5]; exact hobj

@[simp] theorem dotStep_lcdc (prm : Params) (vram oam : Memory) : (p.dotStep prm vram oam).1.lcdc = p.lcdc := by
  rw [dotStep_eq]
  have hs := (p.counted.scanned_spec prm oam).1
  have hc := ((p.counted.scanned prm oam).composed_spec vram oam).1
  have he := (((p.counted.scanned prm oam).composed vram oam).ended_spec).1
  rw [evaluateStat_lcdc, he, hc, hs]
  rfl

theorem dotStep_statLine (prm : Params) (vram oam : Memory) :
    (p.dotStep prm vram oam).1.statLine = (p.dotStep prm vram oam).1.statLevel := rfl

/-- `t` dots keep the counters in range, and LCDC. -/
theorem dots_counters (prm : Params) (vram oam : Memory) (t : Nat) (p : Ppu) (h : p.Counters prm) :
    (dots prm vram oam t p).1.Counters prm ∧ (dots prm vram oam t p).1.lcdc = p.lcdc
      ∧ (p.statLine = p.statLevel → (dots prm vram oam t p).1.statLine = (dots prm vram oam t p).1.statLevel) := by
  induction t generalizing p with
  | zero => exact ⟨h, rfl, id⟩
  | succ t ih =>
    have := ih (p.dotStep prm vram oam).1 (p.dotStep_counters prm vram oam h)
    exact ⟨this.1, this.2.1.trans (p.dotStep_lcdc prm vram oam), fun _ => this.2.2 (p.dotStep_statLine prm vram oam)⟩

/-- The PPU's advance keeps its invariant. -/
theorem advance_inv (prm : Params) (vram oam : Memory) (t : Nat) (h : p.inv prm = true) :
    (p.advance prm vram oam t).1.inv prm = true := by
  unfold advance
  by_cases hl : p.lcdOn = true
  · rw [if_pos hl, inv_iff]
    rw [inv_iff] at h
    obtain ⟨h1, h2, h3⟩ := dots_counters prm vram oam t p h.1
    exact ⟨h1, .inl (by rw [lcdOn, h2]; exact hl), h3 h.2.2⟩
  · rw [if_neg hl]
    exact h

/-! ## The position in the frame -/

/-- The dots since the start of line 0. -/
def position : Nat := 456 * p.ly + p.dot

/-- One dot advances the position in the frame of 70224 dots by one, and requests V-blank exactly at 65664 (R480, R491,
R504). -/
theorem dotStep_position (prm : Params) (vram oam : Memory) (h1 : p.ly < 154) (h2 : p.dot < 456) :
    (p.dotStep prm vram oam).1.position = (p.position + 1) % 70224
      ∧ (p.dotStep prm vram oam).2.getLsbD 0 = decide (p.position + 1 = 65664)
      ∧ (p.dotStep prm vram oam).1.ly < 154 ∧ (p.dotStep prm vram oam).1.dot < 456 := by
  rw [dotStep_eq]
  have hs := p.counted.scanned_spec prm oam
  have hc := (p.counted.scanned prm oam).composed_spec vram oam
  have he := ((p.counted.scanned prm oam).composed vram oam).ended_spec
  generalize (p.counted.scanned prm oam) = q at *
  generalize (q.composed vram oam) = r at *
  generalize r.ended = e at *
  have hst : (e.2 ||| e.1.evaluateStat.2).getLsbD 0 = e.2.getLsbD 0 := by
    rw [BitVec.getLsbD_or, evaluateStat_request]
    cases e.1.statLevel && !e.1.statLine <;> simp [irqIf, irqStat]
  rw [hst]
  simp only [position, evaluateStat_ly, evaluateStat_dot]
  simp only [counted] at hs
  obtain ⟨-, s2, s3, -⟩ := hs
  obtain ⟨-, c2, c3, -⟩ := hc
  obtain ⟨-, -, -, -, -, e4⟩ := he
  obtain ⟨e4, e5⟩ | ⟨e5, e6, ⟨e7, e4, -, e8⟩ | ⟨e7, e4, -, e8⟩ | ⟨e7, e9, e4, -, e8⟩⟩ := e4
  · rw [e4]
    dsimp only
    refine ⟨by omega, ?_, by omega, by omega⟩
    have : ¬ 456 * p.ly + p.dot + 1 = 65664 := by omega
    simp [this]
  · refine ⟨by omega, ?_, by omega, by omega⟩
    have : 456 * p.ly + p.dot + 1 = 65664 := by omega
    simp [this, e8, irqVblank]
  · refine ⟨by omega, ?_, by omega, by omega⟩
    have : ¬ 456 * p.ly + p.dot + 1 = 65664 := by omega
    simp [this, e8]
  · refine ⟨by omega, ?_, by omega, by omega⟩
    have : ¬ 456 * p.ly + p.dot + 1 = 65664 := by omega
    simp [this, e8]

/-! ## Register writes -/

/-- A write that leaves the counters alone and evaluates the STAT line keeps the invariant. -/
theorem evaluateStat_inv (prm : Params) (h : p.Counters prm)
    (h' : p.lcdOn = true ∨ (p.ly = 0 ∧ p.dot = 0 ∧ p.winLine = 0 ∧ p.winTriggered = false)) :
    p.evaluateStat.1.inv prm = true :=
  (inv_iff _ _).2 ⟨⟨h.ly, h.dot, h.len, h.win, h.objs⟩, h', rfl⟩

theorem writeLcdc_inv (prm : Params) (v : Byte) (h : p.inv prm = true) : (p.writeLcdc v).1.inv prm = true := by
  rw [inv_iff] at h
  obtain ⟨hc, hl, -⟩ := h
  unfold writeLcdc
  dsimp only
  split
  · refine evaluateStat_inv _ prm ⟨by simp, by simp, hc.len, by simp, by simp⟩ (.inr ⟨rfl, rfl, rfl, rfl⟩)
  · split
    · rename_i h1 h2
      simp only [Bool.and_eq_true, Bool.not_eq_true'] at h2
      have hw : p.winLine = 0 := by
        obtain hl | hl := hl
        · rw [h2.1] at hl; cases hl
        · exact hl.2.2.1
      exact evaluateStat_inv _ prm ⟨by simp, by simp, hc.len, by simp [hw], hc.objs⟩ (.inl h2.2)
    · rename_i h1 h2
      refine evaluateStat_inv _ prm ⟨hc.ly, hc.dot, hc.len, hc.win, hc.objs⟩ ?_
      obtain hl | hl := hl
      · left
        simpa [hl] using h1
      · exact .inr hl

theorem writeStat_inv (prm : Params) (v : Byte) (h : p.inv prm = true) : (p.writeStat v).1.inv prm = true := by
  rw [inv_iff] at h
  exact evaluateStat_inv _ prm ⟨h.1.ly, h.1.dot, h.1.len, h.1.win, h.1.objs⟩ h.2.1

theorem writeLyc_inv (prm : Params) (v : Byte) (h : p.inv prm = true) : (p.writeLyc v).1.inv prm = true := by
  rw [inv_iff] at h
  exact evaluateStat_inv _ prm ⟨h.1.ly, h.1.dot, h.1.len, h.1.win, h.1.objs⟩ h.2.1

end Sys2Proof.Machine.Ppu
end

