-- ==== Sys2Proof/Laws/Devices.lean ====
section
/-! SUPPORT. The laws of the cartridge, the joypad and the devices behind the bus: a controller write, a register write,
any bus write and the devices' advance keep each device's invariant. -/

namespace Sys2Proof.Machine

/-! ## Cartridge -/

namespace Cart

theorem inv_iff (c : Cart) : c.inv = true ↔
    c.bank1 ≠ 0#5 ∧ c.mbc2RomBank ≠ 0#4 ∧ c.mbc3RomBank ≠ 0#7 ∧ c.rtcSubsec < secondTCycles := by
  simp only [inv, Bool.and_eq_true, decide_eq_true_eq, and_assoc]

theorem writeRom_inv {c : Cart} (h : c.inv = true) (a : Nat) (v : Byte) : (c.writeRom a v).inv = true := by
  rw [inv_iff] at h ⊢
  obtain ⟨h1, h2, h3, h4⟩ := h
  unfold writeRom
  split
  · exact ⟨h1, h2, h3, h4⟩
  · unfold writeMbc1
    split_ifs <;> exact ⟨by first | exact h1 | (simp; assumption) | simp, h2, h3, h4⟩
  · unfold writeMbc2
    split_ifs <;> exact ⟨h1, by first | exact h2 | (simp; assumption) | simp, h3, h4⟩
  · unfold writeMbc3
    split_ifs <;> exact ⟨h1, h2, by first | exact h3 | (simp; assumption) | simp, h4⟩

theorem writeRtc_inv {c : Cart} (h : c.inv = true) (i : Nat) (v : Byte) : (c.writeRtc i v).inv = true := by
  rw [inv_iff] at h ⊢
  refine ⟨h.1, h.2.1, h.2.2.1, ?_⟩
  simp only [writeRtc]
  split
  · simp [secondTCycles]
  · exact h.2.2.2

theorem rtcAdvance_inv {c : Cart} (h : c.inv = true) (p : Params) (t : Nat) : (c.rtcAdvance p t).inv = true := by
  unfold rtcAdvance
  split
  · exact h
  · rw [inv_iff] at h ⊢
    exact ⟨h.1, h.2.1, h.2.2.1, Nat.mod_lt _ (by simp [secondTCycles])⟩

/-- The advance of the clock changes nothing that an address reaches (R137, R138). -/
theorem rtcAdvance_place (c : Cart) (p : Params) (t : Nat) (a : Word) : (c.rtcAdvance p t).place a = c.place a := by
  unfold rtcAdvance
  split <;> rfl

/-- A controller register write leaves what the header gave (R111). -/
theorem writeRom_header (c : Cart) (a : Nat) (v : Byte) :
    (c.writeRom a v).variant = c.variant ∧ (c.writeRom a v).romBanks = c.romBanks
      ∧ (c.writeRom a v).ramBanks = c.ramBanks ∧ (c.writeRom a v).ramSize = c.ramSize
      ∧ (c.writeRom a v).hasRtc = c.hasRtc ∧ (c.writeRom a v).battery = c.battery := by
  unfold writeRom writeMbc1 writeMbc2 writeMbc3
  split
  · simp
  all_goals split_ifs <;> simp [writeLatch]

end Cart

/-! ## Joypad -/

theorem Joypad.evaluate_inv (j : Joypad) : j.evaluate.1.inv = true := by
  simp [evaluate, inv, lines]

/-! ## Each device through the bus -/

namespace Bus

variable (b : Bus)

theorem ppuWrite_inv (prm : Params) (v : Byte) (r : IoReg) (h : b.ppu.inv prm = true) :
    (b.ioWrite v r).ppu.inv prm = true := by
  cases r with
  | lcdc => exact b.ppu.writeLcdc_inv prm v h
  | stat => exact b.ppu.writeStat_inv prm v h
  | lyc => exact b.ppu.writeLyc_inv prm v h
  | dma =>
    obtain ⟨m, hm, -⟩ := b.dmaWrite_eq v
    simp only [ioWrite, hm]
    exact h
  | nr10 | nr11 | nr12 | nr13 | nr14 | nr21 | nr22 | nr23 | nr24 | nr30 | nr31 | nr32 | nr33 | nr34 | nr41 | nr42
  | nr43 | nr44 | nr50 | nr51 => simp only [ioWrite, apuWrite]; split <;> exact h
  | _ => exact h

theorem apuWrite_ok (a : Apu) (h : b.apu.Ok) (ha : b.apu.on = true → a.Ok) : (b.apuWrite a).apu.Ok := by
  unfold apuWrite
  split
  · exact ha ‹_›
  · exact h

theorem apuIoWrite_ok (v : Byte) (r : IoReg) (h : b.apu.Ok) : (b.ioWrite v r).apu.Ok := by
  cases r with
  | nr10 => exact b.apuWrite_ok _ h fun _ => ⟨h.ch1, h.ch2, h.ch3, h.ch4, h.fs⟩
  | nr11 => exact b.apuWrite_ok _ h fun _ => ⟨h.ch1.writeNr1 v, h.ch2, h.ch3, h.ch4, h.fs⟩
  | nr12 => exact b.apuWrite_ok _ h fun _ => ⟨h.ch1.writeNr2 v, h.ch2, h.ch3, h.ch4, h.fs⟩
  | nr13 => exact b.apuWrite_ok _ h fun _ => ⟨h.ch1.writeNr3 v, h.ch2, h.ch3, h.ch4, h.fs⟩
  | nr14 => exact b.apuWrite_ok _ h fun hon => h.writeNr14 hon v
  | nr21 => exact b.apuWrite_ok _ h fun _ => ⟨h.ch1, h.ch2.writeNr1 v, h.ch3, h.ch4, h.fs⟩
  | nr22 => exact b.apuWrite_ok _ h fun _ => ⟨h.ch1, h.ch2.writeNr2 v, h.ch3, h.ch4, h.fs⟩
  | nr23 => exact b.apuWrite_ok _ h fun _ => ⟨h.ch1, h.ch2.writeNr3 v, h.ch3, h.ch4, h.fs⟩
  | nr24 => exact b.apuWrite_ok _ h fun hon => h.writeNr24 hon v
  | nr30 => exact b.apuWrite_ok _ h fun _ => ⟨h.ch1, h.ch2, h.ch3.writeNr0 v, h.ch4, h.fs⟩
  | nr31 => exact b.apuWrite_ok _ h fun _ => ⟨h.ch1, h.ch2, h.ch3.writeNr1 v, h.ch4, h.fs⟩
  | nr32 => exact b.apuWrite_ok _ h fun _ => ⟨h.ch1, h.ch2, h.ch3.writeNr2 v, h.ch4, h.fs⟩
  | nr33 => exact b.apuWrite_ok _ h fun _ => ⟨h.ch1, h.ch2, h.ch3.writeNr3 v, h.ch4, h.fs⟩
  | nr34 =>
    refine b.apuWrite_ok _ h fun hon => ⟨h.ch1, h.ch2, ?_, h.ch4, h.fs⟩
    exact hon ▸ Wave.Ok.writeNr4 (hon ▸ h.ch3) v
  | nr41 => exact b.apuWrite_ok _ h fun _ => ⟨h.ch1, h.ch2, h.ch3, h.ch4.writeNr1 v, h.fs⟩
  | nr42 => exact b.apuWrite_ok _ h fun _ => ⟨h.ch1, h.ch2, h.ch3, h.ch4.writeNr2 v, h.fs⟩
  | nr43 => exact b.apuWrite_ok _ h fun _ => ⟨h.ch1, h.ch2, h.ch3, h.ch4.setNr43 v, h.fs⟩
  | nr44 =>
    refine b.apuWrite_ok _ h fun hon => ⟨h.ch1, h.ch2, h.ch3, ?_, h.fs⟩
    exact hon ▸ Noise.Ok.writeNr4 (hon ▸ h.ch4) v
  | nr50 => exact b.apuWrite_ok _ h fun _ => ⟨h.ch1, h.ch2, h.ch3, h.ch4, h.fs⟩
  | nr51 => exact b.apuWrite_ok _ h fun _ => ⟨h.ch1, h.ch2, h.ch3, h.ch4, h.fs⟩
  | nr52 => exact h.writeNr52 v
  | dma =>
    obtain ⟨m, hm, -⟩ := b.dmaWrite_eq v
    simp only [ioWrite, hm]
    exact h
  | _ => exact h

theorem joyIoWrite_inv (v : Byte) (r : IoReg) (h : b.joy.inv = true) : (b.ioWrite v r).joy.inv = true := by
  cases r with
  | p1 => exact Joypad.evaluate_inv _
  | dma =>
    obtain ⟨m, hm, -⟩ := b.dmaWrite_eq v
    simp only [ioWrite, hm]
    exact h
  | nr10 | nr11 | nr12 | nr13 | nr14 | nr21 | nr22 | nr23 | nr24 | nr30 | nr31 | nr32 | nr33 | nr34 | nr41 | nr42
  | nr43 | nr44 | nr50 | nr51 => simp only [ioWrite, apuWrite]; split <;> exact h
  | _ => exact h

/-- The cost an OAM copy leaves is nothing or 160 M-cycles (R91). -/
theorem dmaCostIoWrite (v : Byte) (r : IoReg) (h : b.dmaCost = 0 ∨ b.dmaCost = 160) :
    (b.ioWrite v r).dmaCost = 0 ∨ (b.ioWrite v r).dmaCost = 160 := by
  by_cases hr : r = .dma
  · subst hr
    exact .inr rfl
  · rw [((b.ioWrite_memories v r).2.2.2.2.2.2.2.2 hr).2]
    exact h

/-- The devices' invariants together. -/
structure DevicesOk (prm : Params) : Prop where
  ppu : b.ppu.inv prm = true
  apu : b.apu.inv = true
  cart : b.cart.inv = true
  joy : b.joy.inv = true
  dma : b.dmaCost = 0 ∨ b.dmaCost = 160

/-- Any bus write keeps the devices' invariants. -/
theorem DevicesOk.write {b : Bus} {prm : Params} (h : b.DevicesOk prm) (a : Word) (v : Byte) :
    (b.write prm a v).DevicesOk prm := by
  unfold Bus.write
  split
  · exact h
  · cases b.cart.place a with
    | rom o => exact ⟨h.ppu, h.apu, Cart.writeRom_inv h.cart _ v, h.joy, h.dma⟩
    | rtc i => exact ⟨h.ppu, h.apu, Cart.writeRtc_inv h.cart i v, h.joy, h.dma⟩
    | io r =>
      refine ⟨b.ppuWrite_inv prm v r h.ppu, ?_, ?_, b.joyIoWrite_inv v r h.joy, b.dmaCostIoWrite v r h.dma⟩
      · exact (Apu.inv_iff _).2 (b.apuIoWrite_ok v r ((Apu.inv_iff _).1 h.apu))
      · exact (b.ioWrite_memories v r).2.2.2.2.2.2.1.symm ▸ h.cart
    | _ => exact ⟨h.ppu, h.apu, h.cart, h.joy, h.dma⟩

/-- The devices' advance keeps their invariants. -/
theorem DevicesOk.advance {b : Bus} {prm : Params} (h : b.DevicesOk prm) (t : Nat) : (b.advance prm t).DevicesOk prm :=
  ⟨b.ppu.advance_inv prm b.vram b.oam t h.ppu,
    (Apu.inv_iff _).2 (((Apu.inv_iff _).1 h.apu).advance prm b.waveRam t), Cart.rtcAdvance_inv h.cart prm t, h.joy,
    h.dma⟩

end Bus

end Sys2Proof.Machine
end

