-- ==== Sys2Proof/Laws/Flags.lean ====
section
/-! SUPPORT. The arithmetic and logic functions in other words: sums as bit vector sums, rotations as rotations, single
bits. -/

namespace Sys2Proof.Machine

theorem carry_toNat (c : Bool) : ((BitVec.ofBool c).zeroExtend 8).toNat = c.toNat := by cases c <;> rfl

/-- `Add8` as a bit vector sum (R250). -/
theorem add8_eq (a v : Byte) (c : Bool) : add8 a v c =
    ⟨a + v + (BitVec.ofBool c).zeroExtend 8, decide (a + v + (BitVec.ofBool c).zeroExtend 8 = 0#8), false,
      decide (0xF < a.toNat % 16 + v.toNat % 16 + c.toNat), decide (0xFF < a.toNat + v.toNat + c.toNat)⟩ := by
  have hr : BitVec.ofNat 8 (a.toNat + v.toNat + c.toNat) = a + v + (BitVec.ofBool c).zeroExtend 8 := by
    apply BitVec.eq_of_toNat_eq
    simp only [BitVec.toNat_ofNat, BitVec.toNat_add, carry_toNat]
    omega
  simp only [add8, Byte.lowNibble, hr, AluResult.mk.injEq, true_and, and_true, decide_eq_decide]
  refine ⟨?_, rfl⟩
  rw [← hr]
  constructor
  · intro h
    apply BitVec.eq_of_toNat_eq
    simpa using h
  · intro h
    simpa using congrArg BitVec.toNat h

/-- `Sub8` as a bit vector difference (R250). -/
theorem sub8_eq (a v : Byte) (c : Bool) : sub8 a v c =
    ⟨a - v - (BitVec.ofBool c).zeroExtend 8, decide (a - v - (BitVec.ofBool c).zeroExtend 8 = 0#8), true,
      decide (a.toNat % 16 < v.toNat % 16 + c.toNat), decide (a.toNat < v.toNat + c.toNat)⟩ := by
  have hd : ∀ k : Nat, k ≤ 1 → BitVec.ofInt 8 ((a.toNat : Int) - v.toNat - k) = a - v - BitVec.ofNat 8 k := by
    intro k hk
    apply BitVec.eq_of_toNat_eq
    have := a.isLt
    have := v.isLt
    simp only [BitVec.toNat_ofInt, BitVec.toNat_sub, BitVec.toNat_ofNat]
    omega
  have hc : (BitVec.ofBool c).zeroExtend 8 = BitVec.ofNat 8 c.toNat := by cases c <;> rfl
  have hr := hd c.toNat (by cases c <;> decide)
  rw [← hc] at hr
  have hz : ((a.toNat : Int) - v.toNat - c.toNat) % 256 = 0 ↔ a - v - (BitVec.ofBool c).zeroExtend 8 = 0#8 := by
    rw [← hr]
    constructor
    · intro h
      apply BitVec.eq_of_toNat_eq
      simp only [BitVec.toNat_ofInt, BitVec.toNat_ofNat]
      omega
    · intro h
      have := congrArg BitVec.toNat h
      simp only [BitVec.toNat_ofInt, BitVec.toNat_ofNat] at this
      omega
  have hb : ((a.toNat : Int) - v.toNat - c.toNat < 0) ↔ a.toNat < v.toNat + c.toNat := by omega
  simp only [sub8, Byte.lowNibble, hr, AluResult.mk.injEq, true_and]
  exact ⟨decide_eq_decide.2 hz, rfl, decide_eq_decide.2 hb⟩

/-- Whether A equals the other operand decides Z of a compare (R272). -/
theorem sub8_false_z (a v : Byte) : (sub8 a v false).z = decide (a = v) := by
  rw [sub8_eq]
  simp only [decide_eq_decide]
  change a - v - 0#8 = 0#8 ↔ _
  rw [BitVec.sub_zero]
  constructor
  · intro h
    have := congrArg (· + v) h
    simpa [BitVec.sub_add_cancel] using this
  · rintro rfl
    exact BitVec.sub_self a

theorem rlc8_eq (v : Byte) : rlc8 v = ⟨v.rotateLeft 1, decide (v.rotateLeft 1 = 0#8), false, false, v.getLsbD 7⟩ := by
  revert v; decide

theorem rrc8_eq (v : Byte) : rrc8 v = ⟨v.rotateRight 1, decide (v.rotateRight 1 = 0#8), false, false, v.getLsbD 0⟩ := by
  revert v; decide

theorem rl8_eq (v : Byte) (c : Bool) : rl8 v c = ⟨(v <<< 1) ||| (BitVec.ofBool c).zeroExtend 8,
    decide ((v <<< 1) ||| (BitVec.ofBool c).zeroExtend 8 = 0#8), false, false, v.getLsbD 7⟩ := by
  revert v c; decide

theorem rr8_eq (v : Byte) (c : Bool) : rr8 v c = ⟨(v >>> 1) ||| ((BitVec.ofBool c).zeroExtend 8 <<< 7),
    decide ((v >>> 1) ||| ((BitVec.ofBool c).zeroExtend 8 <<< 7) = 0#8), false, false, v.getLsbD 0⟩ := by
  revert v c; decide

theorem sla8_eq (v : Byte) : sla8 v = ⟨v <<< 1, decide (v <<< 1 = 0#8), false, false, v.getLsbD 7⟩ := by
  revert v; decide

theorem sra8_eq (v : Byte) : sra8 v = ⟨v.sshiftRight 1, decide (v.sshiftRight 1 = 0#8), false, false, v.getLsbD 0⟩ := by
  revert v; decide

theorem swap8_eq (v : Byte) : swap8 v = ⟨v.rotateLeft 4, decide (v.rotateLeft 4 = 0#8), false, false, false⟩ := by
  revert v; decide

theorem srl8_eq (v : Byte) : srl8 v = ⟨v >>> 1, decide (v >>> 1 = 0#8), false, false, v.getLsbD 0⟩ := by
  revert v; decide

theorem inc8_eq (v : Byte) (c : Bool) : inc8 v c =
    ⟨v + 1#8, decide (v = 0xFF#8), false, decide (v.toNat % 16 = 15), c⟩ := by
  revert v c; decide

theorem dec8_eq (v : Byte) (c : Bool) : dec8 v c =
    ⟨v - 1#8, decide (v = 0x01#8), true, decide (v.toNat % 16 = 0), c⟩ := by
  revert v c; decide

/-- RES, bit by bit (R322). -/
theorem resBit_getLsbD (b : BitVec 3) (v : Byte) (j : Nat) (hj : j < 8) :
    (resBit b v).getLsbD j = (decide (j ≠ b.toNat) && v.getLsbD j) := by
  have hb := b.isLt
  simp only [resBit, BitVec.getLsbD_and, BitVec.getLsbD_not, BitVec.getLsbD_shiftLeft, BitVec.getLsbD_one, hj,
    decide_true, Bool.true_and]
  by_cases h : j = b.toNat
  · simp [h]
  · by_cases h1 : j < b.toNat
    · simp [h, h1]
    · have h2 : j - b.toNat ≠ 0 := by omega
      simp [h, h1, h2]

/-- SET, bit by bit (R324). -/
theorem setBit_getLsbD (b : BitVec 3) (v : Byte) (j : Nat) (hj : j < 8) :
    (setBit b v).getLsbD j = (decide (j = b.toNat) || v.getLsbD j) := by
  have hb := b.isLt
  simp only [setBit, BitVec.getLsbD_or, BitVec.getLsbD_shiftLeft, BitVec.getLsbD_one, hj, decide_true, Bool.true_and]
  by_cases h : j = b.toNat
  · simp [h]
  · by_cases h1 : j < b.toNat
    · simp [h, h1]
    · have h2 : j - b.toNat ≠ 0 := by omega
      simp [h, h1, h2]

/-- The address that LDH forms (R157). -/
theorem highPage_eq (n : Byte) : n.highPage = 0xFF00#16 + n.zeroExtend 16 := by
  revert n; decide

end Sys2Proof.Machine
end

