-- ==== Sys2Proof/Laws/PerInstr.lean ====
section
/-! SUPPORT. Statements made of every instruction as syntax, one lemma per constructor. `EncodeLength`: the encoding of
an instruction is as long as its first byte alone says (R150, R163). -/

namespace Sys2Proof.Laws

/-- The encoding is not empty, and its length is the one its first byte gives. -/
def EncodeLength.Statement (i : Instr) : Prop := (encode i).head?.map opLength = some (encode i).length

theorem EncodeLength.ldRR (d : Reg8) (s : Reg8) : EncodeLength.Statement (.ldRR d s) := by
  cases d <;> cases s <;> rfl

theorem EncodeLength.ldRN (d : Reg8) (n : Byte) : EncodeLength.Statement (.ldRN d n) := by
  cases d <;> rfl

theorem EncodeLength.ldRHL (d : Reg8) : EncodeLength.Statement (.ldRHL d) := by
  cases d <;> rfl

theorem EncodeLength.ldHLR (s : Reg8) : EncodeLength.Statement (.ldHLR s) := by
  cases s <;> rfl

theorem EncodeLength.ldHLN (n : Byte) : EncodeLength.Statement (.ldHLN n) := rfl

theorem EncodeLength.ldABC : EncodeLength.Statement .ldABC := rfl

theorem EncodeLength.ldADE : EncodeLength.Statement .ldADE := rfl

theorem EncodeLength.ldBCA : EncodeLength.Statement .ldBCA := rfl

theorem EncodeLength.ldDEA : EncodeLength.Statement .ldDEA := rfl

theorem EncodeLength.ldANn (nn : Word) : EncodeLength.Statement (.ldANn nn) := rfl

theorem EncodeLength.ldNnA (nn : Word) : EncodeLength.Statement (.ldNnA nn) := rfl

theorem EncodeLength.ldhAC : EncodeLength.Statement .ldhAC := rfl

theorem EncodeLength.ldhCA : EncodeLength.Statement .ldhCA := rfl

theorem EncodeLength.ldhAN (n : Byte) : EncodeLength.Statement (.ldhAN n) := rfl

theorem EncodeLength.ldhNA (n : Byte) : EncodeLength.Statement (.ldhNA n) := rfl

theorem EncodeLength.ldAHLD : EncodeLength.Statement .ldAHLD := rfl

theorem EncodeLength.ldHLDA : EncodeLength.Statement .ldHLDA := rfl

theorem EncodeLength.ldAHLI : EncodeLength.Statement .ldAHLI := rfl

theorem EncodeLength.ldHLIA : EncodeLength.Statement .ldHLIA := rfl

theorem EncodeLength.ldRpNn (p : Reg16) (nn : Word) : EncodeLength.Statement (.ldRpNn p nn) := by
  cases p <;> rfl

theorem EncodeLength.ldNnSP (nn : Word) : EncodeLength.Statement (.ldNnSP nn) := rfl

theorem EncodeLength.ldSPHL : EncodeLength.Statement .ldSPHL := rfl

theorem EncodeLength.ldHLSPE (e : Byte) : EncodeLength.Statement (.ldHLSPE e) := rfl

theorem EncodeLength.pushQ (q : RegStk) : EncodeLength.Statement (.pushQ q) := by
  cases q <;> rfl

theorem EncodeLength.popQ (q : RegStk) : EncodeLength.Statement (.popQ q) := by
  cases q <;> rfl

theorem EncodeLength.addR (s : Reg8) : EncodeLength.Statement (.addR s) := by
  cases s <;> rfl

theorem EncodeLength.addHL : EncodeLength.Statement .addHL := rfl

theorem EncodeLength.addN (n : Byte) : EncodeLength.Statement (.addN n) := rfl

theorem EncodeLength.adcR (s : Reg8) : EncodeLength.Statement (.adcR s) := by
  cases s <;> rfl

theorem EncodeLength.adcHL : EncodeLength.Statement .adcHL := rfl

theorem EncodeLength.adcN (n : Byte) : EncodeLength.Statement (.adcN n) := rfl

theorem EncodeLength.subR (s : Reg8) : EncodeLength.Statement (.subR s) := by
  cases s <;> rfl

theorem EncodeLength.subHL : EncodeLength.Statement .subHL := rfl

theorem EncodeLength.subN (n : Byte) : EncodeLength.Statement (.subN n) := rfl

theorem EncodeLength.sbcR (s : Reg8) : EncodeLength.Statement (.sbcR s) := by
  cases s <;> rfl

theorem EncodeLength.sbcHL : EncodeLength.Statement .sbcHL := rfl

theorem EncodeLength.sbcN (n : Byte) : EncodeLength.Statement (.sbcN n) := rfl

theorem EncodeLength.andR (s : Reg8) : EncodeLength.Statement (.andR s) := by
  cases s <;> rfl

theorem EncodeLength.andHL : EncodeLength.Statement .andHL := rfl

theorem EncodeLength.andN (n : Byte) : EncodeLength.Statement (.andN n) := rfl

theorem EncodeLength.xorR (s : Reg8) : EncodeLength.Statement (.xorR s) := by
  cases s <;> rfl

theorem EncodeLength.xorHL : EncodeLength.Statement .xorHL := rfl

theorem EncodeLength.xorN (n : Byte) : EncodeLength.Statement (.xorN n) := rfl

theorem EncodeLength.orR (s : Reg8) : EncodeLength.Statement (.orR s) := by
  cases s <;> rfl

theorem EncodeLength.orHL : EncodeLength.Statement .orHL := rfl

theorem EncodeLength.orN (n : Byte) : EncodeLength.Statement (.orN n) := rfl

theorem EncodeLength.cpR (s : Reg8) : EncodeLength.Statement (.cpR s) := by
  cases s <;> rfl

theorem EncodeLength.cpHL : EncodeLength.Statement .cpHL := rfl

theorem EncodeLength.cpN (n : Byte) : EncodeLength.Statement (.cpN n) := rfl

theorem EncodeLength.incR (d : Reg8) : EncodeLength.Statement (.incR d) := by
  cases d <;> rfl

theorem EncodeLength.incHL : EncodeLength.Statement .incHL := rfl

theorem EncodeLength.decR (d : Reg8) : EncodeLength.Statement (.decR d) := by
  cases d <;> rfl

theorem EncodeLength.decHL : EncodeLength.Statement .decHL := rfl

theorem EncodeLength.daa : EncodeLength.Statement .daa := rfl

theorem EncodeLength.cpl : EncodeLength.Statement .cpl := rfl

theorem EncodeLength.scf : EncodeLength.Statement .scf := rfl

theorem EncodeLength.ccf : EncodeLength.Statement .ccf := rfl

theorem EncodeLength.addHLRp (p : Reg16) : EncodeLength.Statement (.addHLRp p) := by
  cases p <;> rfl

theorem EncodeLength.incRp (p : Reg16) : EncodeLength.Statement (.incRp p) := by
  cases p <;> rfl

theorem EncodeLength.decRp (p : Reg16) : EncodeLength.Statement (.decRp p) := by
  cases p <;> rfl

theorem EncodeLength.addSPE (e : Byte) : EncodeLength.Statement (.addSPE e) := rfl

theorem EncodeLength.rlca : EncodeLength.Statement .rlca := rfl

theorem EncodeLength.rrca : EncodeLength.Statement .rrca := rfl

theorem EncodeLength.rla : EncodeLength.Statement .rla := rfl

theorem EncodeLength.rra : EncodeLength.Statement .rra := rfl

theorem EncodeLength.jpNn (nn : Word) : EncodeLength.Statement (.jpNn nn) := rfl

theorem EncodeLength.jpCc (c : Cond) (nn : Word) : EncodeLength.Statement (.jpCc c nn) := by
  cases c <;> rfl

theorem EncodeLength.jpHL : EncodeLength.Statement .jpHL := rfl

theorem EncodeLength.jrE (e : Byte) : EncodeLength.Statement (.jrE e) := rfl

theorem EncodeLength.jrCc (c : Cond) (e : Byte) : EncodeLength.Statement (.jrCc c e) := by
  cases c <;> rfl

theorem EncodeLength.callNn (nn : Word) : EncodeLength.Statement (.callNn nn) := rfl

theorem EncodeLength.callCc (c : Cond) (nn : Word) : EncodeLength.Statement (.callCc c nn) := by
  cases c <;> rfl

theorem EncodeLength.ret : EncodeLength.Statement .ret := rfl

theorem EncodeLength.retCc (c : Cond) : EncodeLength.Statement (.retCc c) := by
  cases c <;> rfl

theorem EncodeLength.reti : EncodeLength.Statement .reti := rfl

theorem EncodeLength.rst (y : BitVec 3) : EncodeLength.Statement (.rst y) := by
  revert y; unfold EncodeLength.Statement; decide

theorem EncodeLength.nop : EncodeLength.Statement .nop := rfl

theorem EncodeLength.di : EncodeLength.Statement .di := rfl

theorem EncodeLength.halt : EncodeLength.Statement .halt := rfl

theorem EncodeLength.stop (n : Byte) : EncodeLength.Statement (.stop n) := rfl

theorem EncodeLength.ei : EncodeLength.Statement .ei := rfl

theorem EncodeLength.prefixCB (op2 : Byte) : EncodeLength.Statement (.prefixCB op2) := rfl

theorem EncodeLength.undefD3 : EncodeLength.Statement .undefD3 := rfl

theorem EncodeLength.undefDB : EncodeLength.Statement .undefDB := rfl

theorem EncodeLength.undefDD : EncodeLength.Statement .undefDD := rfl

theorem EncodeLength.undefE3 : EncodeLength.Statement .undefE3 := rfl

theorem EncodeLength.undefE4 : EncodeLength.Statement .undefE4 := rfl

theorem EncodeLength.undefEB : EncodeLength.Statement .undefEB := rfl

theorem EncodeLength.undefEC : EncodeLength.Statement .undefEC := rfl

theorem EncodeLength.undefED : EncodeLength.Statement .undefED := rfl

theorem EncodeLength.undefF4 : EncodeLength.Statement .undefF4 := rfl

theorem EncodeLength.undefFC : EncodeLength.Statement .undefFC := rfl

theorem EncodeLength.undefFD : EncodeLength.Statement .undefFD := rfl

theorem EncodeLength.rlcR (s : Reg8) : EncodeLength.Statement (.rlcR s) := rfl

theorem EncodeLength.rlcHL : EncodeLength.Statement .rlcHL := rfl

theorem EncodeLength.rrcR (s : Reg8) : EncodeLength.Statement (.rrcR s) := rfl

theorem EncodeLength.rrcHL : EncodeLength.Statement .rrcHL := rfl

theorem EncodeLength.rlR (s : Reg8) : EncodeLength.Statement (.rlR s) := rfl

theorem EncodeLength.rlHL : EncodeLength.Statement .rlHL := rfl

theorem EncodeLength.rrR (s : Reg8) : EncodeLength.Statement (.rrR s) := rfl

theorem EncodeLength.rrHL : EncodeLength.Statement .rrHL := rfl

theorem EncodeLength.slaR (s : Reg8) : EncodeLength.Statement (.slaR s) := rfl

theorem EncodeLength.slaHL : EncodeLength.Statement .slaHL := rfl

theorem EncodeLength.sraR (s : Reg8) : EncodeLength.Statement (.sraR s) := rfl

theorem EncodeLength.sraHL : EncodeLength.Statement .sraHL := rfl

theorem EncodeLength.swapR (s : Reg8) : EncodeLength.Statement (.swapR s) := rfl

theorem EncodeLength.swapHL : EncodeLength.Statement .swapHL := rfl

theorem EncodeLength.srlR (s : Reg8) : EncodeLength.Statement (.srlR s) := rfl

theorem EncodeLength.srlHL : EncodeLength.Statement .srlHL := rfl

theorem EncodeLength.bitR (b : BitVec 3) (s : Reg8) : EncodeLength.Statement (.bitR b s) := rfl

theorem EncodeLength.bitHL (b : BitVec 3) : EncodeLength.Statement (.bitHL b) := rfl

theorem EncodeLength.resR (b : BitVec 3) (s : Reg8) : EncodeLength.Statement (.resR b s) := rfl

theorem EncodeLength.resHL (b : BitVec 3) : EncodeLength.Statement (.resHL b) := rfl

theorem EncodeLength.setR (b : BitVec 3) (s : Reg8) : EncodeLength.Statement (.setR b s) := rfl

theorem EncodeLength.setHL (b : BitVec 3) : EncodeLength.Statement (.setHL b) := rfl

end Sys2Proof.Laws
end

