-- ==== Sys2Proof/Laws/Shapes.lean ====
section
/-! SUPPORT. One lemma per shape of instruction: a meaning of that form does what the shape of Safety.lean says. -/

namespace Sys2Proof.Machine

/-- The bytes of format F3 (R151). -/
theorem decode_f3 (op : Byte) (h : opLength op = 3) (nn : Word) :
    decode [op, Word.lo nn, Word.hi nn] = .ok (decodeBytes op (Word.lo nn) (Word.hi nn), []) := by
  simp [decode, h]

/-- An instruction with a word operand, whichever opcode it has (R151). -/
theorem encodedAs_f3 {op : Byte} (h : opLength op = 3) (f : Word → Instr) (nn : Word)
    (hf : ∀ lo hi, decodeBytes op lo hi = f (Word.ofBytes hi lo)) : (f nn).EncodedAs [op, Word.lo nn, Word.hi nn] := by
  rw [Instr.EncodedAs, decode_f3 _ h, hf, Regs.ofBytes_hi_lo]

/-! ## Signed displacements (R157) -/

/-- Adding a sign-extended byte is adding its signed value modulo 65536. -/
theorem add_sext_toNat (w : Word) (e : Byte) : ((w + e.signExtend 16).toNat : Int) = (w.toNat + e.toInt) % 65536 := by
  have := w.isLt
  have h1 : (e.signExtend 16).toNat = (e.toInt % 65536).toNat := by
    rw [BitVec.signExtend, BitVec.toNat_ofInt]
    rfl
  rw [BitVec.toNat_add, h1]
  have := e.toInt_lt
  have := e.le_toInt
  omega

theorem add_sext_ofInt (w : Word) (e : Byte) : w + e.sext = BitVec.ofInt 16 (w.toNat + e.toInt) := by
  apply BitVec.eq_of_toNat_eq
  have := add_sext_toNat w e
  rw [BitVec.toNat_ofInt]
  simp only [Byte.sext]
  omega

theorem Regs.hl_setHL (r : Regs) (v : Word) : (r.setHL v).hl = v := by simp [setHL, hl]

namespace State

variable {s : State} {i : Instr} {bs : List Byte}

/-- A state that differs in registers and cycles only. -/
theorem onlyRegs_mk (s : State) (r : Regs) (n : Nat) : s.OnlyRegs { s with regs := r, cycles := n } n :=
  ⟨⟨rfl, rfl, rfl, rfl, rfl, rfl, rfl⟩, ⟨rfl, fun _ => rfl⟩, rfl⟩

/-- A byte store by the CPU (R62). -/
theorem oneStore_mk (s : State) (r : Regs) (a : Word) (v : Byte) (n : Nat) (hm : s.mode = .running)
    (hi : s.bus.memInv = true) : s.OneStore ({ s.memWrite a v with regs := r }.takes n) a v n :=
  ⟨⟨rfl, rfl, by simp [hm], rfl, rfl, rfl, rfl⟩, Bus.write_storedAt _ _ _ _ hi, rfl⟩

/-- Two byte stores by the CPU (R87). -/
theorem twoStores_mk (s : State) {t : State} {a₁ a₂ : Word} {v₁ v₂ : Byte} {n : Nat} (hi : s.bus.memInv = true)
    (hc : s.SameControl t) (hb : t.bus = (s.bus.write s.params a₁ v₁).write s.params a₂ v₂) (hn : t.cycles = n) :
    s.TwoStores t a₁ v₁ a₂ v₂ n :=
  ⟨hc, ⟨_, Bus.write_storedAt _ _ _ _ hi,
    hb ▸ Bus.write_storedAt _ _ _ _ (Bus.write_memInv _ _ _ _ hi)⟩, hn⟩

theorem loads_of {d : Reg8} {v : Byte} {n : Nat} (h1 : i.EncodedAs bs)
    (h2 : exec i s = .next ((s.setReg8 d v).takes n)) : s.Loads i bs d v n := by
  refine ⟨h1, _, h2, ?_, ⟨fun x hx => ?_, ?_⟩, ⟨?_, ?_⟩, onlyRegs_mk s _ n⟩
  · simp [reg8]
  · simpa using Regs.get8_set8_of_ne _ (by simpa using hx) _
  all_goals simp

theorem computes_of {d : Reg8} {o : AluResult} {v : Byte} {z n h c : Bool} {k : Nat} (h1 : i.EncodedAs bs)
    (h2 : exec i s = .next ((s.setAlu d o).takes k)) (ho : o = ⟨v, z, n, h, c⟩) :
    s.Computes i bs d v z n h c k := by
  subst ho
  refine ⟨h1, _, h2, ?_, Regs.setFlags_flagsAre _ _ _ _ _, fun x hx => ?_, ⟨?_, ?_⟩, onlyRegs_mk s _ k⟩
  · simp [reg8]
  · simpa using Regs.get8_set8_of_ne _ (by simpa using hx) _
  all_goals simp

theorem tests_of {z n h c : Bool} {k : Nat} (h1 : i.EncodedAs bs)
    (h2 : exec i s = .next ((s.setFlags z n h c).takes k)) : s.Tests i bs z n h c k :=
  ⟨h1, _, h2, Regs.setFlags_flagsAre _ _ _ _ _, fun x _ => by simp, ⟨rfl, rfl⟩, onlyRegs_mk s _ k⟩

theorem adds_of {v : Byte} {c : Bool} {k : Nat} (h1 : i.EncodedAs bs)
    (h2 : exec i s = .next ((s.setAlu .a (add8 s.regs.a v c)).takes k)) : s.Adds i bs v c k :=
  computes_of h1 h2 (add8_eq _ _ _)

theorem subtracts_of {v : Byte} {c : Bool} {k : Nat} (h1 : i.EncodedAs bs)
    (h2 : exec i s = .next ((s.setAlu .a (sub8 s.regs.a v c)).takes k)) : s.Subtracts i bs v c k :=
  computes_of h1 h2 (sub8_eq _ _ _)

theorem compares_of {v : Byte} {k : Nat} (h1 : i.EncodedAs bs)
    (h2 : exec i s = .next ((s.setAluFlags (sub8 s.regs.a v false)).takes k)) : s.Compares i bs v k := by
  refine tests_of h1 ?_
  rw [h2, setAluFlags, sub8_false_z, sub8_eq]
  rfl

theorem rotatesA_of {o : AluResult} {v : Byte} {z n h c : Bool} {k : Nat} (h1 : i.EncodedAs bs)
    (h2 : exec i s = .next ((s.setRotatedA o).takes k)) (ho : o = ⟨v, z, n, h, c⟩) :
    s.Computes i bs .a v false false false c k := by
  subst ho
  refine ⟨h1, _, h2, rfl, Regs.setFlags_flagsAre _ _ _ _ _, fun x hx => ?_, ⟨rfl, rfl⟩, onlyRegs_mk s _ _⟩
  cases x <;> first | rfl | simp at hx

theorem stores_of {a : Word} {v : Byte} {n : Nat} (hm : s.mode = .running) (hi : s.bus.memInv = true)
    (h1 : i.EncodedAs bs) (h2 : exec i s = .next ((s.memWrite a v).takes n)) : s.Stores i bs a v n :=
  ⟨h1, _, h2, rfl, oneStore_mk s s.regs a v n hm hi⟩

theorem updates_of {o : AluResult} {v : Byte} {z n h c : Bool} {k : Nat} (hm : s.mode = .running)
    (hi : s.bus.memInv = true) (h1 : i.EncodedAs bs) (h2 : exec i s = .next ((s.updateHL o).takes k))
    (ho : o = ⟨v, z, n, h, c⟩) : s.Updates i bs v z n h c k := by
  subst ho
  exact ⟨h1, _, h2, Regs.setFlags_flagsAre _ _ _ _ _, fun x _ => by simp, ⟨rfl, rfl⟩, oneStore_mk s _ _ _ k hm hi⟩

theorem jumps_of {a : Word} {k : Nat} (h1 : i.EncodedAs bs) (h2 : exec i s = .next ((s.setPC a).takes k)) :
    s.Jumps i bs a k :=
  ⟨h1, _, h2, rfl, onlyRegs_mk s _ k⟩

theorem calls_of {a : Word} {k : Nat} (hm : s.mode = .running) (hi : s.bus.memInv = true) (h1 : i.EncodedAs bs)
    (h2 : exec i s = .next ((s.callTo a).takes k)) : s.Calls i bs a k :=
  ⟨h1, _, h2, by simp, twoStores_mk s hi ⟨rfl, rfl, by simp [hm], rfl, rfl, rfl, rfl⟩ (by simp) rfl⟩

end State

end Sys2Proof.Machine
end

