-- ==== Sys2Proof/Laws/Step.lean ====
section
/-! SUPPORT. What a CPU step and a tick can do (R14, R420), and the induction that every bus invariant goes through. -/

namespace Sys2Proof.Machine

/-- What a CPU step can do: bus writes, then at most a change of IF; IF is never enlarged by the CPU alone. -/
structure StepEffect (s t : State) : Prop where
  params : t.params = s.params
  bus : ∃ b f, Bus.Written s.params s.bus b ∧ t.bus = { b with iflag := f }
  lowNibble : s.regs.f.extractLsb' 0 4 = 0#4 → t.regs.f.extractLsb' 0 4 = 0#4
  cycles : 1 ≤ t.cycles ∧ t.cycles ≤ 6
  hold : t.haltPcHold = true → s.haltPcHold = true ∨ s.params.haltBug = true

theorem Effect.toStepEffect {s t : State} (h : Effect s t) : StepEffect s t :=
  ⟨h.params, ⟨t.bus, t.bus.iflag, h.written, rfl⟩, h.lowNibble, h.cycles, h.hold⟩

namespace State

variable (s : State)

/-- A step that executes nothing costs one M-cycle (R430). -/
theorem takes_one_effect : StepEffect s (s.takes 1) :=
  ⟨rfl, ⟨s.bus, s.bus.iflag, .refl _, rfl⟩, id, by simp, .inl⟩

theorem dispatch_effect : StepEffect s s.dispatch := by
  refine ⟨by simp, ⟨_, _, ?_, s.dispatch_bus⟩, ?_, by simp, by simp⟩
  · exact .step _ _ (.step _ _ (.refl _))
  · rw [dispatch_regs]
    simp

/-- An instruction, with what the fetch and the EI delay add. -/
theorem execute_effect : ∃ t, mapAnswer (eiEffect s.imePending) s.execute = .next t ∧ StepEffect s t := by
  obtain ⟨t, ht, he⟩ := exec_effect s.fetched s.afterFetch
  refine ⟨eiEffect s.imePending t, by rw [execute, ht]; rfl, ?_⟩
  refine ⟨by simpa using he.params, ⟨t.bus, t.bus.iflag, he.written, by simp⟩, by simpa using he.lowNibble,
    by simpa using he.cycles, fun h => ?_⟩
  have := he.hold (by simpa using h)
  exact .inr (by simpa using this)

theorem runStep_effect : ∃ t, runStep s = .next t ∧ StepEffect s t := by
  unfold runStep
  split
  · exact ⟨_, rfl, s.dispatch_effect⟩
  · exact s.execute_effect

theorem modeStep_effect : ∃ t, modeStep s = .next t ∧ StepEffect s t := by
  unfold modeStep
  split
  · exact ⟨_, rfl, s.takes_one_effect⟩
  · split
    · exact ⟨_, rfl, s.takes_one_effect⟩
    · obtain ⟨t, ht, he⟩ := runStep_effect { s with mode := .running }
      exact ⟨t, ht, ⟨he.params, he.bus, he.lowNibble, he.cycles, he.hold⟩⟩
  · exact ⟨_, rfl, s.takes_one_effect⟩
  · exact s.runStep_effect

@[simp] theorem reportLock_bus : s.reportLock.bus = s.bus := by unfold reportLock; split <;> rfl
@[simp] theorem reportLock_params : s.reportLock.params = s.params := by unfold reportLock; split <;> rfl
@[simp] theorem reportLock_regs : s.reportLock.regs = s.regs := by unfold reportLock; split <;> rfl
@[simp] theorem reportLock_mode : s.reportLock.mode = s.mode := by unfold reportLock; split <;> rfl
@[simp] theorem reportLock_ime : s.reportLock.ime = s.ime := by unfold reportLock; split <;> rfl
@[simp] theorem reportLock_imePending : s.reportLock.imePending = s.imePending := by unfold reportLock; split <;> rfl
@[simp] theorem reportLock_haltPcHold : s.reportLock.haltPcHold = s.haltPcHold := by unfold reportLock; split <;> rfl
theorem reportLock_of_ne (h : s.mode ≠ .locked) : s.reportLock = s := by simp [reportLock, h]

/-- What a tick can do: the effect of a CPU step on the state without the OAM copy's cost, that cost added, and the
devices' advance. -/
theorem tick_effect : ∃ t, tick s = .next (t.takes (t.cycles + s.bus.dmaCost)).advance
    ∧ modeStep s.reportLock.clearDmaCost = .next t
    ∧ StepEffect s.reportLock.clearDmaCost t := by
  obtain ⟨t, ht, he⟩ := modeStep_effect s.reportLock.clearDmaCost
  exact ⟨t, by simp only [tick, cpuStep, ht, mapAnswer_next, reportLock_bus], ht, he⟩

/-- The induction of every bus invariant: if it survives a bus write, a change of IF and of the copy's cost, and the
devices' advance, then every step keeps it. -/
theorem step_keeps_bus (I : Params → Bus → Prop)
    (hw : ∀ p b a v, I p b → I p (b.write p a v)) (hf : ∀ p b f, I p b → I p { b with iflag := f })
    (hd : ∀ p b, I p b → I p { b with dmaCost := 0 }) (ha : ∀ p b t, I p b → I p (b.advance p t))
    {s t : State} (h : step s = .next t) (hi : I s.params s.bus) : I t.params t.bus := by
  obtain ⟨u, hu, -, he⟩ := s.tick_effect
  rw [step, hu] at h
  cases h
  obtain ⟨b, f, hb, hub⟩ := he.bus
  have hp : u.params = s.params := by simpa using he.params
  have hwr : ∀ b, Bus.Written s.params { s.bus with dmaCost := 0 } b → I s.params b := by
    intro b hb
    induction hb with
    | refl => exact hd _ _ hi
    | step a v _ ih => exact hw _ _ a v ih
  have hb' : I s.params b := hwr b (by simpa using hb)
  simp only [advance_params, advance_bus, takes_params, takes_bus, takes_cycles, hp, hub]
  exact ha _ _ _ (hf _ _ f hb')

/-! ## The shape of a step, by mode -/

/-- Two states with the same fields are the same. -/
theorem ext_fields {s t : State} (h1 : s.regs = t.regs) (h2 : s.ime = t.ime) (h3 : s.imePending = t.imePending)
    (h4 : s.mode = t.mode) (h5 : s.haltPcHold = t.haltPcHold) (h6 : s.lockReported = t.lockReported)
    (h7 : s.opAddr = t.opAddr) (h8 : s.cycles = t.cycles) (h9 : s.bus = t.bus) (h10 : s.params = t.params) : s = t := by
  cases s
  cases t
  simp only at *
  subst h1 h2 h3 h4 h5 h6 h7 h8 h9 h10
  rfl

theorem step_of_running (h : s.mode = .running) : step s =
    mapAnswer advance (mapAnswer (fun t => t.takes (t.cycles + s.bus.dmaCost)) (runStep s.clearDmaCost)) := by
  have hc : s.clearDmaCost.mode = .running := h
  rw [step, tick, reportLock_of_ne s (by simp [h]), cpuStep, modeStep, hc]

/-- A step that executes runs the fetched instruction from the state after its fetch (R420). -/
theorem step_of_executes (hm : s.mode = .running) (h : s.ime = false ∨ s.pending = 0#5) :
    ∃ t, exec s.clearDmaCost.fetched s.clearDmaCost.afterFetch = .next t ∧
      step s = .next (advance { eiEffect s.imePending t with cycles := t.cycles + s.bus.dmaCost }) := by
  obtain ⟨t, ht, -⟩ := exec_effect s.clearDmaCost.fetched s.clearDmaCost.afterFetch
  refine ⟨t, ht, ?_⟩
  have hr : runStep s.clearDmaCost = mapAnswer (eiEffect s.imePending) s.clearDmaCost.execute := by
    refine if_neg fun hc : s.ime = true ∧ s.pending ≠ 0#5 => ?_
    rcases h with h | h
    · exact absurd hc.1 (by simp [h])
    · exact hc.2 h
  rw [step_of_running s hm, hr, execute, ht]
  simp [takes]

/-- A step that dispatches (R421). -/
theorem step_of_dispatches (hm : s.mode = .running) (hi : s.ime = true) (hp : s.pending ≠ 0#5) :
    step s = .next (advance (s.clearDmaCost.dispatch.takes (5 + s.bus.dmaCost))) := by
  have hr : runStep s.clearDmaCost = .next s.clearDmaCost.dispatch := if_pos ⟨hi, hp⟩
  rw [step_of_running s hm, hr]
  rfl

/-- The wake from Halted (R420). -/
theorem step_of_halted (hm : s.mode = .halted) (hp : s.pending ≠ 0#5) :
    step s = step { s with mode := .running } := by
  have hp' : s.clearDmaCost.pending ≠ 0#5 := hp
  have hc : s.clearDmaCost.mode = .halted := hm
  rw [step, step, tick, tick, reportLock_of_ne s (by simp [hm]), reportLock_of_ne _ (by simp)]
  congr 1
  simp only [cpuStep, modeStep, hc, hp', if_false]
  rfl

/-- A Locked step (R401, R403). -/
theorem step_of_locked (h : s.mode = .locked) : step s = .next
    { advance { s with cycles := 1 + s.bus.dmaCost, bus := { s.bus with dmaCost := 0 } } with lockReported := true } := by
  rw [step, tick]
  simp only [reportLock, h, if_true, cpuStep, modeStep]
  cases s
  cases h
  rfl

/-- The source that a dispatch takes is the least pending one (R412). -/
theorem firstPending_eq (m : BitVec 5) (i : Nat) (hi : i < 5) (h : m.getLsbD i = true)
    (hj : ∀ j < i, m.getLsbD j = false) : firstPending m = i := by
  revert m
  have : i = 0 ∨ i = 1 ∨ i = 2 ∨ i = 3 ∨ i = 4 := by omega
  rcases this with rfl | rfl | rfl | rfl | rfl <;> decide

end State

end Sys2Proof.Machine
end

