-- ==== Sys2Proof/Tests/Slice0.lean ====
section
/-! SUPPORT. Tests: decoding of words written out from the opcode maps of the spec, one step on small states with results
from the spec's rules, and for every statement with hypotheses a state that meets them. -/

namespace Sys2Proof.Tests

set_option Elab.async false

open Sys2Proof.Machine

/-! ## Helpers -/

/-- The machine after reset with these registers, these bytes at PC, and these bytes in memory. -/
def cpu (bs : List Byte) (r : Regs) (mem : List (Word × Byte)) : State :=
  let s := State.placeBytes { State.reset with regs := r } r.pc bs
  { s with bus := mem.foldl (fun b c => b.poke c.1 c.2) s.bus }

/-- A step answers a next state with the property. -/
def nextIs (s : State) (p : State → Bool) : Bool :=
  match step s with
  | .next t => p t
  | .fault _ => false
  | .refused _ => false

theorem exists_next {s : State} {p : State → Bool} (h : nextIs s p = true) : ∃ t, step s = .next t ∧ p t = true := by
  unfold nextIs at h
  split at h
  · exact ⟨_, ‹_›, h⟩
  · cases h
  · cases h

/-- The bytes, all of them, decode to the instruction. -/
def decodesTo (c : List Byte × Instr) : Bool :=
  match decode c.1 with
  | .ok (i, rest) => i = c.2 && rest.isEmpty
  | .error _ => false

/-! ## Well-formedness -/

/-- The only check: the bare prefix is no instruction of its own (R365). -/
theorem test_wellFormed_prefixCB : (Instr.prefixCB 0x37#8).wellFormed = false := by decide

/-- The decoder never answers it (R163): 0xCB is read with its second byte. -/
theorem test_decode_prefix : decodesTo ([0xCB#8, 0x37#8], .prefixCB 0x37#8) = false := by decide

/-- An instruction cut short is not decoded (R150). -/
theorem test_decode_cut : decodesTo ([0xC3#8, 0x50#8], .jpNn 0x0050#16) = false := by decide

/-! ## Decoding: every constructor by a word written out from R159 and R161 -/

theorem test_decode_loads8 :
    [([0x41#8], .ldRR .b .c), ([0x7C#8], .ldRR .a .h), ([0x16#8, 0x9C#8], .ldRN .d 0x9C#8),
      ([0x6E#8], .ldRHL .l), ([0x74#8], .ldHLR .h), ([0x36#8, 0xAB#8], .ldHLN 0xAB#8), ([0x0A#8], .ldABC),
      ([0x1A#8], .ldADE), ([0x02#8], .ldBCA), ([0x12#8], .ldDEA), ([0xFA#8, 0x34#8, 0xC2#8], .ldANn 0xC234#16),
      ([0xEA#8, 0x00#8, 0xD0#8], .ldNnA 0xD000#16)].all decodesTo = true := by decide

theorem test_decode_loads8b :
    [([0xF2#8], .ldhAC), ([0xE2#8], .ldhCA), ([0xF0#8, 0x44#8], .ldhAN 0x44#8),
      ([0xE0#8, 0x46#8], .ldhNA 0x46#8), ([0x3A#8], .ldAHLD), ([0x32#8], .ldHLDA), ([0x2A#8], .ldAHLI),
      ([0x22#8], .ldHLIA)].all decodesTo = true := by decide

theorem test_decode_loads16 :
    [([0x01#8, 0x34#8, 0x12#8], .ldRpNn .bc 0x1234#16), ([0x31#8, 0x00#8, 0xD0#8], .ldRpNn .sp 0xD000#16),
      ([0x08#8, 0x00#8, 0xC1#8], .ldNnSP 0xC100#16), ([0xF9#8], .ldSPHL), ([0xF8#8, 0xFE#8], .ldHLSPE 0xFE#8),
      ([0xE5#8], .pushQ .hl), ([0xF5#8], .pushQ .af), ([0xD1#8], .popQ .de)].all decodesTo = true := by decide

theorem test_decode_add :
    [([0x83#8], .addR .e), ([0x86#8], .addHL), ([0xC6#8, 0xFF#8], .addN 0xFF#8), ([0x8F#8], .adcR .a),
      ([0x8E#8], .adcHL), ([0xCE#8, 0x3B#8], .adcN 0x3B#8), ([0x90#8], .subR .b), ([0x96#8], .subHL),
      ([0xD6#8, 0x0F#8], .subN 0x0F#8), ([0x9C#8], .sbcR .h), ([0x9E#8], .sbcHL), ([0xDE#8, 0x3A#8], .sbcN 0x3A#8)].all decodesTo = true := by decide

theorem test_decode_logic :
    [([0xA5#8], .andR .l), ([0xA6#8], .andHL), ([0xE6#8, 0x38#8], .andN 0x38#8), ([0xAF#8], .xorR .a),
      ([0xAE#8], .xorHL), ([0xEE#8, 0x0F#8], .xorN 0x0F#8), ([0xB1#8], .orR .c), ([0xB6#8], .orHL),
      ([0xF6#8, 0x03#8], .orN 0x03#8), ([0xBA#8], .cpR .d), ([0xBE#8], .cpHL), ([0xFE#8, 0x3C#8], .cpN 0x3C#8)].all decodesTo = true := by decide

theorem test_decode_misc :
    [([0x04#8], .incR .b), ([0x34#8], .incHL), ([0x2D#8], .decR .l), ([0x35#8], .decHL), ([0x27#8], .daa),
      ([0x2F#8], .cpl), ([0x37#8], .scf), ([0x3F#8], .ccf), ([0x29#8], .addHLRp .hl), ([0x13#8], .incRp .de),
      ([0x3B#8], .decRp .sp), ([0xE8#8, 0x02#8], .addSPE 0x02#8)].all decodesTo = true := by decide

theorem test_decode_rotates :
    [([0x07#8], .rlca), ([0x0F#8], .rrca), ([0x17#8], .rla), ([0x1F#8], .rra), ([0xCB#8, 0x00#8], .rlcR .b),
      ([0xCB#8, 0x06#8], .rlcHL), ([0xCB#8, 0x09#8], .rrcR .c), ([0xCB#8, 0x0E#8], .rrcHL),
      ([0xCB#8, 0x15#8], .rlR .l), ([0xCB#8, 0x16#8], .rlHL), ([0xCB#8, 0x1F#8], .rrR .a),
      ([0xCB#8, 0x1E#8], .rrHL)].all decodesTo = true := by decide

theorem test_decode_shifts :
    [([0xCB#8, 0x22#8], .slaR .d), ([0xCB#8, 0x26#8], .slaHL), ([0xCB#8, 0x2C#8], .sraR .h),
      ([0xCB#8, 0x2E#8], .sraHL), ([0xCB#8, 0x33#8], .swapR .e), ([0xCB#8, 0x36#8], .swapHL),
      ([0xCB#8, 0x38#8], .srlR .b), ([0xCB#8, 0x3E#8], .srlHL)].all decodesTo = true := by decide

theorem test_decode_bits :
    [([0xCB#8, 0x7F#8], .bitR 7#3 .a), ([0xCB#8, 0x46#8], .bitHL 0#3), ([0xCB#8, 0x8D#8], .resR 1#3 .l),
      ([0xCB#8, 0x9E#8], .resHL 3#3), ([0xCB#8, 0xD9#8], .setR 3#3 .c), ([0xCB#8, 0xFE#8], .setHL 7#3)].all decodesTo = true := by decide

theorem test_decode_control :
    [([0xC3#8, 0x50#8, 0x01#8], .jpNn 0x0150#16), ([0xC2#8, 0x00#8, 0x80#8], .jpCc .nz 0x8000#16),
      ([0xDA#8, 0x00#8, 0x80#8], .jpCc .c 0x8000#16), ([0xE9#8], .jpHL), ([0x18#8, 0xFE#8], .jrE 0xFE#8),
      ([0x28#8, 0x05#8], .jrCc .z 0x05#8), ([0xCD#8, 0x00#8, 0x20#8], .callNn 0x2000#16),
      ([0xD4#8, 0x00#8, 0x20#8], .callCc .nc 0x2000#16), ([0xC9#8], .ret), ([0xC8#8], .retCc .z),
      ([0xD9#8], .reti), ([0xEF#8], .rst 5#3)].all decodesTo = true := by decide

theorem test_decode_system :
    [([0x00#8], .nop), ([0xF3#8], .di), ([0xFB#8], .ei), ([0x76#8], .halt), ([0x10#8, 0x00#8], .stop 0x00#8)].all decodesTo = true := by decide

theorem test_decode_undefined :
    [([0xD3#8], .undefD3), ([0xDB#8], .undefDB), ([0xDD#8], .undefDD), ([0xE3#8], .undefE3),
      ([0xE4#8], .undefE4), ([0xEB#8], .undefEB), ([0xEC#8], .undefEC), ([0xED#8], .undefED),
      ([0xF4#8], .undefF4), ([0xFC#8], .undefFC), ([0xFD#8], .undefFD)].all decodesTo = true := by decide

/-- The bits of a two-byte instruction as the opcode table numbers them: the first byte is bits 7..0. -/
theorem test_decodeTableWord : decodeTableWord 16 0x7F0E = some (.ldRN .c 0x7F#8)
    ∧ decodeTableWord 16 0x37CB = some (.swapR .a) ∧ decodeTableWord 8 0xC3 = some (.jpNn 0x0000#16) := by decide

/-- A word placed by the host is what the next step runs. -/
theorem test_withFetchWord : (nextIs (State.reset.withFetchWord 16 0x7F0E) fun t => t.regs.c = 0x7F#8) = true := by
  decide +kernel

/-! ## One step, with results from the rules of each instruction -/

theorem test_ld_r_r : (nextIs (cpu [0x47#8] { Regs.reset with a := 0x5A#8 } []) fun t => t.regs.b = 0x5A#8 &&
    t.regs.pc = 0x0101#16 && t.cycles = 1) = true := by decide +kernel

theorem test_ld_r_r_2 : (nextIs (cpu [0x65#8] { Regs.reset with l := 0x4D#8 } []) fun t => t.regs.h = 0x4D#8) = true
    := by decide +kernel

theorem test_ld_r_n : (nextIs (cpu [0x0E#8, 0x7F#8] Regs.reset []) fun t => t.regs.c = 0x7F#8 && t.regs.pc = 0x0102#16
    && t.cycles = 2) = true := by decide +kernel

theorem test_ld_r_hl : (nextIs (cpu [0x56#8] { Regs.reset with h := 0xC1#8, l := 0x23#8 } [(0xC123#16, 0x9C#8)]) fun t
    => t.regs.d = 0x9C#8 && t.cycles = 2) = true := by decide +kernel

theorem test_ld_hl_r : (nextIs (cpu [0x73#8] { Regs.reset with e := 0xD8#8, h := 0xC0#8, l := 0x00#8 } []) fun t =>
    t.memRead 0xC000#16 = 0xD8#8) = true := by decide +kernel

theorem test_ld_hl_r_2 : (nextIs (cpu [0x74#8] { Regs.reset with h := 0xC0#8, l := 0xDE#8 } []) fun t => t.memRead
    0xC0DE#16 = 0xC0#8) = true := by decide +kernel

theorem test_ld_hl_n : (nextIs (cpu [0x36#8, 0xAB#8] { Regs.reset with h := 0xC0#8, l := 0x10#8 } []) fun t =>
    t.memRead 0xC010#16 = 0xAB#8 && t.regs.pc = 0x0102#16 && t.cycles = 3) = true := by decide +kernel

theorem test_ld_a_bc : (nextIs (cpu [0x0A#8] { Regs.reset with b := 0xC0#8, c := 0x05#8 } [(0xC005#16, 0x11#8)]) fun t
    => t.regs.a = 0x11#8) = true := by decide +kernel

theorem test_ld_a_de : (nextIs (cpu [0x1A#8] { Regs.reset with d := 0x01#8, e := 0x04#8 } [(0x0104#16, 0xCE#8)]) fun t
    => t.regs.a = 0xCE#8) = true := by decide +kernel

theorem test_ld_bc_a : (nextIs (cpu [0x02#8] { Regs.reset with a := 0x77#8, b := 0xC1#8, c := 0x00#8 } []) fun t =>
    t.memRead 0xC100#16 = 0x77#8) = true := by decide +kernel

theorem test_ld_de_a : (nextIs (cpu [0x12#8] { Regs.reset with a := 0x3C#8, d := 0x80#8, e := 0x00#8 } []) fun t =>
    t.memRead 0x8000#16 = 0x3C#8) = true := by decide +kernel

theorem test_ld_a_nn : (nextIs (cpu [0xFA#8, 0x34#8, 0xC2#8] Regs.reset [(0xC234#16, 0x99#8)]) fun t => t.regs.a =
    0x99#8 && t.regs.pc = 0x0103#16 && t.cycles = 4) = true := by decide +kernel

theorem test_ld_nn_a : (nextIs (cpu [0xEA#8, 0x00#8, 0xD0#8] { Regs.reset with a := 0x42#8 } []) fun t => t.memRead
    0xD000#16 = 0x42#8 && t.regs.pc = 0x0103#16 && t.cycles = 4) = true := by decide +kernel

theorem test_ldh_a_c : (nextIs (cpu [0xF2#8] { Regs.reset with c := 0x80#8 } [(0xFF80#16, 0x6B#8)]) fun t => t.regs.a
    = 0x6B#8 && t.regs.pc = 0x0101#16) = true := by decide +kernel

theorem test_ldh_c_a : (nextIs (cpu [0xE2#8] { Regs.reset with c := 0x85#8, a := 0x10#8 } []) fun t => t.memRead
    0xFF85#16 = 0x10#8) = true := by decide +kernel

theorem test_ldh_a_n : (nextIs (cpu [0xF0#8, 0x90#8] Regs.reset [(0xFF90#16, 0x21#8)]) fun t => t.regs.a = 0x21#8 &&
    t.regs.pc = 0x0102#16 && t.cycles = 3) = true := by decide +kernel

theorem test_ldh_n_a : (nextIs (cpu [0xE0#8, 0x81#8] { Regs.reset with a := 0xEE#8 } []) fun t => t.memRead 0xFF81#16
    = 0xEE#8) = true := by decide +kernel

theorem test_ld_a_hld : (nextIs (cpu [0x3A#8] { Regs.reset with h := 0xC0#8, l := 0x00#8 } [(0xC000#16, 0x5D#8)]) fun
    t => t.regs.a = 0x5D#8 && t.regs.hl = 0xBFFF#16) = true := by decide +kernel

theorem test_ld_hld_a : (nextIs (cpu [0x32#8] { Regs.reset with a := 0x12#8, h := 0x00#8, l := 0x00#8 } []) fun t =>
    t.regs.hl = 0xFFFF#16) = true := by decide +kernel

theorem test_ld_a_hli : (nextIs (cpu [0x2A#8] { Regs.reset with h := 0xFF#8, l := 0xFF#8 } [(0xFFFF#16, 0x1F#8)]) fun
    t => t.regs.a = 0x1F#8 && t.regs.hl = 0x0000#16) = true := by decide +kernel

theorem test_ld_hli_a : (nextIs (cpu [0x22#8] { Regs.reset with a := 0x01#8, h := 0xC0#8, l := 0xFF#8 } []) fun t =>
    t.memRead 0xC0FF#16 = 0x01#8 && t.regs.hl = 0xC100#16) = true := by decide +kernel

theorem test_ld_rr_nn : (nextIs (cpu [0x01#8, 0x34#8, 0x12#8] Regs.reset []) fun t => t.regs.b = 0x12#8 && t.regs.c =
    0x34#8 && t.regs.pc = 0x0103#16 && t.cycles = 3) = true := by decide +kernel

theorem test_ld_rr_nn_2 : (nextIs (cpu [0x31#8, 0x00#8, 0xD0#8] Regs.reset []) fun t => t.regs.sp = 0xD000#16) = true
    := by decide +kernel

theorem test_ld_nn_sp : (nextIs (cpu [0x08#8, 0x00#8, 0xC1#8] { Regs.reset with sp := 0xFFF8#16 } []) fun t =>
    t.memRead 0xC100#16 = 0xF8#8 && t.memRead 0xC101#16 = 0xFF#8 && t.regs.pc = 0x0103#16 && t.cycles = 5) = true :=
    by decide +kernel

theorem test_ld_sp_hl : (nextIs (cpu [0xF9#8] { Regs.reset with h := 0xDF#8, l := 0xFF#8 } []) fun t => t.regs.sp =
    0xDFFF#16 && t.cycles = 2) = true := by decide +kernel

theorem test_ld_hl_sp_e : (nextIs (cpu [0xF8#8, 0x02#8] { Regs.reset with sp := 0xFFFE#16 } []) fun t => t.regs.hl =
    0x0000#16 && t.regs.f = 0x30#8) = true := by decide +kernel

theorem test_ld_hl_sp_e_2 : (nextIs (cpu [0xF8#8, 0xFE#8] { Regs.reset with sp := 0xD000#16 } []) fun t => t.regs.hl =
    0xCFFE#16 && t.regs.f = 0x00#8) = true := by decide +kernel

theorem test_push : (nextIs (cpu [0xC5#8] { Regs.reset with sp := 0xD000#16, b := 0x12#8, c := 0x34#8 } []) fun t =>
    t.memRead 0xCFFF#16 = 0x12#8 && t.memRead 0xCFFE#16 = 0x34#8 && t.regs.sp = 0xCFFE#16 && t.cycles = 4) = true :=
    by decide +kernel

theorem test_push_2 : (nextIs (cpu [0xF5#8] { Regs.reset with sp := 0xD000#16 } []) fun t => t.memRead 0xCFFF#16 =
    0x01#8 && t.memRead 0xCFFE#16 = 0xB0#8) = true := by decide +kernel

theorem test_pop : (nextIs (cpu [0xD1#8] { Regs.reset with sp := 0xCFFE#16 } [(0xCFFE#16, 0x34#8), (0xCFFF#16,
    0x12#8)]) fun t => t.regs.d = 0x12#8 && t.regs.e = 0x34#8 && t.regs.sp = 0xD000#16 && t.cycles = 3) = true := by
    decide +kernel

theorem test_pop_2 : (nextIs (cpu [0xF1#8] { Regs.reset with sp := 0xC000#16 } [(0xC000#16, 0xFF#8), (0xC001#16,
    0x12#8)]) fun t => t.regs.a = 0x12#8 && t.regs.f = 0xF0#8 && t.regs.sp = 0xC002#16) = true := by decide +kernel

theorem test_add_r : (nextIs (cpu [0x80#8] { Regs.reset with a := 0x3A#8, b := 0xC6#8 } []) fun t => t.regs.a = 0x00#8
    && t.regs.f = 0xB0#8) = true := by decide +kernel

theorem test_add_r_2 : (nextIs (cpu [0x87#8] { Regs.reset with a := 0x80#8 } []) fun t => t.regs.a = 0x00#8 &&
    t.regs.f = 0x90#8) = true := by decide +kernel

theorem test_add_hl : (nextIs (cpu [0x86#8] { Regs.reset with a := 0x3C#8, h := 0xC0#8, l := 0x00#8 } [(0xC000#16,
    0x12#8)]) fun t => t.regs.a = 0x4E#8 && t.regs.f = 0x00#8 && t.cycles = 2) = true := by decide +kernel

theorem test_add_n : (nextIs (cpu [0xC6#8, 0xFF#8] { Regs.reset with a := 0x3C#8 } []) fun t => t.regs.a = 0x3B#8 &&
    t.regs.f = 0x30#8 && t.regs.pc = 0x0102#16) = true := by decide +kernel

theorem test_adc_r : (nextIs (cpu [0x8B#8] { Regs.reset with a := 0xE1#8, e := 0x0F#8, f := 0x10#8 } []) fun t =>
    t.regs.a = 0xF1#8 && t.regs.f = 0x20#8) = true := by decide +kernel

theorem test_adc_r_2 : (nextIs (cpu [0x88#8] { Regs.reset with a := 0x00#8, b := 0xFF#8, f := 0x10#8 } []) fun t =>
    t.regs.a = 0x00#8 && t.regs.f = 0xB0#8) = true := by decide +kernel

theorem test_adc_hl : (nextIs (cpu [0x8E#8] { Regs.reset with a := 0xE1#8, f := 0x10#8, h := 0xC0#8, l := 0x00#8 }
    [(0xC000#16, 0x1E#8)]) fun t => t.regs.a = 0x00#8 && t.regs.f = 0xB0#8) = true := by decide +kernel

theorem test_adc_n : (nextIs (cpu [0xCE#8, 0x3B#8] { Regs.reset with a := 0xE1#8, f := 0x10#8 } []) fun t => t.regs.a
    = 0x1D#8 && t.regs.f = 0x10#8) = true := by decide +kernel

theorem test_sub_r : (nextIs (cpu [0x93#8] { Regs.reset with a := 0x3E#8, e := 0x3E#8 } []) fun t => t.regs.a = 0x00#8
    && t.regs.f = 0xC0#8) = true := by decide +kernel

theorem test_sub_hl : (nextIs (cpu [0x96#8] { Regs.reset with a := 0x3E#8, h := 0xC0#8, l := 0x00#8 } [(0xC000#16,
    0x40#8)]) fun t => t.regs.a = 0xFE#8 && t.regs.f = 0x50#8) = true := by decide +kernel

theorem test_sub_n : (nextIs (cpu [0xD6#8, 0x0F#8] { Regs.reset with a := 0x3E#8 } []) fun t => t.regs.a = 0x2F#8 &&
    t.regs.f = 0x60#8) = true := by decide +kernel

theorem test_sbc_r : (nextIs (cpu [0x9C#8] { Regs.reset with a := 0x3B#8, h := 0x2A#8, f := 0x10#8 } []) fun t =>
    t.regs.a = 0x10#8 && t.regs.f = 0x40#8) = true := by decide +kernel

theorem test_sbc_r_2 : (nextIs (cpu [0x98#8] { Regs.reset with a := 0x00#8, b := 0xFF#8, f := 0x10#8 } []) fun t =>
    t.regs.a = 0x00#8 && t.regs.f = 0xF0#8) = true := by decide +kernel

theorem test_sbc_hl : (nextIs (cpu [0x9E#8] { Regs.reset with a := 0x3B#8, f := 0x10#8, h := 0xC0#8, l := 0x00#8 }
    [(0xC000#16, 0x4F#8)]) fun t => t.regs.a = 0xEB#8 && t.regs.f = 0x70#8) = true := by decide +kernel

theorem test_sbc_n : (nextIs (cpu [0xDE#8, 0x3A#8] { Regs.reset with a := 0x3B#8, f := 0x10#8 } []) fun t => t.regs.a
    = 0x00#8 && t.regs.f = 0xC0#8) = true := by decide +kernel

theorem test_and_r : (nextIs (cpu [0xA5#8] { Regs.reset with a := 0x5A#8, l := 0x3F#8 } []) fun t => t.regs.a = 0x1A#8
    && t.regs.f = 0x20#8) = true := by decide +kernel

theorem test_and_r_2 : (nextIs (cpu [0xA7#8] { Regs.reset with a := 0x00#8 } []) fun t => t.regs.a = 0x00#8 &&
    t.regs.f = 0xA0#8) = true := by decide +kernel

theorem test_and_hl : (nextIs (cpu [0xA6#8] { Regs.reset with a := 0x5A#8, h := 0xC0#8, l := 0x00#8 } [(0xC000#16,
    0x00#8)]) fun t => t.regs.a = 0x00#8 && t.regs.f = 0xA0#8) = true := by decide +kernel

theorem test_and_n : (nextIs (cpu [0xE6#8, 0x38#8] { Regs.reset with a := 0x5A#8 } []) fun t => t.regs.a = 0x18#8 &&
    t.regs.f = 0x20#8) = true := by decide +kernel

theorem test_xor_r : (nextIs (cpu [0xAF#8] { Regs.reset with a := 0x77#8 } []) fun t => t.regs.a = 0x00#8 && t.regs.f
    = 0x80#8) = true := by decide +kernel

theorem test_xor_r_2 : (nextIs (cpu [0xA8#8] { Regs.reset with a := 0xFF#8, b := 0x0F#8 } []) fun t => t.regs.a =
    0xF0#8 && t.regs.f = 0x00#8) = true := by decide +kernel

theorem test_xor_hl : (nextIs (cpu [0xAE#8] { Regs.reset with a := 0xFF#8, h := 0xC0#8, l := 0x00#8 } [(0xC000#16,
    0x8A#8)]) fun t => t.regs.a = 0x75#8 && t.regs.f = 0x00#8) = true := by decide +kernel

theorem test_xor_n : (nextIs (cpu [0xEE#8, 0x0F#8] { Regs.reset with a := 0xFF#8 } []) fun t => t.regs.a = 0xF0#8 &&
    t.regs.f = 0x00#8) = true := by decide +kernel

theorem test_or_r : (nextIs (cpu [0xB1#8] { Regs.reset with a := 0x5A#8, c := 0x03#8 } []) fun t => t.regs.a = 0x5B#8
    && t.regs.f = 0x00#8) = true := by decide +kernel

theorem test_or_r_2 : (nextIs (cpu [0xB7#8] { Regs.reset with a := 0x00#8 } []) fun t => t.regs.a = 0x00#8 && t.regs.f
    = 0x80#8) = true := by decide +kernel

theorem test_or_hl : (nextIs (cpu [0xB6#8] { Regs.reset with a := 0x5A#8, h := 0xC0#8, l := 0x00#8 } [(0xC000#16,
    0x0F#8)]) fun t => t.regs.a = 0x5F#8 && t.regs.f = 0x00#8) = true := by decide +kernel

theorem test_or_n : (nextIs (cpu [0xF6#8, 0x03#8] { Regs.reset with a := 0x5A#8 } []) fun t => t.regs.a = 0x5B#8 &&
    t.regs.f = 0x00#8) = true := by decide +kernel

theorem test_cp_r : (nextIs (cpu [0xB8#8] { Regs.reset with a := 0x3C#8, b := 0x2F#8 } []) fun t => t.regs.a = 0x3C#8
    && t.regs.f = 0x60#8) = true := by decide +kernel

theorem test_cp_hl : (nextIs (cpu [0xBE#8] { Regs.reset with a := 0x3C#8, h := 0xC0#8, l := 0x00#8 } [(0xC000#16,
    0x40#8)]) fun t => t.regs.a = 0x3C#8 && t.regs.f = 0x50#8) = true := by decide +kernel

theorem test_cp_n : (nextIs (cpu [0xFE#8, 0x3C#8] { Regs.reset with a := 0x3C#8 } []) fun t => t.regs.a = 0x3C#8 &&
    t.regs.f = 0xC0#8) = true := by decide +kernel

theorem test_inc_r : (nextIs (cpu [0x04#8] { Regs.reset with b := 0xFF#8, f := 0xB0#8 } []) fun t => t.regs.b = 0x00#8
    && t.regs.f = 0xB0#8) = true := by decide +kernel

theorem test_inc_r_2 : (nextIs (cpu [0x0C#8] { Regs.reset with c := 0x0F#8, f := 0x00#8 } []) fun t => t.regs.c =
    0x10#8 && t.regs.f = 0x20#8) = true := by decide +kernel

theorem test_inc_hl : (nextIs (cpu [0x34#8] { Regs.reset with f := 0xB0#8, h := 0xC0#8, l := 0x00#8 } [(0xC000#16,
    0x50#8)]) fun t => t.memRead 0xC000#16 = 0x51#8 && t.regs.f = 0x10#8 && t.cycles = 3) = true := by decide +kernel

theorem test_dec_r : (nextIs (cpu [0x2D#8] { Regs.reset with l := 0x01#8, f := 0x00#8 } []) fun t => t.regs.l = 0x00#8
    && t.regs.f = 0xC0#8) = true := by decide +kernel

theorem test_dec_r_2 : (nextIs (cpu [0x05#8] { Regs.reset with b := 0x00#8, f := 0x10#8 } []) fun t => t.regs.b =
    0xFF#8 && t.regs.f = 0x70#8) = true := by decide +kernel

theorem test_dec_hl : (nextIs (cpu [0x35#8] { Regs.reset with f := 0x00#8, h := 0xC0#8, l := 0x00#8 } [(0xC000#16,
    0x00#8)]) fun t => t.memRead 0xC000#16 = 0xFF#8 && t.regs.f = 0x60#8 && t.cycles = 3) = true := by decide +kernel

theorem test_daa : (nextIs (cpu [0x27#8] { Regs.reset with a := 0x7D#8, f := 0x00#8 } []) fun t => t.regs.a = 0x83#8
    && t.regs.f = 0x00#8) = true := by decide +kernel

theorem test_daa_2 : (nextIs (cpu [0x27#8] { Regs.reset with a := 0x00#8, f := 0x70#8 } []) fun t => t.regs.a = 0x9A#8
    && t.regs.f = 0x50#8) = true := by decide +kernel

theorem test_cpl : (nextIs (cpu [0x2F#8] { Regs.reset with a := 0x35#8, f := 0x80#8 } []) fun t => t.regs.a = 0xCA#8
    && t.regs.f = 0xE0#8) = true := by decide +kernel

theorem test_scf : (nextIs (cpu [0x37#8] { Regs.reset with f := 0xE0#8 } []) fun t => t.regs.f = 0x90#8) = true := by
    decide +kernel

theorem test_ccf : (nextIs (cpu [0x3F#8] { Regs.reset with f := 0xF0#8 } []) fun t => t.regs.f = 0x80#8) = true := by
    decide +kernel

theorem test_ccf_2 : (nextIs (cpu [0x3F#8] { Regs.reset with f := 0x00#8 } []) fun t => t.regs.f = 0x10#8) = true :=
    by decide +kernel

theorem test_add_hl_rr : (nextIs (cpu [0x09#8] { Regs.reset with f := 0x80#8, b := 0x06#8, c := 0x05#8, h := 0x8A#8, l
    := 0x23#8 } []) fun t => t.regs.hl = 0x9028#16 && t.regs.f = 0xA0#8) = true := by decide +kernel

theorem test_add_hl_rr_2 : (nextIs (cpu [0x39#8] { Regs.reset with sp := 0xFFFF#16, f := 0x80#8, h := 0x00#8, l :=
    0x01#8 } []) fun t => t.regs.hl = 0x0000#16 && t.regs.f = 0xB0#8) = true := by decide +kernel

theorem test_inc_rr : (nextIs (cpu [0x13#8] { Regs.reset with d := 0xFF#8, e := 0xFF#8 } []) fun t => t.regs.de =
    0x0000#16 && t.regs.f = 0xB0#8 && t.cycles = 2) = true := by decide +kernel

theorem test_inc_rr_2 : (nextIs (cpu [0x33#8] { Regs.reset with sp := 0xFFFF#16 } []) fun t => t.regs.sp = 0x0000#16)
    = true := by decide +kernel

theorem test_dec_rr : (nextIs (cpu [0x0B#8] { Regs.reset with b := 0x00#8, c := 0x00#8 } []) fun t => t.regs.bc =
    0xFFFF#16 && t.regs.f = 0xB0#8) = true := by decide +kernel

theorem test_dec_rr_2 : (nextIs (cpu [0x2B#8] { Regs.reset with h := 0x01#8, l := 0x00#8 } []) fun t => t.regs.hl =
    0x00FF#16) = true := by decide +kernel

theorem test_add_sp_e : (nextIs (cpu [0xE8#8, 0xFE#8] { Regs.reset with sp := 0xD000#16 } []) fun t => t.regs.sp =
    0xCFFE#16 && t.regs.f = 0x00#8) = true := by decide +kernel

theorem test_add_sp_e_2 : (nextIs (cpu [0xE8#8, 0xFF#8] { Regs.reset with sp := 0x0001#16 } []) fun t => t.regs.sp =
    0x0000#16 && t.regs.f = 0x30#8) = true := by decide +kernel

theorem test_rlca : (nextIs (cpu [0x07#8] { Regs.reset with a := 0x85#8, f := 0x80#8 } []) fun t => t.regs.a = 0x0B#8
    && t.regs.f = 0x10#8) = true := by decide +kernel

theorem test_rlca_2 : (nextIs (cpu [0x07#8] { Regs.reset with a := 0x00#8, f := 0xF0#8 } []) fun t => t.regs.a =
    0x00#8 && t.regs.f = 0x00#8) = true := by decide +kernel

theorem test_rrca : (nextIs (cpu [0x0F#8] { Regs.reset with a := 0x3B#8, f := 0x00#8 } []) fun t => t.regs.a = 0x9D#8
    && t.regs.f = 0x10#8) = true := by decide +kernel

theorem test_rla : (nextIs (cpu [0x17#8] { Regs.reset with a := 0x95#8, f := 0x10#8 } []) fun t => t.regs.a = 0x2B#8
    && t.regs.f = 0x10#8) = true := by decide +kernel

theorem test_rla_2 : (nextIs (cpu [0x17#8] { Regs.reset with a := 0x80#8, f := 0x00#8 } []) fun t => t.regs.a = 0x00#8
    && t.regs.f = 0x10#8) = true := by decide +kernel

theorem test_rra : (nextIs (cpu [0x1F#8] { Regs.reset with a := 0x81#8, f := 0x00#8 } []) fun t => t.regs.a = 0x40#8
    && t.regs.f = 0x10#8) = true := by decide +kernel

theorem test_rra_2 : (nextIs (cpu [0x1F#8] { Regs.reset with a := 0x01#8, f := 0x10#8 } []) fun t => t.regs.a = 0x80#8
    && t.regs.f = 0x10#8) = true := by decide +kernel

theorem test_rlc_r : (nextIs (cpu [0xCB#8, 0x00#8] { Regs.reset with b := 0x85#8, f := 0x00#8 } []) fun t => t.regs.b
    = 0x0B#8 && t.regs.f = 0x10#8 && t.regs.pc = 0x0102#16 && t.cycles = 2) = true := by decide +kernel

theorem test_rlc_r_2 : (nextIs (cpu [0xCB#8, 0x07#8] { Regs.reset with a := 0x00#8, f := 0x10#8 } []) fun t =>
    t.regs.a = 0x00#8 && t.regs.f = 0x80#8) = true := by decide +kernel

theorem test_rlc_hl : (nextIs (cpu [0xCB#8, 0x06#8] { Regs.reset with f := 0x00#8, h := 0xC0#8, l := 0x00#8 }
    [(0xC000#16, 0x80#8)]) fun t => t.memRead 0xC000#16 = 0x01#8 && t.regs.f = 0x10#8 && t.cycles = 4) = true := by
    decide +kernel

theorem test_rrc_r : (nextIs (cpu [0xCB#8, 0x09#8] { Regs.reset with c := 0x01#8, f := 0x00#8 } []) fun t => t.regs.c
    = 0x80#8 && t.regs.f = 0x10#8) = true := by decide +kernel

theorem test_rrc_hl : (nextIs (cpu [0xCB#8, 0x0E#8] { Regs.reset with f := 0x00#8, h := 0xC0#8, l := 0x00#8 }
    [(0xC000#16, 0x00#8)]) fun t => t.memRead 0xC000#16 = 0x00#8 && t.regs.f = 0x80#8) = true := by decide +kernel

theorem test_rl_r : (nextIs (cpu [0xCB#8, 0x15#8] { Regs.reset with l := 0x80#8, f := 0x00#8 } []) fun t => t.regs.l =
    0x00#8 && t.regs.f = 0x90#8) = true := by decide +kernel

theorem test_rl_hl : (nextIs (cpu [0xCB#8, 0x16#8] { Regs.reset with f := 0x10#8, h := 0xC0#8, l := 0x00#8 }
    [(0xC000#16, 0x11#8)]) fun t => t.memRead 0xC000#16 = 0x23#8 && t.regs.f = 0x00#8) = true := by decide +kernel

theorem test_rr_r : (nextIs (cpu [0xCB#8, 0x1F#8] { Regs.reset with a := 0x01#8, f := 0x00#8 } []) fun t => t.regs.a =
    0x00#8 && t.regs.f = 0x90#8) = true := by decide +kernel

theorem test_rr_hl : (nextIs (cpu [0xCB#8, 0x1E#8] { Regs.reset with f := 0x10#8, h := 0xC0#8, l := 0x00#8 }
    [(0xC000#16, 0x8A#8)]) fun t => t.memRead 0xC000#16 = 0xC5#8 && t.regs.f = 0x00#8) = true := by decide +kernel

theorem test_sla_r : (nextIs (cpu [0xCB#8, 0x22#8] { Regs.reset with d := 0x80#8, f := 0x00#8 } []) fun t => t.regs.d
    = 0x00#8 && t.regs.f = 0x90#8) = true := by decide +kernel

theorem test_sla_hl : (nextIs (cpu [0xCB#8, 0x26#8] { Regs.reset with f := 0x00#8, h := 0xC0#8, l := 0x00#8 }
    [(0xC000#16, 0xFF#8)]) fun t => t.memRead 0xC000#16 = 0xFE#8 && t.regs.f = 0x10#8) = true := by decide +kernel

theorem test_sra_r : (nextIs (cpu [0xCB#8, 0x2F#8] { Regs.reset with a := 0x8A#8, f := 0x00#8 } []) fun t => t.regs.a
    = 0xC5#8 && t.regs.f = 0x00#8) = true := by decide +kernel

theorem test_sra_hl : (nextIs (cpu [0xCB#8, 0x2E#8] { Regs.reset with f := 0x00#8, h := 0xC0#8, l := 0x00#8 }
    [(0xC000#16, 0x01#8)]) fun t => t.memRead 0xC000#16 = 0x00#8 && t.regs.f = 0x90#8) = true := by decide +kernel

theorem test_swap_r : (nextIs (cpu [0xCB#8, 0x37#8] { Regs.reset with a := 0xF1#8, f := 0xF0#8 } []) fun t => t.regs.a
    = 0x1F#8 && t.regs.f = 0x00#8) = true := by decide +kernel

theorem test_swap_r_2 : (nextIs (cpu [0xCB#8, 0x37#8] { Regs.reset with a := 0x00#8, f := 0x70#8 } []) fun t =>
    t.regs.a = 0x00#8 && t.regs.f = 0x80#8) = true := by decide +kernel

theorem test_swap_hl : (nextIs (cpu [0xCB#8, 0x36#8] { Regs.reset with f := 0x10#8, h := 0xC0#8, l := 0x00#8 }
    [(0xC000#16, 0x3C#8)]) fun t => t.memRead 0xC000#16 = 0xC3#8 && t.regs.f = 0x00#8) = true := by decide +kernel

theorem test_srl_r : (nextIs (cpu [0xCB#8, 0x3F#8] { Regs.reset with a := 0x01#8, f := 0x00#8 } []) fun t => t.regs.a
    = 0x00#8 && t.regs.f = 0x90#8) = true := by decide +kernel

theorem test_srl_hl : (nextIs (cpu [0xCB#8, 0x3E#8] { Regs.reset with f := 0x00#8, h := 0xC0#8, l := 0x00#8 }
    [(0xC000#16, 0xFF#8)]) fun t => t.memRead 0xC000#16 = 0x7F#8 && t.regs.f = 0x10#8) = true := by decide +kernel

theorem test_bit_r : (nextIs (cpu [0xCB#8, 0x7F#8] { Regs.reset with a := 0x80#8, f := 0x10#8 } []) fun t => t.regs.f
    = 0x30#8) = true := by decide +kernel

theorem test_bit_r_2 : (nextIs (cpu [0xCB#8, 0x65#8] { Regs.reset with l := 0xEF#8, f := 0x00#8 } []) fun t =>
    t.regs.f = 0xA0#8) = true := by decide +kernel

theorem test_bit_hl : (nextIs (cpu [0xCB#8, 0x46#8] { Regs.reset with f := 0x10#8, h := 0xC0#8, l := 0x00#8 }
    [(0xC000#16, 0xFE#8)]) fun t => t.regs.f = 0xB0#8 && t.cycles = 3) = true := by decide +kernel

theorem test_bit_hl_2 : (nextIs (cpu [0xCB#8, 0x4E#8] { Regs.reset with f := 0x00#8, h := 0xC0#8, l := 0x00#8 }
    [(0xC000#16, 0xFE#8)]) fun t => t.regs.f = 0x20#8) = true := by decide +kernel

theorem test_res_r : (nextIs (cpu [0xCB#8, 0xBF#8] { Regs.reset with a := 0x80#8, f := 0xF0#8 } []) fun t => t.regs.a
    = 0x00#8 && t.regs.f = 0xF0#8) = true := by decide +kernel

theorem test_res_r_2 : (nextIs (cpu [0xCB#8, 0x8D#8] { Regs.reset with l := 0x3B#8 } []) fun t => t.regs.l = 0x39#8) =
    true := by decide +kernel

theorem test_res_hl : (nextIs (cpu [0xCB#8, 0x9E#8] { Regs.reset with h := 0xC0#8, l := 0x00#8 } [(0xC000#16,
    0xFF#8)]) fun t => t.memRead 0xC000#16 = 0xF7#8 && t.cycles = 4) = true := by decide +kernel

theorem test_set_r : (nextIs (cpu [0xCB#8, 0xDF#8] { Regs.reset with a := 0x80#8 } []) fun t => t.regs.a = 0x88#8) =
    true := by decide +kernel

theorem test_set_r_2 : (nextIs (cpu [0xCB#8, 0xFD#8] { Regs.reset with l := 0x3B#8 } []) fun t => t.regs.l = 0xBB#8) =
    true := by decide +kernel

theorem test_set_hl : (nextIs (cpu [0xCB#8, 0xDE#8] { Regs.reset with h := 0xC0#8, l := 0x00#8 } [(0xC000#16,
    0x00#8)]) fun t => t.memRead 0xC000#16 = 0x08#8 && t.cycles = 4) = true := by decide +kernel

theorem test_jp_nn : (nextIs (cpu [0xC3#8, 0x50#8, 0x01#8] Regs.reset []) fun t => t.regs.pc = 0x0150#16 && t.cycles =
    4) = true := by decide +kernel

theorem test_jp_cc : (nextIs (cpu [0xC2#8, 0x00#8, 0x80#8] { Regs.reset with f := 0x00#8 } []) fun t => t.regs.pc =
    0x8000#16 && t.cycles = 4) = true := by decide +kernel

theorem test_jp_cc_2 : (nextIs (cpu [0xC2#8, 0x00#8, 0x80#8] { Regs.reset with f := 0x80#8 } []) fun t => t.regs.pc =
    0x0103#16 && t.cycles = 3) = true := by decide +kernel

theorem test_jp_hl : (nextIs (cpu [0xE9#8] { Regs.reset with h := 0xC0#8, l := 0x00#8 } []) fun t => t.regs.pc =
    0xC000#16 && t.cycles = 1) = true := by decide +kernel

theorem test_jr_e : (nextIs (cpu [0x18#8, 0xFE#8] Regs.reset []) fun t => t.regs.pc = 0x0100#16) = true := by
    decide +kernel

theorem test_jr_e_2 : (nextIs (cpu [0x18#8, 0x80#8] Regs.reset []) fun t => t.regs.pc = 0x0082#16) = true := by
    decide +kernel

theorem test_jr_cc : (nextIs (cpu [0x20#8, 0xFC#8] { Regs.reset with f := 0x00#8 } []) fun t => t.regs.pc = 0x00FE#16
    && t.cycles = 3) = true := by decide +kernel

theorem test_jr_cc_2 : (nextIs (cpu [0x20#8, 0xFC#8] { Regs.reset with f := 0x80#8 } []) fun t => t.regs.pc =
    0x0102#16 && t.cycles = 2) = true := by decide +kernel

theorem test_call : (nextIs (cpu [0xCD#8, 0x00#8, 0x20#8] { Regs.reset with sp := 0xD000#16 } []) fun t => t.memRead
    0xCFFF#16 = 0x01#8 && t.memRead 0xCFFE#16 = 0x03#8 && t.regs.sp = 0xCFFE#16 && t.regs.pc = 0x2000#16 && t.cycles =
    6) = true := by decide +kernel

theorem test_call_cc : (nextIs (cpu [0xCC#8, 0x00#8, 0x20#8] { Regs.reset with sp := 0xD000#16, f := 0x80#8 } []) fun
    t => t.memRead 0xCFFF#16 = 0x01#8 && t.memRead 0xCFFE#16 = 0x03#8 && t.regs.sp = 0xCFFE#16 && t.regs.pc =
    0x2000#16 && t.cycles = 6) = true := by decide +kernel

theorem test_call_cc_2 : (nextIs (cpu [0xCC#8, 0x00#8, 0x20#8] { Regs.reset with sp := 0xD000#16, f := 0x00#8 } [])
    fun t => t.regs.pc = 0x0103#16 && t.regs.sp = 0xD000#16 && t.cycles = 3) = true := by decide +kernel

theorem test_rst : (nextIs (cpu [0xEF#8] { Regs.reset with sp := 0xD000#16 } []) fun t => t.memRead 0xCFFF#16 = 0x01#8
    && t.memRead 0xCFFE#16 = 0x01#8 && t.regs.sp = 0xCFFE#16 && t.regs.pc = 0x0028#16 && t.cycles = 4) = true := by
    decide +kernel

theorem test_ret : (nextIs (cpu [0xC9#8] { Regs.reset with sp := 0xCFFE#16 } [(0xCFFE#16, 0x03#8), (0xCFFF#16,
    0x01#8)]) fun t => t.regs.pc = 0x0103#16 && t.regs.sp = 0xD000#16 && t.cycles = 4) = true := by decide +kernel

theorem test_ret_cc : (nextIs (cpu [0xD0#8] { Regs.reset with sp := 0xCFFE#16, f := 0x00#8 } [(0xCFFE#16, 0x03#8),
    (0xCFFF#16, 0x01#8)]) fun t => t.regs.pc = 0x0103#16 && t.regs.sp = 0xD000#16 && t.cycles = 5) = true := by
    decide +kernel

theorem test_ret_cc_2 : (nextIs (cpu [0xD0#8] { Regs.reset with sp := 0xCFFE#16, f := 0x10#8 } [(0xCFFE#16, 0x03#8),
    (0xCFFF#16, 0x01#8)]) fun t => t.regs.pc = 0x0101#16 && t.regs.sp = 0xCFFE#16 && t.cycles = 2) = true := by
    decide +kernel

theorem test_reti : (nextIs (cpu [0xD9#8] { Regs.reset with sp := 0xCFFE#16 } [(0xCFFE#16, 0x03#8), (0xCFFF#16,
    0x01#8)]) fun t => t.regs.pc = 0x0103#16 && t.regs.sp = 0xD000#16 && t.ime = true && t.cycles = 4) = true := by
    decide +kernel

theorem test_nop : (nextIs (cpu [0x00#8] Regs.reset []) fun t => t.regs.pc = 0x0101#16 && t.cycles = 1) = true := by
    decide +kernel

theorem test_di : (nextIs ({ cpu [0xF3#8] Regs.reset [] with ime := true }) fun t => t.regs.pc = 0x0101#16 && t.ime =
    false && t.cycles = 1) = true := by decide +kernel

theorem test_ei : (nextIs (cpu [0xFB#8] Regs.reset []) fun t => t.regs.pc = 0x0101#16 && t.ime = false && t.imePending
    = true && t.cycles = 1) = true := by decide +kernel

theorem test_halt : (nextIs (cpu [0x76#8] Regs.reset []) fun t => t.regs.pc = 0x0101#16 && t.mode = .halted &&
    t.cycles = 1) = true := by decide +kernel

theorem test_stop : (nextIs (cpu [0x10#8, 0x00#8] Regs.reset []) fun t => t.regs.pc = 0x0102#16 && t.mode = .stopped
    && t.cycles = 1) = true := by decide +kernel

theorem test_undefined : (nextIs (cpu [0xD3#8] Regs.reset []) fun t => t.regs.pc = 0x0100#16 && t.mode = .locked &&
    t.cycles = 1) = true := by decide +kernel

theorem test_undefined_2 : (nextIs (cpu [0xFD#8, 0x00#8] Regs.reset []) fun t => t.regs.pc = 0x0100#16 && t.mode =
    .locked && t.cycles = 1) = true := by decide +kernel

/-! ## The step -/

/-- R412, R421: of V-blank and the timer, V-blank is dispatched; PC 0x0100 is pushed. -/
theorem test_dispatch : (nextIs { cpu [] { Regs.reset with sp := 0xD000#16 } [] with
      ime := true, bus.ie := 0xFF#8, bus.iflag := 0b00101#5 } fun t =>
    t.regs.pc = 0x0040#16 && t.memRead 0xCFFF#16 = 0x01#8 && t.memRead 0xCFFE#16 = 0x00#8 && !t.ime
      && t.bus.iflag = 0b00100#5 && t.cycles = 5) = true := by decide +kernel

/-- R364: EI, then NOP: IME is set by the second step. -/
theorem test_ei_delay : (nextIs (cpu [0xFB#8, 0x00#8] Regs.reset []) fun t => !t.ime && nextIs t fun u => u.ime) = true :=
  by decide +kernel

/-- R430: Halted with a source pending and IME = 0 goes on with the next instruction. -/
theorem test_halt_wakes : (nextIs { cpu [0x3C#8] Regs.reset [] with mode := .halted, bus.ie := 0x01#8 } fun t =>
    t.mode = .running && t.regs.a = 0x02#8) = true := by decide +kernel

/-- R611: with `halt_bug` the byte after HALT is read twice, so INC A runs twice. -/
theorem test_halt_bug : (nextIs { cpu [0x76#8, 0x3C#8] Regs.reset [] with params.haltBug := true, bus.ie := 0x01#8 }
    fun t => nextIs t fun u => nextIs u fun v => v.regs.a = 0x03#8 && v.regs.pc = 0x0102#16) = true := by
  decide +kernel

/-- R90, R91: the copy of 160 bytes is paid by the next step. -/
theorem test_oam_copy : (nextIs (cpu [0xE0#8, 0x46#8, 0x00#8] { Regs.reset with a := 0xC0#8 } [(0xC09F#16, 0x5A#8)])
    fun t => t.memRead 0xFE9F#16 = 0x5A#8 && t.cycles = 3 && nextIs t fun u => u.cycles = 161) = true := by
  decide +kernel

/-- R450, R451: DIV counts every 256 T-cycles; a write clears it. -/
theorem test_div : (nextIs { cpu [0x00#8] Regs.reset [] with bus.timer.sysclk := 0x12FC#16 } fun t =>
    t.memRead 0xFF04#16 = 0x13#8) = true := by decide +kernel

/-! ## Witnesses: for every statement with hypotheses, a state that meets them -/

theorem reset_ready : State.reset.mode = .running ∧ State.reset.bus.memInv = true := by decide +kernel

theorem witness_StoreByte : ∃ s : State, s.mode = .running ∧ s.bus.memInv = true := ⟨_, reset_ready⟩
theorem witness_StepHL : ∃ s : State, s.mode = .running ∧ s.bus.memInv = true := ⟨_, reset_ready⟩
theorem witness_StoreStackPointer : ∃ s : State, s.mode = .running ∧ s.bus.memInv = true := ⟨_, reset_ready⟩
theorem witness_Push : ∃ s : State, s.mode = .running ∧ s.bus.memInv = true := ⟨_, reset_ready⟩
theorem witness_RotateMemory : ∃ s : State, s.mode = .running ∧ s.bus.memInv = true := ⟨_, reset_ready⟩
theorem witness_UpdateMemory : ∃ s : State, s.mode = .running ∧ s.bus.memInv = true := ⟨_, reset_ready⟩

theorem witness_PopFromStack : RegStk.bc ≠ .af ∧ RegStk.af = .af ∧ RegStk.de ≠ .af := by decide

/-- Reset holds Z = 1, N = 0, C = 1 (R44), so each condition holds on reset or on the state with F = 0. -/
theorem witness_Jump : State.reset.regs.f.getLsbD 7 = true ∧ State.reset.regs.f.getLsbD 4 = true
    ∧ (0x00#8 : Byte).getLsbD 7 = false ∧ (0x00#8 : Byte).getLsbD 4 = false := by decide

theorem witness_Call : State.reset.mode = .running ∧ State.reset.bus.memInv = true
    ∧ State.reset.regs.cond .z = true ∧ State.reset.regs.cond .nz = false := by decide +kernel

theorem witness_Return : State.reset.regs.cond .c = true ∧ State.reset.regs.cond .nc = false := by decide +kernel

/-- The state of `halt_bug`: the parameter set, IME = 0, V-blank enabled and requested. -/
def haltBugState (bs : List Byte) : State :=
  { cpu bs Regs.reset [] with params.haltBug := true, bus.ie := 0x01#8 }

theorem witness_SystemInstructions :
    ((haltBugState []).params.haltBug = true ∧ (haltBugState []).ime = false
      ∧ (haltBugState []).bus.ie.extractLsb' 0 5 &&& (haltBugState []).bus.iflag ≠ 0#5)
    ∧ ¬ (State.reset.params.haltBug = true ∧ State.reset.ime = false
      ∧ State.reset.bus.ie.extractLsb' 0 5 &&& State.reset.bus.iflag ≠ 0#5) := by decide +kernel

theorem witness_PrefixedInstruction : State.reset.mode = .running := rfl

/-- A state whose next step executes. -/
theorem executes_of {s : State} (hm : s.mode = .running) (hi : s.ime = false) : s.executes := ⟨hm, .inl hi⟩

theorem reads_of {s : State} {a b c : Word} {i : Instr} {rest : List Byte}
    (h : (match decode [s.memRead a, s.memRead b, s.memRead c] with
      | .ok p => decide (p = (i, rest))
      | .error _ => false) = true) : decode [s.memRead a, s.memRead b, s.memRead c] = .ok (i, rest) := by
  split at h
  next heq => rw [heq, of_decide_eq_true h]
  · cases h

theorem witness_StepRunsDecodedInstruction :
    let s := cpu [0x36#8, 0xAB#8] Regs.reset []
    s.executes ∧ s.haltPcHold = false
    ∧ decode [s.memRead s.regs.pc, s.memRead (s.regs.pc + 1#16), s.memRead (s.regs.pc + 2#16)]
      = .ok (.ldHLN 0xAB#8, [0x00#8]) :=
  ⟨executes_of (by decide +kernel) (by decide +kernel), by decide +kernel, reads_of (by decide +kernel)⟩

/-- Also without an enable, and with IME = 1 and nothing pending: `executes` has two cases. -/
theorem witness_executes_enabled : State.executes { State.reset with ime := true } :=
  ⟨by decide +kernel, .inr (by decide +kernel)⟩

theorem witness_HaltBugReadsOpcodeTwice :
    let s := { haltBugState [0x06#8, 0x77#8] with haltPcHold := true }
    s.executes ∧ s.haltPcHold = true
    ∧ decode [s.memRead s.regs.pc, s.memRead s.regs.pc, s.memRead (s.regs.pc + 1#16)] = .ok (.ldRN .b 0x06#8, [0x77#8]) :=
  ⟨executes_of (by decide +kernel) (by decide +kernel), by decide +kernel, reads_of (by decide +kernel)⟩

theorem witness_IdleSteps :
    (∃ s : State, s.mode = .halted ∧ s.pending = 0#5) ∧ (∃ s : State, s.mode = .halted ∧ s.pending ≠ 0#5)
    ∧ (∃ s : State, s.mode = .stopped) ∧ ∃ s : State, s.mode = .locked :=
  ⟨⟨{ State.reset with mode := .halted }, by decide +kernel⟩,
    ⟨{ State.reset with mode := .halted, bus.ie := 0x01#8 }, by decide +kernel⟩,
    ⟨{ State.reset with mode := .stopped }, rfl⟩, ⟨{ State.reset with mode := .locked }, rfl⟩⟩

theorem witness_LockedForever : ∃ s t : State, s.mode = .locked ∧ State.Steps 1 s t := by
  obtain ⟨t, ht, -⟩ := exists_next (s := { State.reset with mode := .locked }) (p := fun _ => true) (by decide +kernel)
  exact ⟨_, t, rfl, .succ ht (.zero t)⟩

/-- The highest and the lowest priority, i = 0 and i = 4, with and without `halt_bug`'s held opcode. -/
theorem witness_Dispatch :
    let s := { State.reset with ime := true, bus.ie := 0xFF#8, bus.iflag := 0b10001#5 }
    let u := { State.reset with ime := true, haltPcHold := true, bus.ie := 0x10#8, bus.iflag := 0b11111#5 }
    s.dispatches ∧ s.bus.memInv = true ∧ (s.bus.ie.getLsbD 0 = true ∧ s.bus.iflag.getLsbD 0 = true)
    ∧ u.dispatches ∧ u.bus.memInv = true ∧ (u.bus.ie.getLsbD 4 = true ∧ u.bus.iflag.getLsbD 4 = true)
    ∧ (∀ j < 4, ¬ (u.bus.ie.getLsbD j = true ∧ u.bus.iflag.getLsbD j = true))
    ∧ s.haltPcHold = false ∧ u.haltPcHold = true :=
  ⟨⟨rfl, rfl, by decide +kernel⟩, by decide +kernel, by decide +kernel, ⟨rfl, rfl, by decide +kernel⟩,
    by decide +kernel, by decide +kernel, by decide +kernel, rfl, rfl⟩

/-- Two steps of EI's delay, with a property of the states between and after. -/
theorem two_steps {s : State} {p : State → State → Bool} (h : (nextIs s fun t => nextIs t (p t)) = true) :
    ∃ t u, step s = .next t ∧ step t = .next u ∧ p t u = true := by
  obtain ⟨t, ht, h⟩ := exists_next h
  obtain ⟨u, hu, h⟩ := exists_next h
  exact ⟨t, u, ht, hu, h⟩

/-- EI, then DI, then NOP, then an undefined opcode: each clause is met. -/
theorem witness_EiDelay :
    (∃ s t u : State, s.executes ∧ s.ime = false ∧ s.imePending = false ∧ s.fetched = .ei ∧ step s = .next t
      ∧ step t = .next u ∧ t.fetched = .di)
    ∧ (∃ s t u : State, s.executes ∧ s.ime = false ∧ s.imePending = false ∧ s.fetched = .ei ∧ step s = .next t
      ∧ step t = .next u ∧ t.fetched ≠ .di ∧ u.mode ≠ .locked)
    ∧ ∃ s t u : State, s.executes ∧ s.ime = false ∧ s.imePending = false ∧ s.fetched = .ei ∧ step s = .next t
      ∧ step t = .next u ∧ u.mode = .locked := by
  refine ⟨?_, ?_, ?_⟩
  · obtain ⟨t, u, ht, hu, h⟩ := two_steps (s := cpu [0xFB#8, 0xF3#8] Regs.reset [])
      (p := fun t _ => t.fetched = .di) (by decide +kernel)
    exact ⟨_, t, u, executes_of (by decide +kernel) (by decide +kernel), by decide +kernel, by decide +kernel,
      by decide +kernel, ht, hu, of_decide_eq_true h⟩
  · obtain ⟨t, u, ht, hu, h⟩ := two_steps (s := cpu [0xFB#8, 0x00#8] Regs.reset [])
      (p := fun t u => t.fetched ≠ .di && u.mode ≠ .locked) (by decide +kernel)
    simp only [Bool.and_eq_true, decide_eq_true_eq] at h
    exact ⟨_, t, u, executes_of (by decide +kernel) (by decide +kernel), by decide +kernel, by decide +kernel,
      by decide +kernel, ht, hu, h⟩
  · obtain ⟨t, u, ht, hu, h⟩ := two_steps (s := cpu [0xFB#8, 0xD3#8] Regs.reset [])
      (p := fun _ u => u.mode = .locked) (by decide +kernel)
    exact ⟨_, t, u, executes_of (by decide +kernel) (by decide +kernel), by decide +kernel, by decide +kernel,
      by decide +kernel, ht, hu, of_decide_eq_true h⟩

/-- IME goes up by RETI and by a pending EI, and down by DI and by a dispatch. -/
theorem witness_ImeChanges :
    (∃ s t : State, step s = .next t ∧ s.ime = false ∧ t.ime = true ∧ s.fetched = .reti)
    ∧ (∃ s t : State, step s = .next t ∧ s.ime = false ∧ t.ime = true ∧ s.imePending = true)
    ∧ (∃ s t : State, step s = .next t ∧ s.ime = true ∧ t.ime = false ∧ s.fetched = .di)
    ∧ ∃ s t : State, step s = .next t ∧ s.ime = true ∧ t.ime = false ∧ s.pending ≠ 0#5 := by
  refine ⟨?_, ?_, ?_, ?_⟩
  · obtain ⟨t, ht, h⟩ := exists_next (s := cpu [0xD9#8] Regs.reset []) (p := fun t => t.ime) (by decide +kernel)
    exact ⟨_, t, ht, by decide +kernel, h, by decide +kernel⟩
  · obtain ⟨t, ht, h⟩ := exists_next (s := { State.reset with imePending := true }) (p := fun t => t.ime)
      (by decide +kernel)
    exact ⟨_, t, ht, rfl, h, rfl⟩
  · obtain ⟨t, ht, h⟩ := exists_next (s := { cpu [0xF3#8] Regs.reset [] with ime := true }) (p := fun t => !t.ime)
      (by decide +kernel)
    exact ⟨_, t, ht, rfl, by simpa using h, by decide +kernel⟩
  · obtain ⟨t, ht, h⟩ := exists_next (s := { State.reset with ime := true, bus.ie := 0x01#8 }) (p := fun t => !t.ime)
      (by decide +kernel)
    exact ⟨_, t, ht, rfl, by simpa using h, by decide +kernel⟩

/-- Every way into and out of a mode happens. -/
theorem witness_ModeChanges :
    (∃ s t : State, step s = .next t ∧ s.mode = .stopped) ∧ (∃ s t : State, step s = .next t ∧ s.mode = .locked)
    ∧ (∃ s t : State, step s = .next t ∧ s.mode = .halted ∧ s.pending = 0#5)
    ∧ (∃ s t : State, step s = .next t ∧ s.mode = .halted ∧ s.pending ≠ 0#5 ∧ s.ime = true)
    ∧ (∃ s t : State, step s = .next t ∧ s.mode = .running ∧ s.opcodeByte ∈ undefinedOpcodes ∧ t.mode = .locked)
    ∧ (∃ s t : State, step s = .next t ∧ s.mode = .running ∧ s.opcodeByte = 0x10#8 ∧ t.mode = .stopped)
    ∧ ∃ s t : State, step s = .next t ∧ s.mode = .running ∧ s.opcodeByte = 0x76#8 ∧ t.mode = .halted := by
  refine ⟨?_, ?_, ?_, ?_, ?_, ?_, ?_⟩
  · obtain ⟨t, ht, -⟩ := exists_next (s := { State.reset with mode := .stopped }) (p := fun _ => true) (by decide +kernel)
    exact ⟨_, t, ht, rfl⟩
  · obtain ⟨t, ht, -⟩ := exists_next (s := { State.reset with mode := .locked }) (p := fun _ => true) (by decide +kernel)
    exact ⟨_, t, ht, rfl⟩
  · obtain ⟨t, ht, -⟩ := exists_next (s := { State.reset with mode := .halted }) (p := fun _ => true) (by decide +kernel)
    exact ⟨_, t, ht, rfl, by decide +kernel⟩
  · obtain ⟨t, ht, -⟩ := exists_next (s := { State.reset with mode := .halted, ime := true, bus.ie := 0x01#8 })
      (p := fun _ => true) (by decide +kernel)
    exact ⟨_, t, ht, rfl, by decide +kernel, rfl⟩
  · obtain ⟨t, ht, h⟩ := exists_next (s := cpu [0xED#8] Regs.reset []) (p := fun t => t.mode = .locked) (by decide +kernel)
    exact ⟨_, t, ht, by decide +kernel, by decide +kernel, of_decide_eq_true h⟩
  · obtain ⟨t, ht, h⟩ := exists_next (s := cpu [0x10#8] Regs.reset []) (p := fun t => t.mode = .stopped) (by decide +kernel)
    exact ⟨_, t, ht, by decide +kernel, by decide +kernel, of_decide_eq_true h⟩
  · obtain ⟨t, ht, h⟩ := exists_next (s := cpu [0x76#8] Regs.reset []) (p := fun t => t.mode = .halted) (by decide +kernel)
    exact ⟨_, t, ht, by decide +kernel, by decide +kernel, of_decide_eq_true h⟩

/-- The first and the last address of each range, and the memories' invariant. -/
theorem witness_EchoAndUnmapped : Bus.reset.memInv = true
    ∧ (∀ a ∈ [0xE000#16, 0xFDFF#16], 0xE000 ≤ a.toNat ∧ a.toNat ≤ 0xFDFF)
    ∧ (∀ a ∈ [0xFEA0#16, 0xFEFF#16], 0xFEA0 ≤ a.toNat ∧ a.toNat ≤ 0xFEFF)
    ∧ (∀ a ∈ [0xFF08#16, 0xFF0E#16], 0xFF08 ≤ a.toNat ∧ a.toNat ≤ 0xFF0E)
    ∧ (∀ a ∈ [0xFF27#16, 0xFF2F#16], 0xFF27 ≤ a.toNat ∧ a.toNat ≤ 0xFF2F)
    ∧ ∀ a ∈ [0xFF4C#16, 0xFF7F#16], 0xFF4C ≤ a.toNat ∧ a.toNat ≤ 0xFF7F :=
  ⟨by decide +kernel, by simp, by simp, by simp, by simp, by simp⟩

/-- The APU on and off, its power bit both ways, and the first and the last byte of wave RAM. -/
theorem witness_RegisterReadBack : Bus.reset.apu.on = true ∧ ({ Apu.reset with on := false } : Apu).on = false
    ∧ (0x7F#8 : Byte).getLsbD 7 = false ∧ (0x80#8 : Byte).getLsbD 7 = true ∧ Bus.reset.memInv = true
    ∧ ∀ a ∈ [0xFF30#16, 0xFF3F#16], 0xFF30 ≤ a.toNat ∧ a.toNat ≤ 0xFF3F :=
  ⟨rfl, rfl, by decide, by decide, by decide +kernel, by simp⟩

/-- The parameter off, the LCD off, and with the parameter on each mode that closes a memory; H-blank and V-blank close
none, and each closing mode leaves the addresses beside its memory open. -/
theorem witness_AccessBlocking :
    let on := { Params.default with ppuAccessBlocking := true }
    let transfer := { Bus.reset with ppu.dot := 80 }
    Params.default.ppuAccessBlocking = false ∧ ({ Bus.reset.ppu with lcdc := 0x11#8 } : Ppu).lcdOn = false
    ∧ on.ppuAccessBlocking = true ∧ transfer.ppu.mode = .transfer ∧ Bus.reset.ppu.mode = .oamScan
    ∧ (∀ a ∈ [0x8000#16, 0x9FFF#16], 0x8000 ≤ a.toNat ∧ a.toNat ≤ 0x9FFF)
    ∧ (∀ a ∈ [0xFE00#16, 0xFE9F#16], 0xFE00 ≤ a.toNat ∧ a.toNat ≤ 0xFE9F)
    ∧ ({ Bus.reset.ppu with dot := 252 } : Ppu).mode = .hblank ∧ ({ Bus.reset.ppu with ly := 144 } : Ppu).mode = .vblank
    ∧ (∀ a ∈ [0x7FFF#16, 0xA000#16], ¬ (0x8000 ≤ a.toNat ∧ a.toNat ≤ 0x9FFF))
    ∧ ∀ a ∈ [0xFDFF#16, 0xFEA0#16], ¬ (0xFE00 ≤ a.toNat ∧ a.toNat ≤ 0xFE9F) :=
  ⟨rfl, by decide +kernel, rfl, by decide +kernel, by decide +kernel, by simp, by simp, by decide +kernel,
    by decide +kernel, by simp, by simp⟩

theorem witness_OamCopy : Bus.reset.memInv = true := by decide +kernel

theorem witness_RomImmutable : ∃ s t : State, step s = .next t := by
  obtain ⟨t, ht, -⟩ := exists_next (s := State.reset) (p := fun _ => true) (by decide +kernel)
  exact ⟨_, t, ht⟩

/-- A bus with a controller of a variant, with RAM and a clock where the variant has them. -/
def busOf (v : Variant) (ramSize : Nat) (clock : Bool) : Bus :=
  { Bus.reset with cart := { Cart.resetWith v 4 ((ramSize + 8191) / 8192) ramSize clock false with ramEnable := true } }

/-- The first and the last address of each register range and window. -/
theorem witness_ranges : (∀ a ∈ [0x0000#16, 0x1FFF#16], a.toNat ≤ 0x1FFF)
    ∧ (∀ a ∈ [0x2000#16, 0x3FFF#16], 0x2000 ≤ a.toNat ∧ a.toNat ≤ 0x3FFF)
    ∧ (∀ a ∈ [0x4000#16, 0x5FFF#16], 0x4000 ≤ a.toNat ∧ a.toNat ≤ 0x5FFF)
    ∧ (∀ a ∈ [0x6000#16, 0x7FFF#16], 0x6000 ≤ a.toNat ∧ a.toNat ≤ 0x7FFF)
    ∧ ∀ a ∈ [0xA000#16, 0xBFFF#16], 0xA000 ≤ a.toNat ∧ a.toNat ≤ 0xBFFF := by simp

/-- No controller with RAM and without (that of reset), and MBC1 with RAM enabled, disabled, and absent;
`witness_ranges` has the addresses. -/
theorem witness_NoControllerAndMbc1 :
    let direct := busOf .none 8192 false
    let b := busOf .mbc1 32768 false
    let off := { b with cart.ramEnable := false }
    let bare := busOf .mbc1 0 false
    direct.cart.variant = .none ∧ 0 < direct.cart.ramBanks
    ∧ Bus.reset.cart.variant = .none ∧ Bus.reset.cart.ramBanks = 0
    ∧ b.cart.variant = .mbc1 ∧ b.cart.ramBanks ≠ 0 ∧ b.cart.ramEnable = true
    ∧ off.cart.variant = .mbc1 ∧ off.cart.ramEnable = false ∧ bare.cart.variant = .mbc1 ∧ bare.cart.ramBanks = 0 := by
  decide +kernel

/-- MBC2 with RAM enabled and disabled; both values of address bit 8. -/
theorem witness_Mbc2 :
    let b := busOf .mbc2 512 false
    let off := { b with cart.ramEnable := false }
    b.cart.variant = .mbc2 ∧ b.memInv = true ∧ b.cart.ramEnable = true ∧ off.cart.variant = .mbc2 ∧ off.memInv = true
    ∧ off.cart.ramEnable = false ∧ (0x3EFF#16 : Word).getLsbD 8 = false ∧ (0x3FFF#16 : Word).getLsbD 8 = true := by
  decide +kernel

/-- MBC3: the window on RAM, on the first and the last clock register, and on nothing. -/
theorem witness_Mbc3 :
    let b := busOf .mbc3 32768 true
    let ram := { b with cart.ramRtcSel := 3#4 }
    let first := { b with cart.ramRtcSel := 0x8#4 }
    let last := { b with cart.ramRtcSel := 0xC#4 }
    let none := { b with cart.ramRtcSel := 0x4#4 }
    let off := { b with cart.ramEnable := false }
    b.cart.variant = .mbc3 ∧ ram.cart.ramEnable = true ∧ ram.cart.ramRtcSel.toNat ≤ 3 ∧ 0 < ram.cart.ramBanks
    ∧ (0x8 ≤ first.cart.ramRtcSel.toNat ∧ first.cart.ramRtcSel.toNat ≤ 0xC ∧ first.cart.hasRtc = true)
    ∧ (0x8 ≤ last.cart.ramRtcSel.toNat ∧ last.cart.ramRtcSel.toNat ≤ 0xC ∧ last.cart.hasRtc = true)
    ∧ ¬ (none.cart.ramRtcSel.toNat ≤ 3 ∧ 0 < none.cart.ramBanks)
    ∧ ¬ (0x8 ≤ none.cart.ramRtcSel.toNat ∧ none.cart.ramRtcSel.toNat ≤ 0xC ∧ none.cart.hasRtc = true)
    ∧ off.cart.ramEnable = false ∧ (0xFF#8 : Byte) ≠ 0x01#8 := by decide +kernel

/-- The first second and the last one of the 512 days. -/
theorem witness_ClockSecond :
    ∀ r ∈ [Rtc.zero, ⟨59#6, 59#6, 23#5, 0xFF#8, true, false, false⟩], r.s.toNat < 60 ∧ r.m.toNat < 60 ∧ r.h.toNat < 24 := by
  decide

/-- Both clauses meet at 256: TIMA at 0xFF with no increment, and with one. -/
theorem witness_TimerClosedForm :
    let tm : Timer := ⟨0x0008#16, 0xFF#8, 0xFE#8, 0b101#3⟩
    tm.tima.toNat + ((tm.sysclk.toNat + 7) / 16 - tm.sysclk.toNat / 16) < 256
    ∧ 256 ≤ tm.tima.toNat + ((tm.sysclk.toNat + 8) / 16 - tm.sysclk.toNat / 16) := by decide

/-- With group 0 selected at reset's select bits, pressing a button lowers a line; pressing none lowers none; a write of
P1 that selects the group of a pressed button lowers one; mode Stopped. -/
theorem witness_JoypadLines :
    let line := fun (select : BitVec 2) (buttons : Byte) (k : Nat) =>
      !((!select.getLsbD 0 && buttons.getLsbD k) || (!select.getLsbD 1 && buttons.getLsbD (4 + k)))
    let j : Joypad := ⟨0b11#2, 0x80#8, 0xF#4⟩
    let s := { State.reset with mode := .stopped }
    s.bus.joy.inv = true ∧ j.inv = true ∧ s.mode = .stopped
    ∧ (∃ k < 4, line s.bus.joy.select s.bus.joy.buttons k = true ∧ line s.bus.joy.select 0x08#8 k = false)
    ∧ (∀ k < 4, line s.bus.joy.select s.bus.joy.buttons k = true → line s.bus.joy.select 0x00#8 k = true)
    ∧ (∃ k < 4, line j.select j.buttons k = true ∧ line ((0x10#8 : Byte).extractLsb' 4 2) j.buttons k = false)
    ∧ ∀ k < 4, line j.select j.buttons k = true → line ((0x20#8 : Byte).extractLsb' 4 2) j.buttons k = true := by
  decide +kernel

/-- The first dot of the frame and the last one. -/
theorem witness_FramePosition :
    ∀ p ∈ [Bus.reset.ppu, { Bus.reset.ppu with ly := 153, dot := 455 }], p.lcdOn = true ∧ p.ly < 154 ∧ p.dot < 456 := by
  decide +kernel

/-- The LCD switched off from any invariant state, and on. -/
theorem witness_LcdSwitch :
    let p := Bus.reset.ppu
    let off := { p with lcdc := 0x11#8 }
    p.inv Params.default = true ∧ p.lcdOn = true ∧ (0x11#8 : Byte).getLsbD 7 = false
    ∧ off.inv Params.default = true ∧ off.lcdOn = false ∧ (0x91#8 : Byte).getLsbD 7 = true := by decide +kernel

/-- All four machines of the list, on the two sides of the level. -/
theorem witness_StatLine :
    let p := Bus.reset.ppu
    let q := (p.writeStat 0x20#8).1
    p.statLine = false ∧ q.statLine = true ∧ (p.writeStat 0x20#8) ∈ [p.writeStat 0x20#8] := by
  refine ⟨by decide +kernel, by decide +kernel, .head _⟩

/-- An OAM with one object that covers line 0, and one that does not. -/
theorem witness_ObjectSelection :
    let oam : Memory := [(0, 0x10#8), (4, 0x08#8)]
    (0, 0x10#8) ∈ (Bus.reset.ppu.scanEnd Params.default oam).lineObjs
    ∧ ¬ ((oam.read 4).toNat ≤ 0 + 16 ∧ 0 + 16 < (oam.read 4).toNat + 8) := by decide +kernel

/-- The first and the last column of the first and the last line. -/
theorem witness_BackgroundLine :
    ∀ p ∈ [Bus.reset.ppu, { Bus.reset.ppu with ly := 143 }], p.lcdc.getLsbD 0 = true ∧ p.lcdc.getLsbD 1 = false
      ∧ p.lcdc.getLsbD 5 = false ∧ p.ly < 144 ∧ (0 < 160 ∧ 159 < 160) ∧ (0 < 144 ∧ 143 < 144) := by decide +kernel

/-- One object over column 0 wins there; at column 8 nothing does. -/
theorem witness_ObjectPriority :
    let p := { Bus.reset.ppu with lcdc := 0x93#8, lineObjs := [(0, 0x10#8)] }
    let vram : Memory := [(0, 0xFF#8)]
    let oam : Memory := [(0, 0x10#8), (1, 0x08#8)]
    p.lcdc.getLsbD 1 = true ∧ p.objWinner vram oam 0 = some (0, 0x10#8) ∧ p.objWinner vram oam 8 = none := by
  decide +kernel

/-- The APU off and on, and the first and the last register of the block. -/
theorem witness_ApuPower :
    Bus.reset.apu.on = true ∧ ({ Apu.reset with on := false } : Apu).on = false
    ∧ (0x80#8 : Byte).getLsbD 7 = true ∧ (0x7F#8 : Byte).getLsbD 7 = false
    ∧ ∀ a ∈ [0xFF10#16, 0xFF25#16], 0xFF10 ≤ a.toNat ∧ a.toNat ≤ 0xFF25 :=
  ⟨rfl, rfl, by decide, by decide, by simp⟩

theorem witness_SampleBounds : Apu.on { Apu.reset with on := false } = false := rfl

theorem witness_SampleCount : 0 < Params.default.samplePeriodDen
    ∧ Params.default.samplePeriodDen ≤ Params.default.samplePeriodNum
    ∧ Apu.reset.sampleAcc < Params.default.samplePeriodNum := by decide

/-- An MBC1 image of 32 KiB is loaded, on the default `reset_regs` and on one that starts in bank 5. -/
theorem witness_ResetValues :
    let img : RomImage := ⟨32768, [(0x0147, 0x01#8)]⟩
    let five := { BootArgs.default with resetRegs := { State.reset with bus.cart.bank1 := 5#5 }, mode3Len := some 180 }
    (∃ t, boot BootArgs.default img = .ok t) ∧ (∃ t, boot five img = .ok t ∧ t.bus.cart.bank1 = 5#5)
    ∧ BootArgs.default.mode3Len = none ∧ five.mode3Len = some 180 := ⟨⟨_, rfl⟩, ⟨_, rfl, rfl⟩, rfl, rfl⟩

/-- R600, R601: whatever `reset_regs` holds, the machine starts at 0x0100, and no frame waits. -/
theorem test_boot_entry : (match boot { BootArgs.default with resetRegs :=
      { State.reset with regs.pc := 0x0200#16, bus.ppu.frameReady := true } } ⟨32768, []⟩ with
    | .ok t => t.regs.pc = 0x0100#16 && !t.bus.ppu.frameReady
    | .error _ => false) = true := by decide +kernel

theorem witness_DecodeEncode : (Instr.stop 0xFF#8).wellFormed = true := rfl

theorem witness_StepKeepsInvariant : ∃ s t : State, s.inv = true ∧ step s = .next t := by
  obtain ⟨t, ht, -⟩ := exists_next (s := State.reset) (p := fun _ => true) (by decide +kernel)
  exact ⟨_, t, by decide +kernel, ht⟩

end Sys2Proof.Tests
end

section
/-! PROOFS. The invariant of the machine: reset meets it and every step keeps it (O59, O60). -/

namespace Sys2Proof.Machine

/-! ## The invariant of the machine -/

/-- What of the machine's invariant is about the bus: the memories and every device behind it. -/
structure Bus.Ok (prm : Params) (b : Bus) : Prop where
  memories : b.memInv = true
  devices : b.DevicesOk prm

theorem Bus.Ok.write {b : Bus} {prm : Params} (h : b.Ok prm) (a : Word) (v : Byte) : (b.write prm a v).Ok prm :=
  ⟨b.write_memInv prm a v h.memories, h.devices.write a v⟩

theorem Bus.Ok.advance {b : Bus} {prm : Params} (h : b.Ok prm) (t : Nat) : (b.advance prm t).Ok prm :=
  ⟨(b.advance_memInv prm t).trans h.memories, h.devices.advance t⟩

/-- A change of IF is no device's business. -/
theorem Bus.Ok.setIflag {b : Bus} {prm : Params} (h : b.Ok prm) (f : BitVec 5) : Bus.Ok prm { b with iflag := f } :=
  ⟨h.memories, ⟨h.devices.ppu, h.devices.apu, h.devices.cart, h.devices.joy, h.devices.dma⟩⟩

theorem Bus.Ok.clearDmaCost {b : Bus} {prm : Params} (h : b.Ok prm) : Bus.Ok prm { b with dmaCost := 0 } :=
  ⟨h.memories, ⟨h.devices.ppu, h.devices.apu, h.devices.cart, h.devices.joy, .inl rfl⟩⟩

namespace State

/-- The invariant of the machine in parts: F and the hold of the CPU, and the bus. -/
theorem inv_iff (s : State) : s.inv = true ↔
    s.regs.f.extractLsb' 0 4 = 0#4 ∧ (s.haltPcHold = true → s.params.haltBug = true) ∧ s.bus.Ok s.params := by
  simp only [inv, cpuInv, Bool.and_eq_true, Bool.or_eq_true, decide_eq_true_eq, Bool.not_eq_true']
  constructor
  · rintro ⟨⟨⟨⟨⟨⟨⟨hf, hhold⟩, hdma⟩, hmem⟩, hppu⟩, hapu⟩, hcart⟩, hjoy⟩
    exact ⟨hf, fun hh => hhold.resolve_right (by simp [hh]), hmem, hppu, hapu, hcart, hjoy, hdma⟩
  · rintro ⟨hf, hhold, hmem, hppu, hapu, hcart, hjoy, hdma⟩
    refine ⟨⟨⟨⟨⟨⟨⟨hf, ?_⟩, hdma⟩, hmem⟩, hppu⟩, hapu⟩, hcart⟩, hjoy⟩
    cases hh : s.haltPcHold with
    | false => exact .inr rfl
    | true => exact .inl (hhold hh)

/-- A step keeps the CPU's part of the invariant: the low nibble of F (R22) and no hold without `halt_bug` (R42). -/
theorem step_keeps_cpu {s t : State} (h : step s = .next t) (hf : s.regs.f.extractLsb' 0 4 = 0#4)
    (hhold : s.haltPcHold = true → s.params.haltBug = true) :
    t.regs.f.extractLsb' 0 4 = 0#4 ∧ (t.haltPcHold = true → t.params.haltBug = true) := by
  obtain ⟨u, hu, -, he⟩ := s.tick_effect
  rw [step, hu] at h
  cases h
  have hparams : u.params = s.params := by simpa using he.params
  refine ⟨he.lowNibble (by simpa using hf), fun hh => ?_⟩
  obtain hold | hbug := he.hold hh
  · simpa [hparams] using hhold (by simpa [clearDmaCost] using hold)
  · simpa [hparams] using hbug

end State

/-- Settles O60: the CPU's part by what a step can do, the bus's part by the induction over the step's bus writes. -/
theorem stepKeepsInvariant : Obligations.StepKeepsInvariant := by
  unfold Obligations.StepKeepsInvariant
  intro s t hs hstep
  obtain ⟨hf, hhold, hbus⟩ := s.inv_iff.1 hs
  obtain ⟨hf', hhold'⟩ := State.step_keeps_cpu hstep hf hhold
  exact t.inv_iff.2 ⟨hf', hhold', State.step_keeps_bus Bus.Ok (fun _ _ a v h => h.write a v)
    (fun _ _ f h => h.setIflag f) (fun _ _ h => h.clearDmaCost) (fun _ _ n h => h.advance n) hstep hbus⟩

/-- Settles O59: the reset state is closed, so its invariant is evaluated. -/
theorem resetMeetsInvariant : Obligations.ResetMeetsInvariant := by
  unfold Obligations.ResetMeetsInvariant
  decide +kernel

end Sys2Proof.Machine
end

section
/-! PROOFS. What a step does to IME, its pending enable and the run mode (O32, O33, O34). -/

namespace Sys2Proof

/-! ## What an instruction does to IME and the run mode -/

/-- IME after the instruction, apart from an EI of the step before (R27). -/
def Instr.imeAfter (before : Bool) : Instr → Bool
  | .di => false
  | .reti => true
  | _ => before

/-- The pending enable after the instruction (R28). -/
def Instr.imePendingAfter (before : Bool) : Instr → Bool
  | .di => false
  | .reti => false
  | .ei => true
  | _ => before

/-- The run mode after the instruction, from mode Running; `bug`: HALT meets the case of `halt_bug` (R29, R362). -/
def Instr.modeAfter (bug : Bool) : Instr → Machine.RunMode
  | .halt => if bug then .running else .halted
  | .stop _ => .stopped
  | .undefD3 | .undefDB | .undefDD | .undefE3 | .undefE4 | .undefEB | .undefEC | .undefED | .undefF4 | .undefFC
  | .undefFD => .locked
  | _ => .running

/-- The run mode that an opcode byte alone decides. -/
def opcodeMode (bug : Bool) (op : Byte) : Machine.RunMode :=
  if op ∈ Machine.undefinedOpcodes then .locked
  else if op = 0x10#8 then .stopped
  else if op = 0x76#8 then (if bug then .running else .halted)
  else .running

theorem decodeCB_modeAfter (bug : Bool) (op2 : Byte) : (decodeCB op2).modeAfter bug = .running := by
  unfold decodeCB
  dsimp only
  split <;> (try split) <;> rfl

/-- Operand bytes do not matter to the run mode. -/
theorem decodeBytes_modeAfter_operands (bug : Bool) (b0 b1 b2 : Byte) :
    (decodeBytes b0 b1 b2).modeAfter bug = (decodeBytes b0 0#8 0#8).modeAfter bug := by
  unfold decodeBytes
  split
  · unfold decodeX0
    split <;> (try split) <;> rfl
  · rfl
  · rfl
  · unfold decodeX3 decodeAluN
    split <;> (try split) <;> first | rfl | simp only [decodeCB_modeAfter]

theorem decodeBytes_modeAfter (bug : Bool) (b0 b1 b2 : Byte) :
    (decodeBytes b0 b1 b2).modeAfter bug = opcodeMode bug b0 := by
  rw [decodeBytes_modeAfter_operands]
  revert bug b0
  decide +kernel

theorem opcodeMode_eq_locked {bug : Bool} {op : Byte} :
    opcodeMode bug op = .locked ↔ op ∈ Machine.undefinedOpcodes := by
  revert bug op
  decide +kernel

theorem opcodeMode_eq_stopped {bug : Bool} {op : Byte} : opcodeMode bug op = .stopped ↔ op = 0x10#8 := by
  revert bug op
  decide +kernel

theorem opcodeMode_eq_halted {bug : Bool} {op : Byte} :
    opcodeMode bug op = .halted ↔ op = 0x76#8 ∧ bug = false := by
  revert bug op
  decide +kernel

/-- An undefined opcode leaves IME alone (R366). -/
theorem Instr.imeAfter_of_locks {bug : Bool} {i : Instr} (h : i.modeAfter bug = .locked) (before : Bool) :
    i.imeAfter before = before := by
  unfold imeAfter
  split
  · cases h
  · cases h
  · rfl

/-- The only instruction that sets IME at once is RETI (R27). -/
theorem Instr.eq_reti_of_sets {i : Instr} (h : i.imeAfter false = true) : i = .reti := by
  unfold imeAfter at h
  split at h
  · cases h
  · rfl
  · cases h

/-- The only instruction that clears IME is DI (R27). -/
theorem Instr.eq_di_of_clears {i : Instr} (h : i.imeAfter true = false) : i = .di := by
  unfold imeAfter at h
  split at h
  · rfl
  · cases h
  · cases h

/-- Beside DI, the only instruction that drops a pending enable is RETI, which sets IME (R339). -/
theorem Instr.eq_reti_of_clears {i : Instr} (h : i.imePendingAfter true = false) (hi : i ≠ .di) : i = .reti := by
  unfold imePendingAfter at h
  split at h
  · exact absurd rfl hi
  · rfl
  · cases h
  · cases h

namespace Machine

/-- The control state after instruction `i` from mode Running. -/
structure Controlled (i : Instr) (s t : State) : Prop where
  ime : t.ime = i.imeAfter s.ime
  imePending : t.imePending = i.imePendingAfter s.imePending
  mode : t.mode = i.modeAfter s.haltBugApplies

@[simp] theorem State.returnFromInterrupt_mode (s : State) : s.returnFromInterrupt.mode = s.mode := rfl

/-- What a well-formed instruction does to the control state. -/
theorem exec_controlled {i : Instr} {s t : State} (hi : ∀ x, i ≠ .prefixCB x) (hm : s.mode = .running)
    (h : exec i s = .next t) : Controlled i s t := by
  cases i with
  | prefixCB x => exact absurd rfl (hi x)
  | halt =>
    cases h
    cases hb : s.haltBugApplies with
    | false => exact ⟨rfl, rfl, by simp [Instr.modeAfter, hb]⟩
    | true => exact ⟨rfl, rfl, by simp [Instr.modeAfter, hm, hb]⟩
  | jpCc cc | jrCc cc | callCc cc | retCc cc =>
    cases h
    cases s.regs.cond cc with
    | false => exact ⟨rfl, rfl, hm⟩
    | true => exact ⟨rfl, rfl, by simp [Instr.modeAfter, hm]⟩
  | _ => cases h; exact ⟨rfl, rfl, by simp [Instr.modeAfter, hm]⟩

/-- An instruction that ends Locked is the lock (R366). -/
theorem exec_of_locks {bug : Bool} {i : Instr} (h : i.modeAfter bug = .locked) (s : State) :
    exec i s = .next s.lock := by
  cases i with
  | undefD3 | undefDB | undefDD | undefE3 | undefE4 | undefEB | undefEC | undefED | undefF4 | undefFC | undefFD => rfl
  | halt => cases bug <;> cases h
  | _ => cases h

namespace State

variable {s t : State}

/-! ## What a step does to IME and the run mode -/

theorem fetched_ne_prefixCB (s : State) (x : Byte) : s.fetched ≠ .prefixCB x := fun h => by
  have hw : s.fetched.wellFormed = true := decodeBytes_wellFormed _ _ _
  rw [h] at hw
  cases hw

/-- The next step goes on as Running: an instruction or a dispatch (R420). -/
def active (s : State) : Prop := s.mode = .running ∨ (s.mode = .halted ∧ s.pending ≠ 0#5)

/-- An active step is a step from mode Running. -/
theorem step_of_active (h : s.active) : step s = step { s with mode := .running } := by
  obtain hrun | ⟨hhalt, hp⟩ := h
  · rw [← hrun]
  · exact s.step_of_halted hhalt hp

/-- A step that is not active leaves IME and the run mode (R420, R430). -/
theorem step_of_not_active (h : ¬ s.active) (hstep : step s = .next t) : t.ime = s.ime ∧ t.mode = s.mode := by
  obtain ⟨u, hu, hmode, -⟩ := s.tick_effect
  rw [step, hu] at hstep
  cases hstep
  have hidle : modeStep s.reportLock.clearDmaCost = .next (s.reportLock.clearDmaCost.takes 1) := by
    unfold modeStep
    split
    · rfl
    · refine if_pos (Classical.not_not.1 fun hp => h (.inr ⟨?_, ?_⟩))
      · simpa using ‹s.reportLock.clearDmaCost.mode = .halted›
      · simpa [pending] using hp
    · rfl
    · exact absurd (.inl (by simpa using ‹s.reportLock.clearDmaCost.mode = .running›)) h
  rw [hidle] at hmode
  cases hmode
  simp

/-- A step that dispatches clears IME and goes on as Running (R421). -/
theorem step_dispatches_control (h : s.dispatches) (hstep : step s = .next t) : t.ime = false ∧ t.mode = .running := by
  obtain ⟨hm, hi, hp⟩ := h
  rw [step_of_dispatches s hm hi hp] at hstep
  cases hstep
  exact ⟨rfl, by simp [dispatch_mode, hm]⟩

/-- A step that executes: the control state is the instruction's, and then the effect of an EI of the step before. -/
theorem step_executes_control (h : s.executes) (hstep : step s = .next t) :
    ∃ u, exec s.fetched s.clearDmaCost.afterFetch = .next u ∧ Controlled s.fetched s u ∧ t.regs = u.regs
      ∧ t.mode = u.mode ∧ t.ime = (eiEffect s.imePending u).ime
      ∧ t.imePending = (eiEffect s.imePending u).imePending := by
  obtain ⟨hm, hexec⟩ := h
  obtain ⟨u, hu, hs⟩ := step_of_executes s hm hexec
  rw [hs] at hstep
  cases hstep
  have hc := exec_controlled s.clearDmaCost.fetched_ne_prefixCB (by simpa using hm) hu
  exact ⟨u, hu, ⟨hc.ime, hc.imePending, hc.mode⟩, by simp, by simp, rfl, rfl⟩

theorem step_executes_mode (h : s.executes) (hstep : step s = .next t) :
    t.mode = opcodeMode s.haltBugApplies s.opcodeByte := by
  obtain ⟨u, -, hc, -, hmode, -⟩ := step_executes_control h hstep
  rw [hmode, hc.mode, fetched, decodeBytes_modeAfter]

/-- A step that ends Locked leaves every register, PC among them (R401). -/
theorem step_executes_locked_regs (h : s.executes) (hstep : step s = .next t) (hl : t.mode = .locked) :
    t.regs = s.regs := by
  obtain ⟨u, hu, hc, hregs, hmode, -⟩ := step_executes_control h hstep
  rw [exec_of_locks (hc.mode.symm.trans (hmode.symm.trans hl))] at hu
  cases hu
  exact hregs

/-- With no EI in the step before, IME and its pending enable are the instruction's. -/
theorem step_executes_ime (h : s.executes) (hstep : step s = .next t) (hp : s.imePending = false) :
    t.ime = s.fetched.imeAfter s.ime ∧ t.imePending = s.fetched.imePendingAfter false := by
  obtain ⟨u, -, hc, -, -, hime, hpend⟩ := step_executes_control h hstep
  rw [hime, hpend, hp, ← hc.ime, ← hp, ← hc.imePending]
  simp [eiEffect, hp]

/-- After an EI in the step before: IME is set, unless the instruction was DI or locked (R28, R366). -/
theorem step_after_ei (h : s.executes) (hstep : step s = .next t) (hp : s.imePending = true) :
    (s.fetched = .di → t.ime = false ∧ t.imePending = false)
      ∧ (s.fetched ≠ .di → t.mode ≠ .locked → t.ime = true ∧ t.imePending = false)
      ∧ (t.mode = .locked → t.ime = s.ime) := by
  obtain ⟨u, -, hc, -, hmode, hime, hpend⟩ := step_executes_control h hstep
  rw [hime, hpend, hmode]
  obtain ⟨he, -, hup, hul⟩ | ⟨he, hn⟩ := u.eiEffect_cases s.imePending
  · rw [he]
    refine ⟨fun hdi => ?_, fun _ _ => ⟨rfl, rfl⟩, fun hl => absurd hl hul⟩
    rw [hc.imePending, hdi] at hup
    cases hup
  · rw [he]
    refine ⟨fun hdi => ?_, fun hdi hl => ?_, fun hl => ?_⟩
    · rw [hc.ime, hc.imePending, hdi]
      exact ⟨rfl, rfl⟩
    · have hup : u.imePending = false := by simpa [hp, hl] using hn
      rw [hc.imePending, hp] at hup
      rw [hc.ime, hc.imePending, hp, hup, Instr.eq_reti_of_clears hup hdi]
      exact ⟨rfl, rfl⟩
    · rw [hc.ime, Instr.imeAfter_of_locks (hc.mode.symm.trans hl)]

/-- IME goes up in a step that executes only by RETI or by an EI of the step before, and down only by DI. -/
theorem step_executes_ime_changes (h : s.executes) (hstep : step s = .next t) :
    (s.ime = false → t.ime = true → s.fetched = .reti ∨ s.imePending = true)
      ∧ (s.ime = true → t.ime = false → s.fetched = .di) := by
  obtain ⟨u, -, hc, -, -, hime, -⟩ := step_executes_control h hstep
  rw [hime]
  obtain ⟨he, hp, -⟩ | ⟨he, -⟩ := u.eiEffect_cases s.imePending
  · rw [he]
    exact ⟨fun _ _ => .inr hp, fun _ hf => by cases hf⟩
  · rw [he, hc.ime]
    exact ⟨fun hs ht => .inl (Instr.eq_reti_of_sets (hs ▸ ht)), fun hs ht => Instr.eq_di_of_clears (hs ▸ ht)⟩

/-- An active step dispatches or executes, from mode Running. -/
theorem running_dispatches_or_executes (s : State) :
    ((s.ime = true ∧ s.pending ≠ 0#5) ∧ State.dispatches { s with mode := .running })
      ∨ (¬ (s.ime = true ∧ s.pending ≠ 0#5) ∧ State.executes { s with mode := .running }) := by
  by_cases h : s.ime = true ∧ s.pending ≠ 0#5
  · exact .inl ⟨h, rfl, h⟩
  · refine .inr ⟨h, rfl, ?_⟩
    by_cases hi : s.ime = true
    · exact .inr (Classical.not_not.1 fun hp => h ⟨hi, hp⟩)
    · exact .inl (by simpa using hi)

end State

/-- Settles O32: the step of EI leaves the enable pending, and the next step executes and makes it. -/
theorem eiDelay : Obligations.EiDelay := by
  unfold Obligations.EiDelay
  intro s t u hs hime hpend hei hst htu
  obtain ⟨htime, htpend⟩ := State.step_executes_ime hs hst hpend
  have hmode : t.mode = .running := by
    obtain ⟨v, -, hc, -, hv, -⟩ := State.step_executes_control hs hst
    rw [hv, hc.mode, hei]
    rfl
  rw [hei, hime] at htime
  rw [hei] at htpend
  have hexec : t.executes := ⟨hmode, .inl htime⟩
  obtain ⟨hdi, hset, hlock⟩ := State.step_after_ei hexec htu htpend
  exact ⟨htime, htpend, hexec, hdi, hset, fun hl => (hlock hl).trans htime⟩

/-- Settles O33: an idle step keeps IME, a dispatch clears it, and an instruction changes it only as RETI, EI, DI do. -/
theorem imeChanges : Obligations.ImeChanges := by
  unfold Obligations.ImeChanges
  intro s t hstep
  by_cases ha : s.active
  · rw [State.step_of_active ha] at hstep
    obtain ⟨⟨hime, hp⟩, hd⟩ | ⟨-, he⟩ := s.running_dispatches_or_executes
    · exact ⟨fun hs => by simp [hime] at hs, fun _ _ => .inl ⟨hp, ha.imp_right And.left⟩⟩
    · obtain ⟨hup, hdown⟩ := State.step_executes_ime_changes he hstep
      exact ⟨hup, fun hs ht => .inr (hdown hs ht)⟩
  · obtain ⟨hime, -⟩ := State.step_of_not_active ha hstep
    exact ⟨fun hs ht => by simp [← hime, ht] at hs, fun hs ht => by simp [← hime, ht] at hs⟩

/-- Settles O34: a step that is not active keeps the mode, a dispatch ends Running, and the mode after an instruction is
the one its opcode byte decides. -/
theorem modeChanges : Obligations.ModeChanges := by
  unfold Obligations.ModeChanges
  intro s t hstep
  have hidle : ¬ s.active → t.mode = s.mode := fun h => (State.step_of_not_active h hstep).2
  refine ⟨fun h => ?_, fun h => ?_, fun h hp => ?_, fun ha => ?_⟩
  · rw [hidle (by simp [State.active, h]), h]
  · rw [hidle (by simp [State.active, h]), h]
  · rw [hidle (by simp [State.active, h, hp]), h]
  · rw [State.step_of_active ha] at hstep
    obtain ⟨hd, hdisp⟩ | ⟨hnd, he⟩ := s.running_dispatches_or_executes
    · exact ⟨fun _ => (State.step_dispatches_control hdisp hstep).2, fun h => absurd hd h⟩
    · refine ⟨fun h => absurd h hnd, fun _ => ?_⟩
      have hmode := State.step_executes_mode he hstep
      have hregs := State.step_executes_locked_regs he hstep
      refine ⟨?_, hregs, ?_, ?_⟩ <;> rw [hmode]
      · exact opcodeMode_eq_locked
      · exact opcodeMode_eq_stopped
      · exact opcodeMode_eq_halted

end Machine

end Sys2Proof
end

section
/-! PROOFS. What each register of the map reads after a write (O37). -/

namespace Sys2Proof.Machine

/-! ## Bytes as their fields -/

theorem fields_eq_or_7E (v : Byte) :
    BitVec.ofBool (v.getLsbD 7) ++ 0b111111#6 ++ BitVec.ofBool (v.getLsbD 0) = v ||| 0x7E#8 := by
  revert v
  decide +kernel

theorem fields_eq_or_F8 (v : Byte) : 0b11111#5 ++ v.extractLsb' 0 3 = v ||| 0xF8#8 := by
  revert v
  decide +kernel

theorem fields_eq_or_E0 (v : Byte) : 0b111#3 ++ v.extractLsb' 0 5 = v ||| 0xE0#8 := by
  revert v
  decide +kernel

theorem fields_eq_or_80 (v : Byte) : 1#1 ++ v.extractLsb' 0 7 = v ||| 0x80#8 := by
  revert v
  decide +kernel

theorem fields_eq_or_3F (v : Byte) : v.extractLsb' 6 2 ++ 0b111111#6 = v ||| 0x3F#8 := by
  revert v
  decide +kernel

theorem fields_eq_or_BF (v : Byte) : 1#1 ++ BitVec.ofBool (v.getLsbD 6) ++ 0b111111#6 = v ||| 0xBF#8 := by
  revert v
  decide +kernel

theorem fields_eq_or_7F (v : Byte) : BitVec.ofBool (v.getLsbD 7) ++ 0b1111111#7 = v ||| 0x7F#8 := by
  revert v
  decide +kernel

theorem fields_eq_or_9F (v : Byte) : 1#1 ++ v.extractLsb' 5 2 ++ 0b11111#5 = v ||| 0x9F#8 := by
  revert v
  decide +kernel

theorem ofBool_bit7 (v : Byte) : BitVec.ofBool (v.getLsbD 7) = v.extractLsb' 7 1 := by
  revert v
  decide +kernel

/-! ## The fields of P1, STAT and NR52 -/

theorem Joypad.p1_high (j : Joypad) : j.p1.extractLsb' 4 4 = 0b11#2 ++ j.select := by
  unfold p1
  generalize j.select = x
  generalize j.lines = y
  revert x y
  decide +kernel

theorem Ppu.statRead_high (p : Ppu) : p.statRead.extractLsb' 3 5 = 1#1 ++ p.stat := by
  unfold statRead
  generalize p.stat = x
  generalize p.coincides = y
  generalize p.mode.code = z
  revert x y z
  decide +kernel

theorem Ppu.statRead_low (p : Ppu) :
    p.statRead.extractLsb' 0 3 = BitVec.ofBool (p.ly = p.lyc.toNat) ++ p.mode.code := by
  change (1#1 ++ p.stat ++ BitVec.ofBool p.coincides ++ p.mode.code).extractLsb' 0 3
    = BitVec.ofBool p.coincides ++ p.mode.code
  generalize p.stat = x
  generalize p.coincides = y
  generalize p.mode.code = z
  revert x y z
  decide +kernel

/-- The four channel bits of NR52 (R582). -/
def Apu.channelBits (a : Apu) : BitVec 4 :=
  BitVec.ofBool a.ch4.on ++ BitVec.ofBool a.ch3.on ++ BitVec.ofBool a.ch2.on ++ BitVec.ofBool a.ch1.on

theorem Apu.nr52_fields (a : Apu) :
    a.nr52.extractLsb' 4 4 = BitVec.ofBool a.on ++ 0b111#3 ∧ a.nr52.extractLsb' 0 4 = a.channelBits := by
  unfold nr52 channelBits
  generalize a.on = x
  generalize a.ch4.on = y4
  generalize a.ch3.on = y3
  generalize a.ch2.on = y2
  generalize a.ch1.on = y1
  revert x y1 y2 y3 y4
  decide

/-! ## Writes of single devices -/

theorem Apu.writeNr52_on (a : Apu) (v : Byte) : (a.writeNr52 v).on = v.getLsbD 7 := by
  unfold writeNr52
  cases ha : a.on <;> cases hv : v.getLsbD 7 <;> simp [powerOff, powerOn, ha]

theorem Apu.powerOff_channelBits (a : Apu) : a.powerOff.channelBits = 0#4 := by
  simp [channelBits, powerOff, Pulse.powerOff, Wave.powerOff, Noise.powerOff]

/-- Power-off switches every channel off; no other write of NR52 switches one (R582). -/
theorem Apu.writeNr52_channelBits (a : Apu) (v : Byte) :
    (a.writeNr52 v).channelBits = if a.on = true ∧ v.getLsbD 7 = false then 0#4 else a.channelBits := by
  unfold writeNr52
  cases ha : a.on <;> cases hv : v.getLsbD 7 <;> simp
  · rfl
  · exact a.powerOff_channelBits

@[simp] theorem LengthCounter.refill_en (l : LengthCounter) (m : Nat) : (l.refill m).en = l.en := by
  unfold refill
  split <;> rfl

theorem Apu.writeNr14_len_en (a : Apu) (v : Byte) : (a.writeNr14 v).ch1.len.en = v.getLsbD 6 := by
  unfold writeNr14
  dsimp only
  split
  · exact LengthCounter.refill_en _ _
  · rfl

theorem Apu.writeNr24_len_en (a : Apu) (v : Byte) : (a.writeNr24 v).ch2.len.en = v.getLsbD 6 := by
  unfold writeNr24
  dsimp only
  split
  · exact LengthCounter.refill_en _ _
  · rfl

theorem Wave.writeNr4_len_en (c : Wave) (v : Byte) : (c.writeNr4 v).len.en = v.getLsbD 6 := by
  unfold writeNr4
  dsimp only
  split
  · exact LengthCounter.refill_en _ _
  · rfl

theorem Noise.writeNr4_len_en (c : Noise) (v : Byte) : (c.writeNr4 v).len.en = v.getLsbD 6 := by
  unfold writeNr4
  dsimp only
  split
  · exact LengthCounter.refill_en _ _
  · rfl

/-- LCDC reads what was written, whether the LCD is switched or not (R481). -/
theorem Ppu.writeLcdc_lcdc (p : Ppu) (v : Byte) : (p.writeLcdc v).1.lcdc = v := by
  unfold writeLcdc
  dsimp only
  rw [evaluateStat_lcdc]
  split
  · rfl
  · split <;> rfl

/-- The address of a register of the I/O block, from the address column of R40. -/
def IoReg.address : IoReg → Word
  | .p1 => 0xFF00#16
  | .sb => 0xFF01#16
  | .sc => 0xFF02#16
  | .div => 0xFF04#16
  | .tima => 0xFF05#16
  | .tma => 0xFF06#16
  | .tac => 0xFF07#16
  | .iflag => 0xFF0F#16
  | .nr10 => 0xFF10#16
  | .nr11 => 0xFF11#16
  | .nr12 => 0xFF12#16
  | .nr13 => 0xFF13#16
  | .nr14 => 0xFF14#16
  | .nr21 => 0xFF16#16
  | .nr22 => 0xFF17#16
  | .nr23 => 0xFF18#16
  | .nr24 => 0xFF19#16
  | .nr30 => 0xFF1A#16
  | .nr31 => 0xFF1B#16
  | .nr32 => 0xFF1C#16
  | .nr33 => 0xFF1D#16
  | .nr34 => 0xFF1E#16
  | .nr41 => 0xFF20#16
  | .nr42 => 0xFF21#16
  | .nr43 => 0xFF22#16
  | .nr44 => 0xFF23#16
  | .nr50 => 0xFF24#16
  | .nr51 => 0xFF25#16
  | .nr52 => 0xFF26#16
  | .lcdc => 0xFF40#16
  | .stat => 0xFF41#16
  | .scy => 0xFF42#16
  | .scx => 0xFF43#16
  | .ly => 0xFF44#16
  | .lyc => 0xFF45#16
  | .dma => 0xFF46#16
  | .bgp => 0xFF47#16
  | .obp0 => 0xFF48#16
  | .obp1 => 0xFF49#16
  | .wy => 0xFF4A#16
  | .wx => 0xFF4B#16

/-- The place of an address of the I/O block (R72). -/
theorem Cart.place_ioBlock (c : Cart) {a : Word} (h1 : 0xFF00 ≤ a.toNat) (h2 : a.toNat ≤ 0xFF7F) :
    c.place a = Place.ofIo (a.toNat - 0xFF00) := by
  simp [Cart.place, h2, Nat.not_le.2 (show 0x7FFF < a.toNat by omega), Nat.not_le.2 (show 0x9FFF < a.toNat by omega),
    Nat.not_le.2 (show 0xBFFF < a.toNat by omega), Nat.not_le.2 (show 0xDFFF < a.toNat by omega),
    Nat.not_le.2 (show 0xFDFF < a.toNat by omega), Nat.not_le.2 (show 0xFE9F < a.toNat by omega),
    Nat.not_le.2 (show 0xFEFF < a.toNat by omega)]

theorem IoReg.address_range (r : IoReg) : 0xFF00 ≤ r.address.toNat ∧ r.address.toNat ≤ 0xFF7F := by
  cases r <;> decide

theorem IoReg.ofIo_address (r : IoReg) : Place.ofIo (r.address.toNat - 0xFF00) = .io r := by
  cases r <;> decide +kernel

theorem Cart.place_address (c : Cart) (r : IoReg) : c.place r.address = .io r := by
  obtain ⟨h1, h2⟩ := r.address_range
  rw [c.place_ioBlock h1 h2, r.ofIo_address]

/-- The registers outside the APU that hold the whole byte written (R40). -/
def IoReg.holdsByte : IoReg → Bool
  | .sb | .tima | .tma | .lcdc | .scy | .scx | .lyc | .dma | .bgp | .obp0 | .obp1 | .wy | .wx => true
  | _ => false

/-- The APU's registers that hold the whole byte written (R40). -/
def IoReg.holdsSoundByte : IoReg → Bool
  | .nr12 | .nr22 | .nr42 | .nr43 | .nr50 | .nr51 => true
  | _ => false

/-- The APU's write-only registers (R40). -/
def IoReg.writeOnly : IoReg → Bool
  | .nr13 | .nr23 | .nr31 | .nr33 | .nr41 => true
  | _ => false

/-- The registers NR11 and NR21, of which the duty reads back (R551). -/
def IoReg.holdsDuty : IoReg → Bool
  | .nr11 | .nr21 => true
  | _ => false

/-- The registers NRk4, of which the length enable reads back (R554, R563, R572). -/
def IoReg.holdsLengthEnable : IoReg → Bool
  | .nr14 | .nr24 | .nr34 | .nr44 => true
  | _ => false

namespace Bus

variable (b : Bus) (prm : Params) (v : Byte)

/-! ## Registers through the bus -/

/-- A read of a register: the PPU never shuts the I/O block (R84). -/
theorem read_address (r : IoReg) : b.read prm r.address = b.ioRead r := by
  simp [read, peek, Cart.place_address, blocked, readPlace]

theorem write_address (r : IoReg) : b.write prm r.address v = b.ioWrite v r := by
  simp [write, Cart.place_address, blocked, writePlace]

/-- A read of the register that was written. -/
theorem read_write_address (r : IoReg) : (b.write prm r.address v).read prm r.address = (b.ioWrite v r).ioRead r := by
  rw [write_address, read_address]

/-- A list of registers that read back alike, as a list of addresses. -/
theorem read_write_addresses {p : IoReg → Bool} {w : Byte}
    (hp : ∀ r, p r = true → (b.ioWrite v r).ioRead r = w) (rs : List IoReg) (h : rs.all p = true) :
    ∀ a ∈ rs.map IoReg.address, (b.write prm a v).read prm a = w := by
  rw [List.forall_mem_map]
  exact fun r hr => (b.read_write_address prm v r).trans (hp r (List.all_eq_true.1 h r hr))

theorem ioRead_ioWrite_of_holdsByte {r : IoReg} (h : r.holdsByte = true) : (b.ioWrite v r).ioRead r = v := by
  cases r with
  | sb | tima | tma | scy | scx | lyc | bgp | obp0 | obp1 | wy | wx => rfl
  | lcdc => exact b.ppu.writeLcdc_lcdc v
  | dma =>
    obtain ⟨m, hm, -⟩ := b.dmaWrite_eq v
    rw [ioWrite, hm]
    rfl
  | _ => cases h

/-! ## Sound registers while the APU is on (R541) -/

theorem apuWrite_of_on {b : Bus} (h : b.apu.on = true) (a : Apu) : b.apuWrite a = { b with apu := a } := if_pos h

section

variable {b} (hon : b.apu.on = true)
include hon

theorem ioRead_ioWrite_of_holdsSoundByte {r : IoReg} (h : r.holdsSoundByte = true) :
    (b.ioWrite v r).ioRead r = v := by
  cases r with
  | nr12 | nr22 | nr42 | nr43 | nr50 | nr51 => rw [ioWrite, apuWrite_of_on hon]; rfl
  | _ => cases h

theorem ioRead_ioWrite_of_holdsDuty {r : IoReg} (h : r.holdsDuty = true) :
    (b.ioWrite v r).ioRead r = v ||| 0x3F#8 := by
  cases r with
  | nr11 | nr21 => rw [ioWrite, apuWrite_of_on hon, ← fields_eq_or_3F]; rfl
  | _ => cases h

theorem ioRead_ioWrite_of_holdsLengthEnable {r : IoReg} (h : r.holdsLengthEnable = true) :
    (b.ioWrite v r).ioRead r = v ||| 0xBF#8 := by
  cases r with
  | nr14 => simp only [ioWrite, apuWrite_of_on hon, ioRead, Apu.nr4, Apu.writeNr14_len_en, fields_eq_or_BF]
  | nr24 => simp only [ioWrite, apuWrite_of_on hon, ioRead, Apu.nr4, Apu.writeNr24_len_en, fields_eq_or_BF]
  | nr34 => simp only [ioWrite, apuWrite_of_on hon, ioRead, Apu.nr4, Wave.writeNr4_len_en, fields_eq_or_BF]
  | nr44 => simp only [ioWrite, apuWrite_of_on hon, ioRead, Apu.nr4, Noise.writeNr4_len_en, fields_eq_or_BF]
  | _ => cases h

theorem ioRead_ioWrite_nr10 : (b.ioWrite v .nr10).ioRead .nr10 = v ||| 0x80#8 := by
  rw [ioWrite, apuWrite_of_on hon, ← fields_eq_or_80]
  rfl

theorem ioRead_ioWrite_nr30 : (b.ioWrite v .nr30).ioRead .nr30 = v ||| 0x7F#8 := by
  rw [ioWrite, apuWrite_of_on hon, ← fields_eq_or_7F]
  rfl

theorem ioRead_ioWrite_nr32 : (b.ioWrite v .nr32).ioRead .nr32 = v ||| 0x9F#8 := by
  rw [ioWrite, apuWrite_of_on hon, ← fields_eq_or_9F]
  rfl

end

theorem ioRead_of_writeOnly {r : IoReg} (h : r.writeOnly = true) : b.ioRead r = 0xFF#8 := by
  cases r with
  | nr13 | nr23 | nr31 | nr33 | nr41 => rfl
  | _ => cases h

/-! ## Registers with fields -/

/-- A write of DIV clears the counter, whatever is written (R451). -/
theorem ioRead_ioWrite_div : (b.ioWrite v .div).ioRead .div = 0x00#8 := by
  change (0#16).extractLsb' 8 8 = 0x00#8
  decide

/-- STAT keeps its coincidence and mode bits, and takes bits 6:3 (R482). -/
theorem ioRead_ioWrite_stat :
    ((b.ioWrite v .stat).ioRead .stat).extractLsb' 3 5 = (v ||| 0x80#8).extractLsb' 3 5
      ∧ ((b.ioWrite v .stat).ioRead .stat).extractLsb' 0 3 = (b.ioRead .stat).extractLsb' 0 3 := by
  constructor
  · refine (Ppu.statRead_high _).trans ?_
    change 1#1 ++ v.extractLsb' 3 4 = _
    revert v
    decide +kernel
  · exact (Ppu.statRead_low _).trans (Ppu.statRead_low b.ppu).symm

/-- NR52 takes the power bit and shows the channels, which power-off switches off (R582). -/
theorem ioRead_ioWrite_nr52 :
    ((b.ioWrite v .nr52).ioRead .nr52).extractLsb' 4 4 = v.extractLsb' 7 1 ++ 0b111#3
      ∧ ((b.ioWrite v .nr52).ioRead .nr52).extractLsb' 0 4
        = if b.apu.on = true ∧ v.getLsbD 7 = false then 0#4 else (b.ioRead .nr52).extractLsb' 0 4 := by
  obtain ⟨hhigh, hlow⟩ := (b.apu.writeNr52 v).nr52_fields
  refine ⟨hhigh.trans ?_, hlow.trans ?_⟩
  · rw [Apu.writeNr52_on, ofBool_bit7]
  · rw [Apu.writeNr52_channelBits]
    exact congrArg _ b.apu.nr52_fields.2.symm

/-! ## IE and wave RAM -/

theorem read_write_ie : (b.write prm 0xFFFF#16 v).read prm 0xFFFF#16 = v := rfl

/-- Wave RAM holds the byte written, whatever channel 3 does (R564). -/
theorem read_write_wave {a : Word} (h1 : 0xFF30 ≤ a.toNat) (h2 : a.toNat ≤ 0xFF3F) (hm : b.memInv = true) :
    (b.write prm a v).read prm a = v := by
  have hp : b.cart.place a = .wave (a.toNat - 0xFF00 - 0x30) := by
    rw [b.cart.place_ioBlock (by omega) (by omega), Place.ofIo, if_pos (by omega)]
  have hself := (b.write_storedAt prm a v hm).self
  rw [hp] at hself
  exact hself rfl rfl

end Bus

/-- Settles O37: each register's read-back is its `ioRead` after its `ioWrite`, from the fields it keeps. -/
theorem registerReadBack : Obligations.RegisterReadBack := by
  unfold Obligations.RegisterReadBack
  intro b prm v
  have back (r : IoReg) := b.read_write_address prm v r
  obtain ⟨hstat, hstat'⟩ := b.ioRead_ioWrite_stat v
  obtain ⟨hnr52, hnr52'⟩ := b.ioRead_ioWrite_nr52 v
  refine ⟨fun a ha => ?_, (back .sc).trans (fields_eq_or_7E v), (back .div).trans (b.ioRead_ioWrite_div v),
    (back .tac).trans (fields_eq_or_F8 v), (back .iflag).trans (fields_eq_or_E0 v),
    (congrArg _ (back .p1)).trans (Joypad.p1_high _),
    (congrArg _ (back .stat)).trans hstat, ?_, (congrArg _ (b.read_address prm .stat)).trans b.ppu.statRead_low,
    b.write_address prm v .ly, b.read_address prm .ly, (congrArg _ (back .nr52)).trans hnr52, ?_,
    (congrArg _ (b.read_address prm .nr52)).trans b.apu.nr52_fields.2,
    fun a h1 h2 hm => b.read_write_wave prm v h1 h2 hm, fun hon => ⟨?_, ?_, ?_, ?_, ?_, ?_, ?_⟩⟩
  · have hmem : a ∈ [IoReg.sb, .tima, .tma, .lcdc, .scy, .scx, .lyc, .dma, .bgp, .obp0, .obp1, .wy, .wx].map
        IoReg.address ++ [0xFFFF#16] := ha
    obtain hreg | hie := List.mem_append.1 hmem
    · exact b.read_write_addresses prm v (fun _ => b.ioRead_ioWrite_of_holdsByte v) _ rfl a hreg
    · rw [List.mem_singleton.1 hie]
      exact b.read_write_ie prm v
  · exact (congrArg _ (back .stat)).trans (hstat'.trans (congrArg _ (b.read_address prm .stat).symm))
  · refine (congrArg _ (back .nr52)).trans (hnr52'.trans ?_)
    exact congrArg _ (congrArg _ (b.read_address prm .nr52).symm)
  · exact b.read_write_addresses prm v (fun _ => Bus.ioRead_ioWrite_of_holdsSoundByte v hon)
      [.nr12, .nr22, .nr42, .nr43, .nr50, .nr51] rfl
  · exact (back .nr10).trans (Bus.ioRead_ioWrite_nr10 v hon)
  · exact b.read_write_addresses prm v (fun _ => Bus.ioRead_ioWrite_of_holdsDuty v hon) [.nr11, .nr21] rfl
  · exact b.read_write_addresses prm v (fun _ => (b.ioWrite v _).ioRead_of_writeOnly)
      [.nr13, .nr23, .nr31, .nr33, .nr41] rfl
  · exact b.read_write_addresses prm v (fun _ => Bus.ioRead_ioWrite_of_holdsLengthEnable v hon)
      [.nr14, .nr24, .nr34, .nr44] rfl
  · exact (back .nr30).trans (Bus.ioRead_ioWrite_nr30 v hon)
  · exact (back .nr32).trans (Bus.ioRead_ioWrite_nr32 v hon)

end Sys2Proof.Machine
end

section
/-! PROOFS. The state right after reset, and the reset procedure (O56). -/

namespace Sys2Proof.Machine

/-- The reset procedure on the all-zero image of 32 KiB, at the default parameters, gives the reset state (R601). -/
theorem boot_default : boot BootArgs.default ⟨32768, []⟩ = .ok State.reset := rfl

/-- `mode3_len` at reset: what `reset_regs` gives, else R44's formula. -/
theorem BootArgs.resetMode3Len_of_some {args : BootArgs} {n : Nat} (h : args.mode3Len = some n) :
    args.resetMode3Len = n := by
  simp [resetMode3Len, h]

theorem BootArgs.resetMode3Len_of_none {args : BootArgs} (h : args.mode3Len = none) :
    args.resetMode3Len = 172 + { args.resetRegs.bus.ppu with
      lineObjs := args.resetRegs.bus.ppu.selectObjs args.params args.oam }.extraDots args.params args.oam := by
  simp [resetMode3Len, h]

/-- The registers of the I/O block in the order of the register map (R40). -/
def IoReg.all : List IoReg :=
  [.p1, .sb, .sc, .div, .tima, .tma, .tac, .iflag, .nr10, .nr11, .nr12, .nr13, .nr14, .nr21, .nr22, .nr23, .nr24, .nr30,
    .nr31, .nr32, .nr33, .nr34, .nr41, .nr42, .nr43, .nr44, .nr50, .nr51, .nr52, .lcdc, .stat, .scy, .scx, .ly, .lyc,
    .dma, .bgp, .obp0, .obp1, .wy, .wx]

/-- What every register of the map reads at reset, by address. -/
def resetTable : List (Word × Byte) := 
  IoReg.all.map (fun r => (r.address, State.reset.bus.ioRead r)) ++ [(0xFFFF#16, State.reset.bus.ie)]

theorem reset_reads : ∀ p ∈ resetTable, State.reset.memRead p.1 = p.2 := by
  unfold resetTable
  rw [List.forall_mem_append, List.forall_mem_map, List.forall_mem_singleton]
  exact ⟨fun r _ => State.reset.bus.read_address State.reset.params r, by decide +kernel⟩

/-- Settles O56: the tables are evaluated, and the procedure's clauses are read off the one state that `boot` gives. -/
theorem resetValues : Obligations.ResetValues := by
  unfold Obligations.ResetValues
  iterate 12 refine ⟨rfl, ?_⟩
  -- `mode3_len` is R44's formula.
  refine ⟨by decide +kernel, ?_⟩
  iterate 31 refine ⟨rfl, ?_⟩
  -- Each channel's timer is one period.
  iterate 4 refine ⟨by decide, ?_⟩
  iterate 16 refine ⟨rfl, ?_⟩
  refine ⟨boot_default, fun args img t ht => ?_, fun p hp => reset_reads p ?_⟩
  · obtain ⟨h, hload, rfl⟩ := boot_ok ht
    exact ⟨rfl, rfl, rfl, rfl, rfl, rfl, rfl, rfl, rfl, rfl, rfl, rfl, rfl, rfl, rfl,
      fun _ => BootArgs.resetMode3Len_of_some, BootArgs.resetMode3Len_of_none,
      rfl, rfl, rfl, rfl, rfl, rfl, rfl, h, hload, rfl⟩
  · convert hp using 2
    decide +kernel

end Sys2Proof.Machine
end

section
/-! PROOFS. The address map of echo RAM and of the addresses that hold nothing, access blocking, and the OAM copy (O36,
O38, O39). -/

namespace Sys2Proof.Machine

/-! ## Echo RAM and the addresses that hold nothing (R69, R71, R82) -/

theorem Cart.place_wram (c : Cart) {a : Word} (h1 : 0xC000 ≤ a.toNat) (h2 : a.toNat ≤ 0xDFFF) :
    c.place a = .wram (a.toNat - 0xC000) := by
  simp (disch := omega) only [Cart.place, if_neg, if_pos]

theorem Cart.place_echo (c : Cart) {a : Word} (h1 : 0xE000 ≤ a.toNat) (h2 : a.toNat ≤ 0xFDFF) :
    c.place a = .wram (a.toNat - 0xE000) := by
  simp (disch := omega) only [Cart.place, if_neg, if_pos]

theorem Cart.place_gap (c : Cart) {a : Word} (h1 : 0xFEA0 ≤ a.toNat) (h2 : a.toNat ≤ 0xFEFF) :
    c.place a = .absent := by
  simp (disch := omega) only [Cart.place, if_neg, if_pos]

/-- The echo of an address is the byte of WRAM 0x2000 lower (R69). -/
theorem Cart.place_echo_lower (c : Cart) {a : Word} (h1 : 0xE000 ≤ a.toNat) (h2 : a.toNat ≤ 0xFDFF) :
    c.place (a - 0x2000#16) = .wram (a.toNat - 0xE000) := by
  have hn : (a - 0x2000#16).toNat = a.toNat - 0x2000 := by bv_omega
  rw [c.place_wram (by omega) (by omega), hn, Nat.sub_sub]

/-- The offsets of the I/O block at which the map has no register (R82). -/
theorem Place.ofIo_unmapped : ∀ o < 0x80,
    o = 0x03 ∨ (0x08 ≤ o ∧ o ≤ 0x0E) ∨ o = 0x15 ∨ o = 0x1F ∨ (0x27 ≤ o ∧ o ≤ 0x2F) ∨ 0x4C ≤ o →
      Place.ofIo o = .absent := by
  decide +kernel

namespace Bus

variable (b : Bus) (prm : Params) (v : Byte)

/-- Accesses at two addresses of one byte of WRAM are the same access. -/
theorem read_write_wram_congr {a a' : Word} {o : Nat} (h : b.cart.place a = .wram o) (h' : b.cart.place a' = .wram o) :
    b.read prm a = b.read prm a' ∧ b.write prm a v = b.write prm a' v := by
  simp only [read, write, peek, h, h', writePlace, and_self]

/-- A byte of WRAM reads back through every address that reaches it. -/
theorem read_write_wram {a : Word} {o : Nat} (hm : b.memInv = true) (h : b.cart.place a = .wram o) :
    (b.write prm a v).read prm a = v := by
  have hself := (b.write_storedAt prm a v hm).self
  rw [h] at hself
  exact hself rfl rfl

theorem read_write_absent {a : Word} (h : b.cart.place a = .absent) : b.read prm a = 0xFF#8 ∧ b.write prm a v = b := by
  simp [read, write, peek, h, blocked, readPlace, writePlace]

end Bus

/-- Settles O36: an echo address and the one 0x2000 lower have one place, and the other addresses have none. -/
theorem echoAndUnmapped : Obligations.EchoAndUnmapped := by
  unfold Obligations.EchoAndUnmapped
  refine fun b prm a v => ⟨fun h1 h2 hm => ?_, fun h => b.read_write_absent prm v ?_⟩
  · have mirror (c : Bus) := c.read_write_wram_congr prm v (c.cart.place_echo h1 h2) (c.cart.place_echo_lower h1 h2)
    have hback : (b.write prm a v).read prm a = v := b.read_write_wram prm v hm (b.cart.place_echo h1 h2)
    obtain ⟨hread, hwrite⟩ := mirror b
    exact ⟨hread, hwrite, (mirror _).1.symm.trans hback, hwrite ▸ hback⟩
  · by_cases hgap : a.toNat ≤ 0xFEFF
    · exact b.cart.place_gap (by bv_omega) hgap
    · rw [b.cart.place_ioBlock (by omega) (by bv_omega)]
      exact Place.ofIo_unmapped _ (by bv_omega) (by bv_omega)

/-! ## Access blocking (R84) -/

/-- What a place of VRAM or OAM says of the address `n` that reaches it; the other places say nothing. -/
def Place.videoAt (n : Nat) : Place → Prop
  | .vram o => o < 8192 ∧ n = 0x8000 + o
  | .oam o => o < 160 ∧ n = 0xFE00 + o
  | _ => True

theorem Place.ofIo_videoAt (n o : Nat) : (Place.ofIo o).videoAt n := by
  obtain ⟨k, hk, -⟩ | ⟨r, hr⟩ | habsent := Place.ofIo_cases o
  · exact hk ▸ trivial
  · exact hr ▸ trivial
  · exact habsent ▸ trivial

/-- VRAM and OAM are each reached in their own range only (R63). -/
theorem Cart.place_videoAt (c : Cart) (a : Word) : (c.place a).videoAt a.toNat := by
  unfold Cart.place
  dsimp only
  split_ifs
  · exact trivial
  · exact ⟨by omega, by omega⟩
  · cases c.ramTarget a.toNat <;> exact trivial
  · exact trivial
  · exact trivial
  · exact ⟨by omega, by omega⟩
  · exact trivial
  · generalize a.toNat - 0xFF00 = o
    exact Place.ofIo_videoAt _ o
  · exact trivial
  · exact trivial

/-- An LCD that is off shows H-blank (R486). -/
theorem Ppu.mode_of_lcd_off {p : Ppu} (h : p.lcdOn = false) : p.mode = .hblank := if_pos h

namespace Bus

variable (b : Bus) (prm : Params)

/-- Outside VRAM and OAM every access is open. -/
theorem blocked_outside {a : Word} (hv : ¬ (0x8000 ≤ a.toNat ∧ a.toNat ≤ 0x9FFF))
    (ho : ¬ (0xFE00 ≤ a.toNat ∧ a.toNat ≤ 0xFE9F)) : b.blocked prm (b.cart.place a) = false := by
  have hat := b.cart.place_videoAt a
  cases hp : b.cart.place a with
  | vram o | oam o =>
    rw [hp] at hat
    obtain ⟨hlt, heq⟩ := hat
    omega
  | _ => rfl

/-- When an access is shut: VRAM in pixel-transfer, OAM in OAM-scan and pixel-transfer. -/
theorem blocked_iff (a : Word) : b.blocked prm (b.cart.place a) = true ↔ prm.ppuAccessBlocking = true
    ∧ ((b.ppu.mode = .transfer ∧ 0x8000 ≤ a.toNat ∧ a.toNat ≤ 0x9FFF)
      ∨ ((b.ppu.mode = .oamScan ∨ b.ppu.mode = .transfer) ∧ 0xFE00 ≤ a.toNat ∧ a.toNat ≤ 0xFE9F)) := by
  by_cases hv : 0x8000 ≤ a.toNat ∧ a.toNat ≤ 0x9FFF
  · have ho : ¬ (0xFE00 ≤ a.toNat ∧ a.toNat ≤ 0xFE9F) := by omega
    simp [b.cart.place_vram a hv.1 hv.2, blocked, hv, ho]
  · by_cases ho : 0xFE00 ≤ a.toNat ∧ a.toNat ≤ 0xFE9F
    · simp [b.cart.place_oam a ho.1 ho.2, blocked, hv, ho]
    · simp [b.blocked_outside prm hv ho, hv, ho]

end Bus

/-- Settles O38: `Bus.blocked_iff` says which accesses are shut, and a shut or open access does what R84 says. -/
theorem accessBlocking : Obligations.AccessBlocking := by
  unfold Obligations.AccessBlocking
  intro b prm a v
  have isShut (h) := b.read_write_of_blocked v ((b.blocked_iff prm a).2 h)
  have isOpen (h) := b.read_write_of_open v (Bool.eq_false_iff.2 (mt (b.blocked_iff prm a).1 h))
  refine ⟨fun hprm => isOpen ?_, fun hoff => isOpen ?_, fun hprm => ⟨fun hmode h1 h2 => ?_, fun hmode h1 h2 => ?_,
    fun hv ho => isOpen ?_⟩⟩
  · simp [hprm]
  · simp [Ppu.mode_of_lcd_off hoff]
  · exact isShut ⟨hprm, .inl ⟨hmode, h1, h2⟩⟩
  · exact isShut ⟨hprm, .inr ⟨hmode, h1, h2⟩⟩
  · exact fun h => h.2.elim hv ho

/-! ## The OAM copy (R90, R91) -/

/-- Address `v` ++ `i` as a number. -/
theorem ofNat_page (v : Byte) {i : Nat} (hi : i < 256) :
    BitVec.ofNat 16 (256 * v.toNat + i) = Word.ofBytes v (BitVec.ofNat 8 i) := by
  apply BitVec.eq_of_toNat_eq
  rw [Regs.toNat_ofBytes, BitVec.toNat_ofNat, BitVec.toNat_ofNat]
  omega

/-- In the page that holds OAM, the byte at `i` is OAM's byte `i`; no other page reaches OAM. -/
theorem Cart.offset_of_place_oam (c : Cart) {v : Byte} {i o : Nat} (hi : i < 160)
    (h : c.place (Word.ofBytes v (BitVec.ofNat 8 i)) = .oam o) : o = i := by
  have hat := c.place_videoAt (Word.ofBytes v (BitVec.ofNat 8 i))
  rw [h, Regs.toNat_ofBytes, BitVec.toNat_ofNat] at hat
  obtain ⟨hlt, heq⟩ := hat
  omega

namespace Bus

variable (b : Bus)

/-- A read after a change of OAM that leaves the byte it reaches, if it reaches one. -/
theorem peek_setOam {m : Memory} {a : Word} (h : ∀ o, b.cart.place a = .oam o → m.read o = b.oam.read o) :
    Bus.peek { b with oam := m } a = b.peek a := by
  unfold peek
  dsimp only
  cases hp : b.cart.place a with
  | oam o => exact h o hp
  | _ => rfl

/-- OAM after the first `n` bytes of the copy: they are what the source read at the start, the others stay. The copy
never reads a byte it has changed, since OAM's own page copies each byte to itself. -/
theorem dmaCopy_oam_read (v : Byte) {n : Nat} (hn : n ≤ 160) (hm : b.memInv = true) (i : Nat) :
    (dmaCopy v n b).oam.read i =
      if i < n then b.peek (Word.ofBytes v (BitVec.ofNat 8 i)) else b.oam.read i := by
  induction n generalizing i with
  | zero => rfl
  | succ n ih =>
    have ih := ih (by omega)
    have hwf : (dmaCopy v n b).oam.wf = true := by
      obtain ⟨-, -, -, -, hwf, -⟩ := (memInv_iff _).1 (b.dmaCopy_memInv v n (by omega) hm)
      exact hwf
    have hsource : (dmaCopy v n b).peek (Word.ofBytes v (BitVec.ofNat 8 n))
        = b.peek (Word.ofBytes v (BitVec.ofNat 8 n)) := by
      obtain ⟨m, hcopy⟩ := b.dmaCopy_eq v n
      rw [hcopy] at ih ⊢
      refine b.peek_setOam fun o ho => ?_
      rw [Cart.offset_of_place_oam b.cart (by omega) ho]
      exact (ih n).trans (if_neg (Nat.lt_irrefl n))
    rw [dmaCopy]
    dsimp only
    rw [Memory.read_write hwf, hsource, ih i]
    by_cases hi : i = n
    · rw [if_pos hi, if_pos (by omega), hi]
    · simp only [if_neg hi, show i < n + 1 ↔ i < n by omega]

end Bus

/-- Settles O39: the copy changes OAM alone, byte by byte, and keeps the memories' invariant. -/
theorem oamCopy : Obligations.OamCopy := by
  unfold Obligations.OamCopy
  intro b prm v hm
  obtain ⟨m, hwrite, hcopy⟩ := b.dmaWrite_eq v
  obtain ⟨-, -, -, -, hwf, -, -, -, -, hbelow, -⟩ :=
    (Bus.memInv_iff _).1 (Bus.dmaCopy_memInv { b with ppu.dma := v } v 160 le_rfl hm)
  have hread := Bus.dmaCopy_oam_read { b with ppu.dma := v } v le_rfl hm
  rw [hcopy] at hwf hbelow hread
  refine ⟨m, (b.write_address prm v .dma).trans hwrite, fun i hi => ?_, hwf, hbelow⟩
  rw [ofNat_page v (by omega)]
  exact (hread i).trans (if_pos hi)

end Sys2Proof.Machine
end


section
/-! PROOFS. The cartridge: what no step changes of it, the registers and windows of each controller, and one second of
the clock (O40 to O44). -/

namespace Sys2Proof.Machine

/-! ## What no step changes (R16, R122) -/

/-- What the load of an image fixes: the image itself, and what its header gave (R110, R111). -/
def Bus.loaded (b : Bus) : Memory × Variant × Nat × Nat × Nat × Bool :=
  (b.rom, b.cart.variant, b.cart.romBanks, b.cart.ramBanks, b.cart.ramSize, b.cart.hasRtc)

/-- A bus write reaches controller registers, never the image or the header (R122). -/
theorem Bus.write_loaded (b : Bus) (prm : Params) (a : Word) (v : Byte) : (b.write prm a v).loaded = b.loaded := by
  unfold write
  split
  · rfl
  · cases b.cart.place a with
    | rom o =>
      obtain ⟨hvariant, hrom, hram, hsize, hrtc, -⟩ := b.cart.writeRom_header a.toNat v
      simp only [loaded, writePlace, hvariant, hrom, hram, hsize, hrtc]
    | io r =>
      obtain ⟨hrom, -, -, -, -, -, hcart, -⟩ := b.ioWrite_memories v r
      simp only [loaded, writePlace, hrom, hcart]
    | _ => rfl

theorem Bus.advance_loaded (b : Bus) (prm : Params) (t : Nat) : (b.advance prm t).loaded = b.loaded := by
  simp only [loaded, advance, Cart.rtcAdvance]
  split <;> rfl

/-- Settles O40, by the induction over the step's bus writes. -/
theorem romImmutable : Obligations.RomImmutable := by
  unfold Obligations.RomImmutable
  intro s t hstep
  have hkept : t.params = s.params ∧ t.bus.loaded = s.bus.loaded :=
    State.step_keeps_bus (fun p b => p = s.params ∧ b.loaded = s.bus.loaded)
      (fun p b a v ⟨hp, hb⟩ => ⟨hp, (b.write_loaded p a v).trans hb⟩) (fun _ _ _ h => h) (fun _ _ h => h)
      (fun p b n ⟨hp, hb⟩ => ⟨hp, (b.advance_loaded p n).trans hb⟩) hstep ⟨rfl, rfl⟩
  obtain ⟨hparams, hloaded⟩ := hkept
  simp only [Bus.loaded, Prod.mk.injEq] at hloaded
  obtain ⟨hrom, hheader⟩ := hloaded
  exact ⟨hrom, hparams, hheader⟩

/-! ## Fields (R125, R130, R132, R134) -/

/-- The ROM bank registers store a 1 in place of a 0. -/
theorem nonzero_field (v : Byte) (n : Nat) :
    (if v.extractLsb' 0 n = 0#n then 1#n else v.extractLsb' 0 n) = BitVec.ofNat n (max 1 (v.toNat % 2 ^ n)) := by
  have hfield : v.extractLsb' 0 n = BitVec.ofNat n (v.toNat % 2 ^ n) := by
    apply BitVec.eq_of_toNat_eq
    simp
  have hzero : v.extractLsb' 0 n = 0#n ↔ v.toNat % 2 ^ n = 0 := by
    simp [← BitVec.toNat_inj]
  by_cases h : v.toNat % 2 ^ n = 0
  · rw [if_pos (hzero.2 h), h]; rfl
  · rw [if_neg (mt hzero.1 h), hfield, Nat.max_eq_right (by omega)]

/-- The byte a nibble cell reads as (R132). -/
theorem fields_eq_or_F0 (v : Byte) : 0b1111#4 ++ v.extractLsb' 0 4 = v ||| 0xF0#8 := by
  revert v
  decide +kernel

/-- Bit 8 of an address, as a number. -/
theorem bit8_eq_false_iff (w : Word) : w.getLsbD 8 = false ↔ w.toNat / 256 % 2 = 0 := by
  rw [BitVec.getLsbD, Nat.testBit_eq_decide_div_mod_eq]
  simp

namespace Cart

variable {c : Cart} {a : Nat} (v : Byte)

/-! ## Controller registers -/

theorem writeMbc1_enable (h : a ≤ 0x1FFF) : c.writeMbc1 a v = { c with ramEnable := v.toNat % 16 = 0xA } := if_pos h

theorem writeMbc1_bank1 (h1 : 0x2000 ≤ a) (h2 : a ≤ 0x3FFF) :
    c.writeMbc1 a v = { c with bank1 := BitVec.ofNat 5 (max 1 (v.toNat % 32)) } := by
  rw [writeMbc1, if_neg (by omega), if_pos h2, nonzero_field v 5]
  rfl

theorem writeMbc1_bank2 (h1 : 0x4000 ≤ a) (h2 : a ≤ 0x5FFF) :
    c.writeMbc1 a v = { c with bank2 := BitVec.ofNat 2 v.toNat } := by
  rw [writeMbc1, if_neg (by omega), if_neg (by omega), if_pos h2]
  rfl

theorem writeMbc1_mode (h : 0x6000 ≤ a) : c.writeMbc1 a v = { c with mbc1Mode := v.toNat % 2 = 1 } := by
  rw [writeMbc1, if_neg (by omega), if_neg (by omega), if_neg (by omega), BitVec.getLsbD, Nat.testBit_zero]

theorem writeMbc2_enable (h : a ≤ 0x3FFF) (h8 : a / 256 % 2 = 0) :
    c.writeMbc2 a v = { c with ramEnable := v.toNat % 16 = 0xA } := by
  rw [writeMbc2, if_neg (by omega), if_pos h8]
  rfl

theorem writeMbc2_romBank (h : a ≤ 0x3FFF) (h8 : a / 256 % 2 ≠ 0) :
    c.writeMbc2 a v = { c with mbc2RomBank := BitVec.ofNat 4 (max 1 (v.toNat % 16)) } := by
  rw [writeMbc2, if_neg (by omega), if_neg h8, nonzero_field v 4]
  rfl

theorem writeMbc3_enable (h : a ≤ 0x1FFF) : c.writeMbc3 a v = { c with ramEnable := v.toNat % 16 = 0xA } := if_pos h

theorem writeMbc3_romBank (h1 : 0x2000 ≤ a) (h2 : a ≤ 0x3FFF) :
    c.writeMbc3 a v = { c with mbc3RomBank := BitVec.ofNat 7 (max 1 (v.toNat % 128)) } := by
  rw [writeMbc3, if_neg (by omega), if_pos h2, nonzero_field v 7]
  rfl

theorem writeMbc3_select (h1 : 0x4000 ≤ a) (h2 : a ≤ 0x5FFF) :
    c.writeMbc3 a v = { c with ramRtcSel := BitVec.ofNat 4 v.toNat } := by
  rw [writeMbc3, if_neg (by omega), if_neg (by omega), if_pos h2]
  rfl

theorem writeMbc3_latch (h : 0x6000 ≤ a) : c.writeMbc3 a v = c.writeLatch v := by
  rw [writeMbc3, if_neg (by omega), if_neg (by omega), if_neg (by omega)]

/-! ## The controller of a variant -/

theorem writeRom_none (hv : c.variant = .none) : c.writeRom a v = c := by simp only [writeRom, hv]

theorem writeRom_mbc1 (hv : c.variant = .mbc1) : c.writeRom a v = c.writeMbc1 a v := by simp only [writeRom, hv]

theorem writeRom_mbc2 (hv : c.variant = .mbc2) : c.writeRom a v = c.writeMbc2 a v := by simp only [writeRom, hv]

theorem writeRom_mbc3 (hv : c.variant = .mbc3) : c.writeRom a v = c.writeMbc3 a v := by simp only [writeRom, hv]

theorem romBankOf_none (hv : c.variant = .none) : c.romBankOf a = a / 16384 := by simp only [romBankOf, hv]

theorem romBankOf_mbc1 (hv : c.variant = .mbc1) : c.romBankOf a =
    if 0x4000 ≤ a then c.bank2.toNat * 32 + c.bank1.toNat
    else if c.mbc1Mode = true then c.bank2.toNat * 32 else 0 := by
  simp only [romBankOf, hv]

theorem romBankOf_mbc2 (hv : c.variant = .mbc2) :
    c.romBankOf a = if 0x4000 ≤ a then c.mbc2RomBank.toNat else 0 := by simp only [romBankOf, hv]

theorem romBankOf_mbc3 (hv : c.variant = .mbc3) :
    c.romBankOf a = if 0x4000 ≤ a then c.mbc3RomBank.toNat else 0 := by simp only [romBankOf, hv]

theorem ramTarget_none (hv : c.variant = .none) :
    c.ramTarget a = if 0 < c.ramBanks then .ram ((a - 0xA000) % c.ramSize) else .absent := by
  simp only [ramTarget, hv]

theorem ramTarget_mbc1 (hv : c.variant = .mbc1) : c.ramTarget a =
    if c.ramBanks = 0 ∨ c.ramEnable = false then .absent
    else .ram (c.ramOffset (if c.mbc1Mode = true then c.bank2.toNat else 0) a) := by
  simp only [ramTarget, hv]

theorem ramTarget_mbc2 (hv : c.variant = .mbc2) :
    c.ramTarget a = if c.ramEnable = true then .nibble (a % 512) else .absent := by
  simp only [ramTarget, hv]

theorem ramTarget_mbc3 (hv : c.variant = .mbc3) : c.ramTarget a =
    if c.ramEnable = false then .absent
    else if c.ramRtcSel.toNat ≤ 3 ∧ 0 < c.ramBanks then .ram (c.ramOffset c.ramRtcSel.toNat a)
    else if 0x8 ≤ c.ramRtcSel.toNat ∧ c.ramRtcSel.toNat ≤ 0xC ∧ c.hasRtc = true then .rtc c.ramRtcSel.toNat
    else .absent := by
  simp only [ramTarget, hv]

theorem rtcAdvance_rtcLatched (p : Params) (t : Nat) : (c.rtcAdvance p t).rtcLatched = c.rtcLatched := by
  unfold rtcAdvance
  split <;> rfl

end Cart

/-! ## The windows of the cartridge on the bus (R65, R67, R113) -/

namespace Bus

variable (b : Bus) (prm : Params) {a : Word} (v : Byte)

/-- A write below 0x8000 goes to the controller (R122). -/
theorem write_rom (h : a.toNat ≤ 0x7FFF) :
    b.write prm a v = { b with cart := b.cart.writeRom a.toNat v } := by
  rw [write, b.cart.place_rom a h]
  rfl

theorem read_rom (h : a.toNat ≤ 0x7FFF) :
    b.read prm a = b.rom.read (b.cart.romBankOf a.toNat % b.cart.romBanks * 16384 + a.toNat % 16384) := by
  rw [read, peek, b.cart.place_rom a h]
  rfl

theorem read_rom_lower (h : a.toNat ≤ 0x3FFF) :
    b.read prm a = b.rom.read (b.cart.romBankOf a.toNat % b.cart.romBanks * 16384 + a.toNat) := by
  rw [b.read_rom prm (by omega), Nat.mod_eq_of_lt (by omega : a.toNat < 16384)]

theorem read_rom_upper (h1 : 0x4000 ≤ a.toNat) (h2 : a.toNat ≤ 0x7FFF) :
    b.read prm a = b.rom.read (b.cart.romBankOf a.toNat % b.cart.romBanks * 16384 + (a.toNat - 0x4000)) := by
  rw [b.read_rom prm h2, show a.toNat % 16384 = a.toNat - 0x4000 by omega]

/-- A window on nothing reads 0xFF and ignores writes. -/
theorem window_absent (h1 : 0xA000 ≤ a.toNat) (h2 : a.toNat ≤ 0xBFFF) (ht : b.cart.ramTarget a.toNat = .absent) :
    b.read prm a = 0xFF#8 ∧ b.write prm a v = b :=
  b.read_write_absent prm v (by rw [b.cart.place_window a h1 h2, ht]; rfl)

/-- A window on a byte of cartridge RAM. -/
theorem window_ram {o : Nat} (h1 : 0xA000 ≤ a.toNat) (h2 : a.toNat ≤ 0xBFFF)
    (ht : b.cart.ramTarget a.toNat = .ram o) :
    b.read prm a = b.cartRam.read o ∧ b.write prm a v = { b with cartRam := b.cartRam.write o v } := by
  have hplace : b.cart.place a = .cartRam o := by rw [b.cart.place_window a h1 h2, ht]; rfl
  rw [read, write, peek, hplace]
  exact ⟨rfl, rfl⟩

/-- A read through a window on nibble cells, after a write through it (R132). -/
theorem window_nibble {a' : Word} {o o' : Nat} (hm : b.memInv = true) (h : b.cart.place a = .cartNibble o)
    (h' : b.cart.place a' = .cartNibble o') :
    (b.write prm a v).read prm a' = if o' = o then v ||| 0xF0#8 else b.read prm a' := by
  have hwrite : b.write prm a v = b.writePlace a v (.cartNibble o) := by rw [write, h]; rfl
  have hread (c : Bus) (hc : c.cart = b.cart) : c.read prm a' = c.readPlace (.cartNibble o') := by
    rw [read, peek, hc, h']; rfl
  rw [hwrite, hread (b.writePlace a v (.cartNibble o)) rfl, hread b rfl,
    b.readPlace_writePlace a v rfl hm (by simp) (by simp), Place.view, fields_eq_or_F0]
  simp only [Place.cartNibble.injEq]

/-- A window on a clock register reads the latched copy, which neither time nor a write changes (R137, R138). -/
theorem window_rtc {i : Nat} (t : Nat) (h1 : 0xA000 ≤ a.toNat) (h2 : a.toNat ≤ 0xBFFF)
    (ht : b.cart.ramTarget a.toNat = .rtc i) :
    b.read prm a = b.cart.rtcLatched.readIndex i ∧ (b.advance prm t).read prm a = b.read prm a
      ∧ (b.write prm a v).read prm a = b.read prm a := by
  have hplace : b.cart.place a = .rtc i := by rw [b.cart.place_window a h1 h2, ht]; rfl
  have hread (c : Bus) (hc : c.cart.place a = .rtc i) : c.read prm a = c.cart.rtcLatched.readIndex i := by
    rw [read, peek, hc]; rfl
  have hlater : (b.advance prm t).cart.place a = .rtc i := (b.cart.rtcAdvance_place prm t a).trans hplace
  refine ⟨hread b hplace, ?_, ?_⟩
  · rw [hread b hplace, hread _ hlater]
    exact congrArg (Rtc.readIndex · i) (Cart.rtcAdvance_rtcLatched prm t)
  · rw [write, hplace]
    exact b.read_writePlace_rtc prm a a v i
end Bus

/-! ## The controllers (R124 to R138) -/

/-- No controller: the image in order (R124). -/
theorem Bus.read_rom_none (b : Bus) (prm : Params) {a : Word} (hv : b.cart.variant = .none) (h : a.toNat ≤ 0x7FFF) :
    b.read prm a = b.rom.read (a.toNat % (16384 * b.cart.romBanks)) := by
  rw [b.read_rom prm h, Cart.romBankOf_none hv, Nat.mod_mul, Nat.mul_comm, Nat.add_comm]

/-- Settles O41: each clause is the law of its register range or window, under the variant's controller. -/
theorem noControllerAndMbc1 : Obligations.NoControllerAndMbc1 := by
  unfold Obligations.NoControllerAndMbc1
  refine ⟨fun b prm a v hv => ⟨fun h => ⟨b.read_rom_none prm hv h, ?_⟩, fun h1 h2 => ⟨fun hr => ?_, fun hr => ?_⟩⟩,
    fun b prm w a v hv => ?_⟩
  · rw [b.write_rom prm v h, Cart.writeRom_none v hv]
  · exact b.window_absent prm v h1 h2 ((Cart.ramTarget_none hv).trans (if_neg (by omega)))
  · exact b.window_ram prm v h1 h2 ((Cart.ramTarget_none hv).trans (if_pos hr))
  have hwrite (h : w.toNat ≤ 0x7FFF) : (b.write prm w v).cart = b.cart.writeMbc1 w.toNat v := by
    rw [b.write_rom prm v h, Cart.writeRom_mbc1 v hv]
  have hbank := Cart.romBankOf_mbc1 (a := a.toNat) hv
  have htarget := Cart.ramTarget_mbc1 (a := a.toNat) hv
  refine ⟨fun h => ?_, fun h1 h2 => ?_, fun h1 h2 => ?_, fun h1 h2 => ?_, fun h => ?_, fun h1 h2 => ?_,
    fun h1 h2 => ⟨fun hshut => ?_, fun hram hen => ?_⟩⟩
  · exact (hwrite (by omega)).trans (Cart.writeMbc1_enable v h)
  · exact (hwrite (by omega)).trans (Cart.writeMbc1_bank1 v h1 h2)
  · exact (hwrite (by omega)).trans (Cart.writeMbc1_bank2 v h1 h2)
  · exact (hwrite h2).trans (Cart.writeMbc1_mode v h1)
  · rw [b.read_rom_lower prm h, hbank, if_neg (by omega)]
  · rw [b.read_rom_upper prm h1 h2, hbank, if_pos h1]
  · exact b.window_absent prm v h1 h2 (htarget.trans (if_pos hshut))
  · exact b.window_ram prm v h1 h2 (htarget.trans (if_neg (by simp [hram, hen])))

/-- Settles O42: as O41, with the nibble cells' read after a write. -/
theorem mbc2 : Obligations.Mbc2 := by
  unfold Obligations.Mbc2
  intro b prm w a v hv hm
  have hwrite (h : w.toNat ≤ 0x7FFF) : b.write prm w v = { b with cart := b.cart.writeMbc2 w.toNat v } := by
    rw [b.write_rom prm v h, Cart.writeRom_mbc2 v hv]
  have hbank := Cart.romBankOf_mbc2 (a := a.toNat) hv
  refine ⟨fun h h8 => ?_, fun h h8 => ?_, fun h1 h2 => ?_, fun h => ?_, fun h1 h2 => ?_,
    fun h1 h2 => ⟨fun hshut => ?_, fun hen a' h1' h2' => ?_⟩⟩
  · rw [hwrite (by omega), Cart.writeMbc2_enable v h ((bit8_eq_false_iff w).1 h8)]
  · rw [hwrite (by omega), Cart.writeMbc2_romBank v h (mt (bit8_eq_false_iff w).2 (by simp [h8]))]
  · rw [hwrite h2, Cart.writeMbc2, if_pos h1]
  · rw [b.read_rom_lower prm h, hbank, if_neg (by omega)]
  · rw [b.read_rom_upper prm h1 h2, hbank, if_pos h1]
  · exact b.window_absent prm v h1 h2 ((Cart.ramTarget_mbc2 hv).trans (if_neg (by simp [hshut])))
  · have hcell {x : Word} (h1 : 0xA000 ≤ x.toNat) (h2 : x.toNat ≤ 0xBFFF) :
        b.cart.place x = .cartNibble (x.toNat % 512) := by
      rw [b.cart.place_window x h1 h2, Cart.ramTarget_mbc2 hv, if_pos hen]
      rfl
    exact b.window_nibble prm v hm (hcell h1 h2) (hcell h1' h2')

/-- Settles O43: as O41, with the latch sequence and the window on the clock. -/
theorem mbc3 : Obligations.Mbc3 := by
  unfold Obligations.Mbc3
  intro b prm w a v t hv
  have hwrite (c : Bus) (x : Byte) (hc : c.cart.variant = .mbc3) (h : w.toNat ≤ 0x7FFF) :
      (c.write prm w x).cart = c.cart.writeMbc3 w.toNat x := by
    rw [c.write_rom prm x h, Cart.writeRom_mbc3 x hc]
  have hbank := Cart.romBankOf_mbc3 (a := a.toNat) hv
  have htarget := Cart.ramTarget_mbc3 (a := a.toNat) hv
  refine ⟨fun h => ?_, fun h1 h2 => ?_, fun h1 h2 => ?_, fun h1 h2 => ⟨?_, fun hne => ?_⟩, fun h => ?_,
    fun h1 h2 => ?_, fun h1 h2 => ⟨fun hshut => ?_, fun hen hsel hram => ?_, fun hen hsel8 hselC hrtc => ?_,
      fun hen hnoram hnortc => ?_⟩⟩
  · exact (hwrite b v hv (by omega)).trans (Cart.writeMbc3_enable v h)
  · exact (hwrite b v hv (by omega)).trans (Cart.writeMbc3_romBank v h1 h2)
  · exact (hwrite b v hv (by omega)).trans (Cart.writeMbc3_select v h1 h2)
  · have hfirst : (b.write prm w 0x00#8).cart = b.cart.writeLatch 0x00#8 :=
      (hwrite b 0x00#8 hv h2).trans (Cart.writeMbc3_latch _ h1)
    rw [hwrite _ 0x01#8 (hfirst ▸ hv) h2, hfirst, Cart.writeMbc3_latch _ h1]
    rfl
  · rw [hwrite b v hv h2, Cart.writeMbc3_latch v h1, Cart.writeLatch, if_neg (fun h => hne h.2)]
  · rw [b.read_rom_lower prm h, hbank, if_neg (by omega)]
  · rw [b.read_rom_upper prm h1 h2, hbank, if_pos h1]
  · exact b.window_absent prm v h1 h2 (htarget.trans (if_pos hshut))
  · exact b.window_ram prm v h1 h2 (by rw [htarget, if_neg (by simp [hen]), if_pos ⟨hsel, hram⟩]; rfl)
  · exact b.window_rtc prm v t h1 h2
      (by rw [htarget, if_neg (by simp [hen]), if_neg (by omega), if_pos ⟨hsel8, hselC, hrtc⟩])
  · exact b.window_absent prm v h1 h2 (by rw [htarget, if_neg (by simp [hen]), if_neg hnoram, if_neg hnortc])

/-! ## One second of the clock (R140, R141) -/

namespace Rtc

variable (r : Rtc)

/-- The time of day is no part of the day counter. -/
@[simp] theorem day_setTime (s m : BitVec 6) (h : BitVec 5) : Rtc.day { r with s := s, m := m, h := h } = r.day := rfl

/-- The day counter goes up by one modulo 512. -/
@[simp] theorem tickDay_day : r.tickDay.day = r.day + 1#9 := by
  simp only [day, tickDay]
  generalize BitVec.ofBool r.day8 ++ r.dl + 1#9 = d
  revert d
  decide +kernel

@[simp] theorem tickDay_s : r.tickDay.s = r.s := rfl
@[simp] theorem tickDay_m : r.tickDay.m = r.m := rfl
@[simp] theorem tickDay_h : r.tickDay.h = r.h := rfl
@[simp] theorem tickDay_halt : r.tickDay.halt = r.halt := rfl
@[simp] theorem tickDay_carry : r.tickDay.carry = (r.carry || decide (r.day + 1#9 = 0#9)) := rfl

/-- A whole day, hour or minute is over when its register reaches its limit; the lower registers then start at 0. -/
theorem tickSecond_cases :
    (r.s + 1#6 ≠ 60#6 ∧ r.tickSecond = { r with s := r.s + 1#6 })
    ∨ (r.s + 1#6 = 60#6 ∧ r.m + 1#6 ≠ 60#6 ∧ r.tickSecond = { r with s := 0#6, m := r.m + 1#6 })
    ∨ (r.s + 1#6 = 60#6 ∧ r.m + 1#6 = 60#6 ∧ r.h + 1#5 ≠ 24#5
      ∧ r.tickSecond = { r with s := 0#6, m := 0#6, h := r.h + 1#5 })
    ∨ (r.s + 1#6 = 60#6 ∧ r.m + 1#6 = 60#6 ∧ r.h + 1#5 = 24#5
      ∧ r.tickSecond = { r with s := 0#6, m := 0#6, h := 0#5 }.tickDay) := by
  unfold tickSecond
  by_cases hs : r.s + 1#6 = 60#6
  · by_cases hm : r.m + 1#6 = 60#6
    · by_cases hh : r.h + 1#5 = 24#5
      · simp [hs, hm, hh]
      · simp [hs, hm, hh]
    · simp [hs, hm]
  · simp [hs]

end Rtc

/-- Settles O44, by which registers the second carries into. -/
theorem clockSecond : Obligations.ClockSecond := by
  unfold Obligations.ClockSecond
  intro r hs hm hh
  have hday := r.day.isLt
  have hcarry {n : Nat} (hn : n ≠ 44236800) : r.carry = (r.carry || decide (n = 44236800)) := by simp [hn]
  dsimp only
  obtain ⟨hs', hr⟩ | ⟨hs', hm', hr⟩ | ⟨hs', hm', hh', hr⟩ | ⟨hs', hm', hh', hr⟩ := r.tickSecond_cases <;>
    simp only [hr, Rtc.day_setTime, Rtc.tickDay_day, Rtc.tickDay_s, Rtc.tickDay_m, Rtc.tickDay_h, Rtc.tickDay_carry,
      Rtc.tickDay_halt, true_and]
  · exact ⟨by bv_omega, hcarry (by bv_omega), by bv_omega, hm, hh⟩
  · exact ⟨by bv_omega, hcarry (by bv_omega), by decide, by bv_omega, hh⟩
  · exact ⟨by bv_omega, hcarry (by bv_omega), by decide, by decide, by bv_omega⟩
  · exact ⟨by bv_omega, congrArg (r.carry || ·) (decide_eq_decide.2 (by bv_omega)), by decide, by decide, by decide⟩

end Sys2Proof.Machine
end

section
/-! PROOFS. The encoder and the decoder agree (O57, O58). -/

namespace Sys2Proof

/-! ## Fields and operand codes -/

section
variable {x y z : Nat}

/-- The number of an opcode byte is its three fields, most significant first (R152). -/
theorem toNat_opcode (hx : x < 4) (hy : y < 8) (hz : z < 8) : (opcode x y z).toNat = 64 * x + 8 * y + z := by
  rw [opcode, BitVec.toNat_ofNat]
  omega

@[simp] theorem fieldX_opcode (hx : x < 4) (hy : y < 8) (hz : z < 8) : (opcode x y z).fieldX = x := by
  rw [Byte.fieldX, toNat_opcode hx hy hz]
  omega

@[simp] theorem fieldY_opcode (hx : x < 4) (hy : y < 8) (hz : z < 8) : (opcode x y z).fieldY = y := by
  rw [Byte.fieldY, toNat_opcode hx hy hz]
  omega

@[simp] theorem fieldZ_opcode (hx : x < 4) (hy : y < 8) (hz : z < 8) : (opcode x y z).fieldZ = z := by
  rw [Byte.fieldZ, toNat_opcode hx hy hz]
  omega

end

@[simp] theorem Reg8.code_lt (r : Reg8) : r.code < 8 := by cases r <;> decide

@[simp] theorem Reg8.ofCode_code (r : Reg8) : Reg8.ofCode r.code = some r := by cases r <;> rfl

/-- Code 6 is the byte at HL and no register (R153). -/
@[simp] theorem Reg8.ofCode_six : Reg8.ofCode 6 = none := rfl

/-! ## The bytes of one instruction -/

/-- What the decoder makes of the bytes of one instruction; a byte the list does not hold reads as 0. -/
def decodeWhole (bs : List Byte) : Instr := decodeBytes (bs.getD 0 0#8) (bs.getD 1 0#8) (bs.getD 2 0#8)

/-- A list of as many bytes as its first says is decoded by itself, whatever follows it (R150). -/
theorem decode_append {bs : List Byte} (h : bs.head?.map opLength = some bs.length) (rest : List Byte) :
    decode (bs ++ rest) = .ok (decodeWhole bs, rest) := by
  match bs with
  | [] => cases h
  | [b0] =>
    have h : opLength b0 = 1 := Option.some.inj h
    simp [decode, h, decodeWhole]
  | [b0, b1] =>
    have h : opLength b0 = 2 := Option.some.inj h
    simp [decode, h, decodeWhole]
  | [b0, b1, b2] =>
    have h : opLength b0 = 3 := Option.some.inj h
    simp [decode, h, decodeWhole]
  | b0 :: _ :: _ :: _ :: more =>
    have h : opLength b0 = more.length + 4 := Option.some.inj h
    obtain h' | h' | h' := opLength_cases b0 <;> omega

/-! Bytes whose first is in the quarter x = 0, 1 or 2 (R160). -/

section
variable {y z : Nat} (hy : y < 8) (hz : z < 8)
include hy hz

theorem decodeWhole_x0 (bs : List Byte) :
    decodeWhole (opcode 0 y z :: bs) = decodeX0 y z (bs.getD 0 0#8) (Word.ofBytes (bs.getD 1 0#8) (bs.getD 0 0#8)) := by
  simp [decodeWhole, decodeBytes, hy, hz]

theorem decodeWhole_x1 (bs : List Byte) : decodeWhole (opcode 1 y z :: bs) = decodeX1 y z := by
  simp [decodeWhole, decodeBytes, hy, hz]

theorem decodeWhole_x2 (bs : List Byte) : decodeWhole (opcode 2 y z :: bs) = decodeX2 y z := by
  simp [decodeWhole, decodeBytes, hy, hz]

end

/-- The byte after the opcode is the operand of formats F2n and F2e (R151). -/
theorem decodeWhole_formatF2 {op : Byte} {f : Byte → Instr} (h : ∀ n, decodeBytes op n 0#8 = f n) (n : Byte) :
    decodeWhole [op, n] = f n :=
  h n

/-- After 0xCB the second byte alone is the instruction (R161, R163). -/
theorem decodeWhole_formatFCB (op2 : Byte) : decodeWhole [0xCB#8, op2] = decodeCB op2 :=
  decodeWhole_formatF2 (fun _ => rfl) op2

/-- The bytes of format F3 hold the word low byte first (R151). -/
theorem decodeWhole_formatF3 {op : Byte} {f : Word → Instr}
    (h : ∀ lo hi, decodeBytes op lo hi = f (Word.ofBytes hi lo)) (nn : Word) : decodeWhole (formatF3 op nn) = f nn :=
  (h _ _).trans (congrArg f (Machine.Regs.ofBytes_hi_lo nn))

/-- The place an encoding has in the maps is the place the decoder looks at (R159, R160, R161). -/
theorem decodeWhole_encode (i : Instr) (h : i.wellFormed = true) : decodeWhole (encode i) = i := by
  cases i with
  | prefixCB => cases h
  -- A byte operand.
  | ldHLN n | ldhAN n | ldhNA n | addN n | adcN n | subN n | sbcN n | andN n | xorN n | orN n | cpN n | stop n =>
    exact decodeWhole_formatF2 (fun _ => rfl) n
  | ldHLSPE e | addSPE e | jrE e => exact decodeWhole_formatF2 (fun _ => rfl) e
  | jrCc cc e => cases cc <;> exact decodeWhole_formatF2 (fun _ => rfl) e
  -- A word operand.
  | ldANn nn | ldNnA nn | ldNnSP nn | jpNn nn | callNn nn => exact decodeWhole_formatF3 (fun _ _ => rfl) nn
  | ldRpNn p nn => cases p <;> exact decodeWhole_formatF3 (fun _ _ => rfl) nn
  | jpCc cc nn | callCc cc nn => cases cc <;> exact decodeWhole_formatF3 (fun _ _ => rfl) nn
  -- A pair or a condition, of two bits.
  | pushQ q | popQ q => cases q <;> rfl
  | addHLRp p | incRp p | decRp p => cases p <;> rfl
  | retCc cc => cases cc <;> rfl
  -- A register in field y or field z.
  | ldRN | incR | decR => simp [encode, decodeWhole_x0, decodeX0]
  | ldRR | ldRHL | ldHLR => simp [encode, decodeWhole_x1, decodeX1]
  | addR | adcR | subR | sbcR | andR | xorR | orR | cpR => simp [encode, decodeWhole_x2, decodeX2]
  | rst y => revert y; decide
  -- A prefixed form, with a register in field z or a bit number in field y.
  | rlcR | rrcR | rlR | rrR | slaR | sraR | swapR | srlR => simp [encode, decodeWhole_formatFCB, decodeCB]
  | bitR b | bitHL b | resR b | resHL b | setR b | setHL b =>
    simp [encode, decodeWhole_formatFCB, decodeCB, b.isLt]
  -- The other forms have one opcode each.
  | _ => rfl

/-- Every encoding is as long as its first byte says (R163). -/
theorem encode_length (i : Instr) : Laws.EncodeLength.Statement i := by
  open Laws.EncodeLength in
  cases i
  exacts [ldRR .., ldRN .., ldRHL .., ldHLR .., ldHLN .., ldABC, ldADE, ldBCA, ldDEA, ldANn .., ldNnA .., ldhAC, ldhCA,
    ldhAN .., ldhNA .., ldAHLD, ldHLDA, ldAHLI, ldHLIA, ldRpNn .., ldNnSP .., ldSPHL, ldHLSPE .., pushQ .., popQ ..,
    addR .., addHL, addN .., adcR .., adcHL, adcN .., subR .., subHL, subN .., sbcR .., sbcHL, sbcN .., andR ..,
    andHL, andN .., xorR .., xorHL, xorN .., orR .., orHL, orN .., cpR .., cpHL, cpN .., incR .., incHL, decR ..,
    decHL, daa, cpl, scf, ccf, addHLRp .., incRp .., decRp .., addSPE .., rlca, rrca, rla, rra, jpNn .., jpCc ..,
    jpHL, jrE .., jrCc .., callNn .., callCc .., ret, retCc .., reti, rst .., nop, di, halt, stop .., ei,
    prefixCB .., undefD3, undefDB, undefDD, undefE3, undefE4, undefEB, undefEC, undefED, undefF4, undefFC, undefFD,
    rlcR .., rlcHL, rrcR .., rrcHL, rlR .., rlHL, rrR .., rrHL, slaR .., slaHL, sraR .., sraHL, swapR .., swapHL,
    srlR .., srlHL, bitR .., bitHL .., resR .., resHL .., setR .., setHL ..]

/-- Settles O58: an encoding is as long as its first byte says, so the decoder reads no byte after it, and the fields it
reads are the ones the encoder wrote. -/
theorem decodeEncode : Obligations.DecodeEncode := by
  unfold Obligations.DecodeEncode
  intro i rest h
  rw [decode_append (encode_length i), decodeWhole_encode i h]

/-- Settles O57: the words are closed, and the decoder is evaluated on each. -/
theorem sampleWords : Obligations.SampleWords := by
  unfold Obligations.SampleWords
  exact ⟨rfl, rfl, rfl, rfl, rfl, rfl, rfl, rfl, rfl, rfl, rfl, rfl⟩

end Sys2Proof
end

section
/-! PROOFS. The 8-bit loads and stores, and those that step HL (O1, O2, O3). -/

namespace Sys2Proof

/-! ## Encodings -/

/-- An opcode byte is its three fields side by side (R152). -/
theorem opcode_eq_append (x : Nat) {y z : Nat} (hy : y < 8) (hz : z < 8) :
    opcode x y z = BitVec.ofNat 2 x ++ BitVec.ofNat 3 y ++ BitVec.ofNat 3 z := by
  apply BitVec.eq_of_toNat_eq
  rw [BitVec.toNat_append, BitVec.toNat_append, ← Nat.shiftLeft_add_eq_or_of_lt (BitVec.isLt _),
    ← Nat.shiftLeft_add_eq_or_of_lt (BitVec.isLt _), opcode]
  simp only [BitVec.toNat_ofNat, Nat.shiftLeft_eq]
  omega

/-- The bytes that the encoder gives are the instruction (R163). -/
theorem Instr.encodedAs_of_encode {i : Instr} {bs : List Byte} (hw : i.wellFormed = true) (h : encode i = bs) :
    i.EncodedAs bs := by
  rw [← h, EncodedAs, ← (encode i).append_nil]
  exact decodeEncode i [] hw

namespace Machine

/-! ## Frames of the writes of a register and of HL -/

namespace Regs

variable (r : Regs)

theorem set8_sameBut (dst : Reg8) (v : Byte) : r.SameBut [dst] (r.set8 v dst) :=
  ⟨fun _ hx => r.get8_set8_of_ne (List.ne_of_not_mem_cons hx) v, r.set8_f dst v⟩

theorem SameBut.trans {r₁ r₂ r₃ : Regs} {ds es : List Reg8} (h : r₁.SameBut ds r₂) (h' : r₂.SameBut es r₃) :
    r₁.SameBut (ds ++ es) r₃ := by
  obtain ⟨hget, hf⟩ := h
  obtain ⟨hget', hf'⟩ := h'
  refine ⟨fun x hx => ?_, hf'.trans hf⟩
  rw [List.mem_append, not_or] at hx
  exact (hget' x hx.2).trans (hget x hx.1)

/-- A write of HL is a write of H, then one of L (R21). -/
theorem setHL_sameBut (v : Word) : r.SameBut [.h, .l] (r.setHL v) :=
  (r.set8_sameBut .h (Word.hi v)).trans (set8_sameBut _ .l (Word.lo v))

end Regs

namespace State

variable {s : State} {i : Instr} {bs : List Byte}

/-! ## Loads of a register and stores of a byte (R200 to R214) -/

theorem loads_of_encode {dst : Reg8} {v : Byte} {n : Nat} (hw : i.wellFormed = true) (he : encode i = bs)
    (hx : exec i s = .next ((s.setReg8 dst v).takes n)) : s.Loads i bs dst v n :=
  loads_of (Instr.encodedAs_of_encode hw he) hx

theorem stores_of_encode {a : Word} {v : Byte} {n : Nat} (hm : s.mode = .running) (hi : s.bus.memInv = true)
    (hw : i.wellFormed = true) (he : encode i = bs) (hx : exec i s = .next ((s.memWrite a v).takes n)) :
    s.Stores i bs a v n :=
  stores_of hm hi (Instr.encodedAs_of_encode hw he) hx

/-! ## The loads and stores that step HL (R215 to R218) -/

/-- A load of A through HL that leaves `w` in HL. -/
theorem loadsA_stepsHL {w : Word} (hx : exec i s = .next (((s.setReg8 .a s.readHL).setReg16 .hl w).takes 2)) :
    ∃ t, exec i s = .next t ∧ t.regs.a = s.memRead s.regs.hl ∧ t.regs.hl = w
      ∧ s.regs.SameBut [.a, .h, .l] t.regs ∧ s.regs.SamePointers t.regs ∧ s.OnlyRegs t 2 :=
  ⟨_, hx, rfl, Regs.hl_setHL _ w, (s.regs.set8_sameBut .a s.readHL).trans (Regs.setHL_sameBut _ w), ⟨rfl, rfl⟩,
    onlyRegs_mk s _ 2⟩

/-- A store of A through HL that leaves `w` in HL. -/
theorem storesA_stepsHL {w : Word} (hm : s.mode = .running) (hi : s.bus.memInv = true)
    (hx : exec i s = .next (((s.memWrite s.regs.hl s.regs.a).setReg16 .hl w).takes 2)) :
    ∃ t, exec i s = .next t ∧ t.regs.hl = w ∧ s.regs.SameButHL t.regs ∧ s.OneStore t s.regs.hl s.regs.a 2 :=
  ⟨_, hx, s.regs.hl_setHL w, ⟨s.regs.setHL_sameBut w, rfl, rfl⟩, oneStore_mk s _ _ _ 2 hm hi⟩

end State

/-- Settles O2: each form is one store as `State.stores_of_encode` describes it, at the address it names. -/
theorem storeByte : Obligations.StoreByte := by
  unfold Obligations.StoreByte
  intro s x n nn hm hi
  have hldHLR : encode (.ldHLR x) = [0b01110#5 ++ x.bits] :=
    congrArg (fun op => [op]) (opcode_eq_append 1 (by decide) x.code_lt)
  rw [← highPage_eq, ← highPage_eq]
  open State in
  exact ⟨stores_of_encode hm hi rfl hldHLR rfl, stores_of_encode hm hi rfl rfl rfl,
    stores_of_encode hm hi rfl rfl rfl, stores_of_encode hm hi rfl rfl rfl, stores_of_encode hm hi rfl rfl rfl,
    stores_of_encode hm hi rfl rfl rfl, stores_of_encode hm hi rfl rfl rfl⟩

/-- Settles O3: the four forms are a load and a store, each at either new value of HL. -/
theorem stepHL : Obligations.StepHL := by
  unfold Obligations.StepHL
  refine fun s hm hi => ⟨List.forall_mem_cons.2 ⟨?_, List.forall_mem_singleton.2 ?_⟩,
    List.forall_mem_cons.2 ⟨?_, List.forall_mem_singleton.2 ?_⟩⟩
  · exact ⟨Instr.encodedAs_of_encode rfl rfl, State.loadsA_stepsHL rfl⟩
  · exact ⟨Instr.encodedAs_of_encode rfl rfl, State.loadsA_stepsHL rfl⟩
  · exact ⟨Instr.encodedAs_of_encode rfl rfl, State.storesA_stepsHL hm hi rfl⟩
  · exact ⟨Instr.encodedAs_of_encode rfl rfl, State.storesA_stepsHL hm hi rfl⟩

/-- Settles O1: each form is one load as `State.loads_of_encode` describes it; the codes of the registers are fields y
and z of the opcode. -/
theorem loadRegister : Obligations.LoadRegister := by
  unfold Obligations.LoadRegister
  intro s dst src n nn
  have hldRR : encode (.ldRR dst src) = [0b01#2 ++ dst.bits ++ src.bits] :=
    congrArg (fun op => [op]) (opcode_eq_append 1 dst.code_lt src.code_lt)
  have hldRN : encode (.ldRN dst n) = [0b00#2 ++ dst.bits ++ 0b110#3, n] :=
    congrArg (fun op => [op, n]) (opcode_eq_append 0 dst.code_lt (by decide))
  have hldRHL : encode (.ldRHL dst) = [0b01#2 ++ dst.bits ++ 0b110#3] :=
    congrArg (fun op => [op]) (opcode_eq_append 1 dst.code_lt (by decide))
  rw [← highPage_eq, ← highPage_eq]
  open State in
  exact ⟨loads_of_encode rfl hldRR rfl, loads_of_encode rfl hldRN rfl, loads_of_encode rfl hldRHL rfl,
    loads_of_encode rfl rfl rfl, loads_of_encode rfl rfl rfl, loads_of_encode rfl rfl rfl,
    loads_of_encode rfl rfl rfl, loads_of_encode rfl rfl rfl⟩

end Machine

end Sys2Proof
end

section
/-! PROOFS. The 16-bit loads and the stack (O4, O5, O6, O7, O8). -/

namespace Sys2Proof.Machine

/-! ## Frames of the writes of a pair, of SP and of the flags -/

namespace Regs

variable (r : Regs)

theorem set16_sameButPair (p : Reg16) (v : Word) : r.SameButPair p (r.set16 v p) :=
  ⟨fun _ hq => r.get16_set16_of_ne hq v, r.set16_a p v, r.set16_f p v, r.set16_pc p v⟩

theorem getStk_setStk_of_ne {q q' : RegStk} (h : q' ≠ q) (v : Word) : (r.setStk v q).getStk q' = r.getStk q' := by
  cases q <;> cases q'
  case bc.bc | de.de | hl.hl | af.af => exact absurd rfl h
  all_goals rfl

theorem setSP_sameBut (v : Word) : r.SameBut [] { r with sp := v } :=
  ⟨fun x _ => by cases x <;> rfl, rfl⟩

theorem SameBut.setFlags {r r' : Regs} {ds : List Reg8} (h : r.SameBut ds r') (z n hf c : Bool) :
    r.SameButFlags ds (r'.setFlags z n hf c) :=
  fun x hx => (r'.setFlags_get8 z n hf c x).trans (h.1 x hx)

end Regs

namespace State

variable {s : State} {i : Instr}

/-! ## Loads of a pair (R230, R232) -/

/-- `i` leaves `v` in the pair `p` and changes no other register. -/
theorem loadsPair_of {p : Reg16} {v : Word} {n : Nat} (hx : exec i s = .next ((s.setReg16 p v).takes n)) :
    ∃ t, exec i s = .next t ∧ t.reg16 p = v ∧ s.regs.SameButPair p t.regs ∧ s.OnlyRegs t n :=
  ⟨_, hx, s.regs.get16_set16_self p v, s.regs.set16_sameButPair p v, onlyRegs_mk s _ n⟩

/-! ## Two stores in mode Running (R10) -/

theorem push16_twoStores (v : Word) (n : Nat) (hm : s.mode = .running) (hi : s.bus.memInv = true) :
    s.TwoStores ((s.push16 v).takes n) (s.regs.sp - 1#16) (Word.hi v) (s.regs.sp - 2#16) (Word.lo v) n :=
  have hmode : (s.push16 v).mode = s.mode := (s.push16_mode_of_running v hm).trans hm.symm
  twoStores_mk s hi ⟨rfl, rfl, hmode, rfl, rfl, rfl, rfl⟩ (s.push16_bus v) rfl

theorem memWrite16_twoStores (a v : Word) (n : Nat) (hm : s.mode = .running) (hi : s.bus.memInv = true) :
    s.TwoStores ((s.memWrite16 a v).takes n) a (Word.lo v) (a + 1#16) (Word.hi v) n :=
  have hmode : (s.memWrite16 a v).mode = s.mode := (s.memWrite16_mode_of_running a v hm).trans hm.symm
  twoStores_mk s hi ⟨rfl, rfl, hmode, rfl, rfl, rfl, rfl⟩ (s.memWrite16_bus a v) rfl

end State

/-- Settles O6: the 16-bit write is two stores, the low byte first. -/
theorem storeStackPointer : Obligations.StoreStackPointer := by
  unfold Obligations.StoreStackPointer
  intro s nn hm hi
  exact ⟨Instr.encodedAs_of_encode rfl rfl, _, rfl, rfl, State.memWrite16_twoStores nn s.regs.sp 5 hm hi⟩

/-- Settles O7: the push is two stores, the high byte first, whichever pair it takes the word from. -/
theorem push : Obligations.Push := by
  unfold Obligations.Push
  intro s q hm hi
  have henc : encode (.pushQ q) = [0b11#2 ++ q.bits ++ 0b0101#4] := by
    cases q <;> rfl
  exact ⟨Instr.encodedAs_of_encode rfl henc, _, rfl, s.push16_regs _, State.push16_twoStores _ 4 hm hi⟩

/-- Settles O4: both forms write one pair as `State.loadsPair_of` describes it. -/
theorem loadPair : Obligations.LoadPair := by
  unfold Obligations.LoadPair
  intro s p nn
  have henc : encode (.ldRpNn p nn) = [0b00#2 ++ p.bits ++ 0b0001#4, Word.lo nn, Word.hi nn] := by
    cases p <;> rfl
  exact ⟨⟨Instr.encodedAs_of_encode rfl henc, State.loadsPair_of rfl⟩,
    Instr.encodedAs_of_encode rfl rfl, State.loadsPair_of (p := .sp) rfl⟩

/-- Settles O5: the sum is that of `add_sext_toNat`, and the flags written after it are the carries of the low bytes. -/
theorem stackPointerPlus : Obligations.StackPointerPlus := by
  unfold Obligations.StackPointerPlus
  intro s e
  have hsum := add_sext_toNat s.regs.sp e
  refine ⟨⟨Instr.encodedAs_of_encode rfl rfl, _, rfl, ?_, Regs.setFlags_flagsAre _ _ _ _ _,
      (s.regs.setHL_sameBut _).setFlags _ _ _ _, ⟨rfl, rfl⟩, State.onlyRegs_mk s _ 3⟩,
    Instr.encodedAs_of_encode rfl rfl, _, rfl, hsum, Regs.setFlags_flagsAre _ _ _ _ _,
      (s.regs.setSP_sameBut _).setFlags _ _ _ _, rfl, State.onlyRegs_mk s _ 4⟩
  have hhl : (s.regs.setHL (s.regs.sp + e.sext)).hl = s.regs.sp + e.sext := Regs.hl_setHL _ _
  exact (congrArg (fun w => (w.toNat : Int)) hhl).trans hsum

/-- Settles O8: the popped word is the two bytes at SP; AF takes them apart, F through its mask, and another pair holds
them as they are. -/
theorem popFromStack : Obligations.PopFromStack := by
  unfold Obligations.PopFromStack
  intro s q
  have henc : encode (.popQ q) = [0b11#2 ++ q.bits ++ 0b0001#4] := by
    cases q <;> rfl
  refine ⟨Instr.encodedAs_of_encode rfl henc, _, rfl, fun hq => Regs.getStk_setStk_self _ q _ hq, ?_,
    fun _ hq => Regs.getStk_setStk_of_ne _ hq _, Regs.setStk_sp _ q _, Regs.setStk_pc _ q _, State.onlyRegs_mk s _ 3⟩
  rintro rfl
  exact ⟨Regs.hi_ofBytes _ _, congrArg (· &&& 0xF0#8) (Regs.lo_ofBytes _ _)⟩

end Sys2Proof.Machine
end

section
/-! PROOFS. The 8-bit arithmetic and logic (O9, O10, O11, O12, O13, O14, O19). -/

namespace Sys2Proof

/-! ## Encodings -/

/-- An instruction of one byte is its fields `x`, `y` and `z` side by side (R152). -/
theorem Instr.encodedAs_of_opcode {i : Instr} (x y z : Nat) (hw : i.wellFormed = true)
    (he : encode i = [opcode x y z]) (hy : y < 8 := by decide) (hz : z < 8 := by decide) :
    i.EncodedAs [BitVec.ofNat 2 x ++ BitVec.ofNat 3 y ++ BitVec.ofNat 3 z] :=
  encodedAs_of_encode hw (he.trans (congrArg (fun op => [op]) (opcode_eq_append x hy hz)))

/-- The accumulator operation of code `y` on a register (R158). -/
theorem Instr.encodedAs_of_accumulator {i : Instr} {x : Reg8} (y : Nat) (hw : i.wellFormed = true)
    (he : encode i = [opcode 2 y x.code]) (hy : y < 8 := by decide) :
    i.EncodedAs [BitVec.ofNat 2 2 ++ BitVec.ofNat 3 y ++ x.bits] :=
  encodedAs_of_opcode 2 y x.code hw he hy x.code_lt

/-- A second byte whose field y is the number of a bit (R152, R158). -/
theorem opcode_bit (x : Nat) (b : BitVec 3) {z : Nat} (hz : z < 8) :
    opcode x b.toNat z = BitVec.ofNat 2 x ++ b ++ BitVec.ofNat 3 z := by
  rw [opcode_eq_append x b.isLt hz, BitVec.ofNat_toNat, BitVec.setWidth_eq]

namespace Machine

/-! ## Exclusive or (R266) -/

/-- Z of an exclusive or says that the operands are equal. -/
theorem xor8_eq (a v : Byte) : xor8 a v = ⟨a ^^^ v, decide (a = v), false, false, false⟩ := by
  simp only [xor8, BitVec.xor_eq_zero_iff]

/-! ## DAA as arithmetic on numbers (R279) -/

/-- The correction of DAA as a number: 0x06 for the low digit and 0x60 for the high one. -/
def daaCorrection (a : Byte) (n h c : Bool) : Nat :=
  (if h = true ∨ (n = false ∧ 9 < a.lowNibble) then 0x06 else 0)
    + (if c = true ∨ (n = false ∧ 0x99 < a.toNat) then 0x60 else 0)

/-- The result of DAA as a number. -/
def daaResult (a : Byte) (n h c : Bool) : Nat :=
  if n = true then (a.toNat + 256 - daaCorrection a n h c) % 256 else (a.toNat + daaCorrection a n h c) % 256

theorem daaAdjust_eq_ofNat (a : Byte) (n h c : Bool) : daaAdjust a n h c = BitVec.ofNat 8 (daaCorrection a n h c) := by
  unfold daaAdjust daaCorrection
  split_ifs <;> rfl

theorem daaCorrection_le (a : Byte) (n h c : Bool) : daaCorrection a n h c ≤ 0x66 := by
  unfold daaCorrection
  split_ifs <;> decide

theorem daa8_r_toNat (a : Byte) (n h c : Bool) : (daa8 a n h c).r.toNat = daaResult a n h c := by
  have hk := daaCorrection_le a n h c
  cases n
  all_goals
    simp only [daa8, daaResult, daaAdjust_eq_ofNat, Bool.false_eq_true, if_true, if_false, BitVec.toNat_add,
      BitVec.toNat_sub, BitVec.toNat_ofNat]
    omega

/-- DAA with its result as a number below 256, whose being 0 is the flag Z. -/
theorem daa8_eq (a : Byte) (n h c : Bool) : daa8 a n h c =
    ⟨BitVec.ofNat 8 (daaResult a n h c), decide (daaResult a n h c = 0), n, false,
      decide (c = true ∨ (n = false ∧ 0x99 < a.toNat))⟩ := by
  have hr : (daa8 a n h c).r = BitVec.ofNat 8 (daaResult a n h c) := by
    rw [← daa8_r_toNat, BitVec.ofNat_toNat, BitVec.setWidth_eq]
  have hz : (daa8 a n h c).z = decide (daaResult a n h c = 0) := by
    rw [← daa8_r_toNat]
    exact decide_eq_decide.2 BitVec.toNat_inj.symm
  have hc : (daa8 a n h c).c = decide (c = true ∨ (n = false ∧ 0x99 < a.toNat)) := by
    cases n <;> simp [daa8]
  rw [← hr, ← hz, ← hc]
  rfl

/-! ## The obligations: each form is one shape of instruction -/

open State Instr

/-- Settles O9: each form leaves the sum of `State.adds_of` in A, with the carry-in it names. -/
theorem addWithCarry : Obligations.AddWithCarry := by
  unfold Obligations.AddWithCarry
  intro s x n
  have hadd : (Instr.addR x).EncodedAs [0b10000#5 ++ x.bits] := encodedAs_of_accumulator 0 rfl rfl
  have hadc : (Instr.adcR x).EncodedAs [0b10001#5 ++ x.bits] := encodedAs_of_accumulator 1 rfl rfl
  exact ⟨adds_of hadd rfl, adds_of (encodedAs_of_encode rfl rfl) rfl, adds_of (encodedAs_of_encode rfl rfl) rfl,
    adds_of hadc rfl, adds_of (encodedAs_of_encode rfl rfl) rfl, adds_of (encodedAs_of_encode rfl rfl) rfl⟩

/-- Settles O10: SUB and SBC leave the difference of `State.subtracts_of` in A, and CP only its flags. -/
theorem subtract : Obligations.Subtract := by
  unfold Obligations.Subtract
  intro s x n
  have hsub : (Instr.subR x).EncodedAs [0b10010#5 ++ x.bits] := encodedAs_of_accumulator 2 rfl rfl
  have hsbc : (Instr.sbcR x).EncodedAs [0b10011#5 ++ x.bits] := encodedAs_of_accumulator 3 rfl rfl
  have hcp : (Instr.cpR x).EncodedAs [0b10111#5 ++ x.bits] := encodedAs_of_accumulator 7 rfl rfl
  refine ⟨subtracts_of hsub rfl, subtracts_of ?_ rfl, subtracts_of ?_ rfl, subtracts_of hsbc rfl,
    subtracts_of ?_ rfl, subtracts_of ?_ rfl, compares_of hcp rfl, compares_of ?_ rfl, compares_of ?_ rfl⟩
  all_goals exact encodedAs_of_encode rfl rfl

/-- Settles O19: INC and DEC are updates at HL as `State.updates_of` describes them; RES and SET are stores of the byte
that `resBit_getLsbD` and `setBit_getLsbD` describe bit by bit. -/
theorem updateMemory : Obligations.UpdateMemory := by
  unfold Obligations.UpdateMemory
  intro s b hm hi
  have hres : encode (.resHL b) = [0xCB#8, 0b10#2 ++ b ++ 0b110#3] :=
    congrArg (fun op => [0xCB#8, op]) (opcode_bit 2 b (by decide))
  have hset : encode (.setHL b) = [0xCB#8, 0b11#2 ++ b ++ 0b110#3] :=
    congrArg (fun op => [0xCB#8, op]) (opcode_bit 3 b (by decide))
  refine ⟨?_, ?_, ⟨resBit b s.readHL, resBit_getLsbD b _, ?_⟩, ⟨setBit b s.readHL, setBit_getLsbD b _, ?_⟩⟩
  · exact updates_of hm hi (encodedAs_of_encode rfl rfl) rfl (inc8_eq _ _)
  · exact updates_of hm hi (encodedAs_of_encode rfl rfl) rfl (dec8_eq _ _)
  · exact stores_of_encode hm hi rfl hres rfl
  · exact stores_of_encode hm hi rfl hset rfl

/-- Settles O11: each form leaves a bitwise result in A; that of XOR is 0 when the operands are equal (`xor8_eq`). -/
theorem logic : Obligations.Logic := by
  unfold Obligations.Logic
  intro s x n
  have hand : (Instr.andR x).EncodedAs [0b10100#5 ++ x.bits] := encodedAs_of_accumulator 4 rfl rfl
  have hxor : (Instr.xorR x).EncodedAs [0b10101#5 ++ x.bits] := encodedAs_of_accumulator 5 rfl rfl
  have hor : (Instr.orR x).EncodedAs [0b10110#5 ++ x.bits] := encodedAs_of_accumulator 6 rfl rfl
  refine ⟨computes_of hand rfl rfl, computes_of ?_ rfl rfl, computes_of ?_ rfl rfl,
    computes_of hxor rfl (xor8_eq _ _), computes_of ?_ rfl (xor8_eq _ _), computes_of ?_ rfl (xor8_eq _ _),
    computes_of hor rfl rfl, computes_of ?_ rfl rfl, computes_of ?_ rfl rfl⟩
  all_goals exact encodedAs_of_encode rfl rfl

/-- Settles O12: the result and the flags are those of `inc8_eq` and `dec8_eq`. -/
theorem stepRegister : Obligations.StepRegister := by
  unfold Obligations.StepRegister
  intro s dst
  have hinc : (Instr.incR dst).EncodedAs [0b00#2 ++ dst.bits ++ 0b100#3] :=
    encodedAs_of_opcode 0 dst.code 4 rfl rfl dst.code_lt
  have hdec : (Instr.decR dst).EncodedAs [0b00#2 ++ dst.bits ++ 0b101#3] :=
    encodedAs_of_opcode 0 dst.code 5 rfl rfl dst.code_lt
  exact ⟨computes_of hinc rfl (inc8_eq _ _), computes_of hdec rfl (dec8_eq _ _)⟩

/-- Settles O13: the result of the rule's block is `daaResult`. -/
theorem decimalAdjust : Obligations.DecimalAdjust := by
  unfold Obligations.DecimalAdjust
  intro s
  exact computes_of (encodedAs_of_encode rfl rfl) rfl (daa8_eq s.regs.a _ _ _)

/-- Settles O14: the complement is the difference from 0xFF, and SCF and CCF set flags only. -/
theorem flagInstructions : Obligations.FlagInstructions := by
  unfold Obligations.FlagInstructions
  intro s
  have hnot : 0xFF#8 - s.regs.a = ~~~ s.regs.a := BitVec.allOnes_sub_eq_not s.regs.a
  refine ⟨?_, tests_of (encodedAs_of_encode rfl rfl) rfl, tests_of (encodedAs_of_encode rfl rfl) rfl⟩
  rw [hnot]
  exact computes_of (o := ⟨~~~ s.regs.a, s.regs.flagZ, true, true, s.regs.flagC⟩) (encodedAs_of_encode rfl rfl) rfl rfl

end Machine

end Sys2Proof
end

section
/-! PROOFS. The 16-bit arithmetic on the pairs (O15). -/

namespace Sys2Proof.Machine

/-- The sum of HL and `v` with its flags, as `i` leaves them in HL (R290). -/
theorem State.addsHL_of {s : State} {i : Instr} {v : Word} {n : Nat}
    (hx : exec i s = .next (((s.setReg16 .hl (s.regs.hl + v)).setFlags s.regs.flagZ false (add16Half s.regs.hl v)
      (add16Carry s.regs.hl v)).takes n)) :
    ∃ t, exec i s = .next t ∧ t.regs.hl = s.regs.hl + v
      ∧ t.regs.FlagsAre s.regs.flagZ false (0xFFF < s.regs.hl.toNat % 0x1000 + v.toNat % 0x1000)
        (0xFFFF < s.regs.hl.toNat + v.toNat)
      ∧ s.regs.SameButFlags [.h, .l] t.regs ∧ s.regs.SamePointers t.regs ∧ s.OnlyRegs t n :=
  ⟨_, hx, s.regs.hl_setHL _, Regs.setFlags_flagsAre _ _ _ _ _, (s.regs.setHL_sameBut _).setFlags _ _ _ _, ⟨rfl, rfl⟩,
    onlyRegs_mk s _ n⟩

/-- Settles O15: ADD leaves the sum of `State.addsHL_of` in HL; INC and DEC write one pair as `State.loadsPair_of`
describes it. -/
theorem pairArithmetic : Obligations.PairArithmetic := by
  unfold Obligations.PairArithmetic
  intro s p
  have hadd : encode (.addHLRp p) = [0b00#2 ++ p.bits ++ 0b1001#4] := by
    cases p <;> rfl
  have hinc : encode (.incRp p) = [0b00#2 ++ p.bits ++ 0b0011#4] := by
    cases p <;> rfl
  have hdec : encode (.decRp p) = [0b00#2 ++ p.bits ++ 0b1011#4] := by
    cases p <;> rfl
  exact ⟨⟨Instr.encodedAs_of_encode rfl hadd, State.addsHL_of rfl⟩,
    ⟨Instr.encodedAs_of_encode rfl hinc, State.loadsPair_of rfl⟩,
    Instr.encodedAs_of_encode rfl hdec, State.loadsPair_of rfl⟩

end Sys2Proof.Machine
end

section
/-! PROOFS. The rotates, shifts and bit instructions (O16, O17, O18, O20). -/

namespace Sys2Proof

/-- An instruction of format FCB is 0xCB and the three fields of its second byte (R151, R152, R365). -/
theorem Instr.encodedAs_of_prefixed {i : Instr} (x : Nat) (y : BitVec 3) {z : Nat} (hz : z < 8)
    (hw : i.wellFormed = true) (he : encode i = [0xCB#8, opcode x y.toNat z]) :
    i.EncodedAs [0xCB#8, BitVec.ofNat 2 x ++ y ++ BitVec.ofNat 3 z] :=
  encodedAs_of_encode hw (he.trans (congrArg (fun op => [0xCB#8, op]) (opcode_bit x y hz)))

namespace Machine

open State Instr

/-- The rotate or shift of code `y` of the register `x`, whose meaning leaves `o` there (R158, R304 to R318). -/
theorem State.shifts_of {s : State} {i : Instr} {x : Reg8} {o : AluResult} {v : Byte} {z n h c : Bool} (y : BitVec 3)
    (hw : i.wellFormed = true) (he : encode i = [0xCB#8, opcode 0 y.toNat x.code])
    (hx : exec i s = .next ((s.setAlu x o).takes 2)) (ho : o = ⟨v, z, n, h, c⟩) :
    s.Computes i [0xCB#8, 0b00#2 ++ y ++ x.bits] x v z n h c 2 :=
  computes_of (encodedAs_of_prefixed 0 y x.code_lt hw he) hx ho

/-- Settles O18: each form is an update at HL as `State.updates_of` describes it, with the result and the flags that the
equation of its rule gives. -/
theorem rotateMemory : Obligations.RotateMemory := by
  unfold Obligations.RotateMemory
  intro s hm hi
  refine ⟨updates_of hm hi ?_ rfl (rlc8_eq _), updates_of hm hi ?_ rfl (rrc8_eq _),
    updates_of hm hi ?_ rfl (rl8_eq _ _), updates_of hm hi ?_ rfl (rr8_eq _ _),
    updates_of hm hi ?_ rfl (sla8_eq _), updates_of hm hi ?_ rfl (sra8_eq _),
    updates_of hm hi ?_ rfl (swap8_eq _), updates_of hm hi ?_ rfl (srl8_eq _)⟩
  all_goals exact encodedAs_of_encode rfl rfl

/-- Settles O16: each form takes the result and the carry of its prefixed namesake, and leaves Z = 0
(`State.rotatesA_of`). -/
theorem rotateA : Obligations.RotateA := by
  unfold Obligations.RotateA
  intro s
  refine ⟨rotatesA_of ?_ rfl (rlc8_eq _), rotatesA_of ?_ rfl (rrc8_eq _), rotatesA_of ?_ rfl (rl8_eq _ _),
    rotatesA_of ?_ rfl (rr8_eq _ _)⟩
  all_goals exact encodedAs_of_encode rfl rfl

/-- Settles O17: each form is a rotate or shift of a register as `State.shifts_of` describes it, under its code
of field y. -/
theorem rotateRegister : Obligations.RotateRegister := by
  unfold Obligations.RotateRegister
  intro s x
  exact ⟨shifts_of 0#3 rfl rfl rfl (rlc8_eq _), shifts_of 1#3 rfl rfl rfl (rrc8_eq _),
    shifts_of 2#3 rfl rfl rfl (rl8_eq _ _), shifts_of 3#3 rfl rfl rfl (rr8_eq _ _),
    shifts_of 4#3 rfl rfl rfl (sla8_eq _), shifts_of 5#3 rfl rfl rfl (sra8_eq _),
    shifts_of 6#3 rfl rfl rfl (swap8_eq _), shifts_of 7#3 rfl rfl rfl (srl8_eq _)⟩

/-- Settles O20: BIT sets flags only; RES and SET load the byte that `resBit_getLsbD` and `setBit_getLsbD` describe bit
by bit. -/
theorem bitInstructions : Obligations.BitInstructions := by
  unfold Obligations.BitInstructions
  intro s b x
  refine ⟨tests_of ?_ rfl, tests_of ?_ rfl, ⟨resBit b (s.reg8 x), resBit_getLsbD b _, loads_of ?_ rfl⟩,
    ⟨setBit b (s.reg8 x), setBit_getLsbD b _, loads_of ?_ rfl⟩⟩
  · exact encodedAs_of_prefixed 1 b x.code_lt rfl rfl
  · exact encodedAs_of_prefixed 1 b (z := 6) (by decide) rfl rfl
  · exact encodedAs_of_prefixed 2 b x.code_lt rfl rfl
  · exact encodedAs_of_prefixed 3 b x.code_lt rfl rfl

end Machine

end Sys2Proof
end

section
/-! PROOFS. The jumps, calls, restarts and returns (O21, O22, O23). -/

namespace Sys2Proof

/-! ## Encodings -/

/-- The opcode of a jump, call or return under a condition: its code is the low two bits of field y (R152, R156). -/
theorem opcode_cond (cc : Cond) {z : Nat} (hz : z < 8) :
    opcode 3 cc.code z = 0b110#3 ++ cc.bits ++ BitVec.ofNat 3 z := by
  cases cc <;> exact opcode_eq_append 3 (by decide) hz

namespace Machine

open State Instr

/-! ## Targets (R340) -/

/-- The fields of RST side by side are 8 times its number. -/
theorem rstTarget_eq (y : BitVec 3) : (0x00#8 ++ (0#2 ++ y ++ 0#3) : Word) = BitVec.ofNat 16 (8 * y.toNat) := by
  revert y
  decide

namespace State

variable {s : State} {i : Instr} {bs : List Byte} {k : Nat}

/-! ## Both paths of a condition (R331, R334, R336, R338) -/

theorem next_ite_of_cond {cc : Cond} (t u : State) (h : s.regs.cond cc = true) :
    (.next (if s.regs.cond cc = true then t else u) : Answer) = .next t :=
  congrArg _ (if_pos h)

theorem next_ite_of_not_cond {cc : Cond} (t u : State) (h : s.regs.cond cc = false) :
    (.next (if s.regs.cond cc = true then t else u) : Answer) = .next u :=
  congrArg _ (if_neg (ne_true_of_eq_false h))

/-- A jump not taken is a jump to where PC is. -/
theorem jumps_of_not_taken (h1 : i.EncodedAs bs) (h2 : exec i s = .next (s.takes k)) : s.Jumps i bs s.regs.pc k :=
  jumps_of h1 h2

/-! ## Returns (R337) -/

theorem returns_of (hx : exec i s = .next (s.returnTo.takes k)) :
    ∃ t, exec i s = .next t ∧ t.regs = { s.regs with sp := s.regs.sp + 2#16, pc := s.popped } ∧ s.OnlyRegs t k :=
  ⟨_, hx, s.returnTo_regs, onlyRegs_mk s _ k⟩

end State

/-- Settles O22: a taken call and a restart are calls as `State.calls_of` describes them, and a call not taken leaves
the state past the instruction. -/
theorem call : Obligations.Call := by
  unfold Obligations.Call
  intro s cc nn y hm hi
  have hcallCc : (Instr.callCc cc nn).EncodedAs [0b110#3 ++ cc.bits ++ 0b100#3, Word.lo nn, Word.hi nn] :=
    encodedAs_of_encode rfl (congrArg (formatF3 · nn) (opcode_cond cc (by decide)))
  have hrst : (Instr.rst y).EncodedAs [0b11#2 ++ y ++ 0b111#3] :=
    encodedAs_of_encode rfl (congrArg (fun op => [op]) (opcode_bit 3 y (by decide)))
  refine ⟨calls_of hm hi (encodedAs_of_encode rfl rfl) rfl, fun htaken => ?_, fun hnot => ?_, ?_⟩
  · exact calls_of hm hi hcallCc (next_ite_of_cond _ _ htaken)
  · exact jumps_of_not_taken hcallCc (next_ite_of_not_cond _ _ hnot)
  · rw [← rstTarget_eq]
    exact calls_of hm hi hrst rfl

/-- Settles O21: the flag that the statement names is the model's condition, and each path of each form is a jump as
`State.jumps_of` describes it. -/
theorem jump : Obligations.Jump := by
  unfold Obligations.Jump
  intro s cc nn e rel holds
  have hcond : s.regs.cond cc = true ↔ holds := by
    cases cc with
    | nz | nc => exact iff_of_eq (Bool.not_eq_true' _)
    | z | c => exact Iff.rfl
  have hnotCond (h : ¬ holds) : s.regs.cond cc = false := eq_false_of_ne_true fun hc => h (hcond.1 hc)
  have hrel : s.regs.pc + e.sext = rel := add_sext_ofInt s.regs.pc e
  have hjpCc : (Instr.jpCc cc nn).EncodedAs [0b110#3 ++ cc.bits ++ 0b010#3, Word.lo nn, Word.hi nn] :=
    encodedAs_of_encode rfl (congrArg (formatF3 · nn) (opcode_cond cc (by decide)))
  have hjrCc : (Instr.jrCc cc e).EncodedAs [0b001#3 ++ cc.bits ++ 0b000#3, e] :=
    encodedAs_of_encode rfl (by cases cc <;> rfl)
  rw [← hrel]
  refine ⟨jumps_of (encodedAs_of_encode rfl rfl) rfl, fun htaken => ?_, fun hnot => ?_,
    jumps_of (encodedAs_of_encode rfl rfl) rfl, jumps_of (encodedAs_of_encode rfl rfl) rfl, fun htaken => ?_,
    fun hnot => ?_⟩
  · exact jumps_of hjpCc (next_ite_of_cond _ _ (hcond.2 htaken))
  · exact jumps_of_not_taken hjpCc (next_ite_of_not_cond _ _ (hnotCond hnot))
  · exact jumps_of hjrCc (next_ite_of_cond _ _ (hcond.2 htaken))
  · exact jumps_of_not_taken hjrCc (next_ite_of_not_cond _ _ (hnotCond hnot))

/-- Settles O23: a taken return is one as `State.returns_of` describes it; RETI is that return from the state whose
interrupts are enabled. -/
theorem return_ : Obligations.Return := by
  unfold Obligations.Return
  intro s cc
  refine ⟨⟨encodedAs_of_encode rfl rfl, returns_of rfl⟩, ?_, fun htaken => ?_, fun hnot => ?_,
    encodedAs_of_encode rfl rfl, ?_⟩
  · exact encodedAs_of_encode rfl (congrArg (fun op => [op]) (opcode_cond cc (by decide)))
  · exact returns_of (next_ite_of_cond _ _ htaken)
  · exact ⟨_, next_ite_of_not_cond _ _ hnot, rfl, onlyRegs_mk s _ 2⟩
  · exact ⟨_, rfl, s.returnTo_regs, rfl, rfl, onlyRegs_mk s.enableInterrupts _ 4⟩

end Machine

end Sys2Proof
end

section
/-! PROOFS. The system instructions, the prefixed rows and the undefined opcodes (O24, O25, O26). -/

namespace Sys2Proof.Machine

open State Instr

/-! ## The prefixed rows (R161, R365) -/

/-- The time of a prefixed row, whichever operation and operand its byte selects (R304 to R325). -/
theorem exec_decodeCB_takes (op2 : Byte) (s : State) :
    ∃ (u : State) (k : Nat), exec (decodeCB op2) s = .next (u.takes k) ∧ 2 ≤ k ∧ k ≤ 4 := by
  unfold decodeCB
  dsimp only
  split <;> (try split) <;> refine ⟨_, _, rfl, ?_, ?_⟩ <;> decide

/-- Settles O26: the instruction is the row `decodeCB op2`, and `prefixCB` has its effect by `execPrefixCB_eq`. -/
theorem prefixedInstruction : Obligations.PrefixedInstruction := by
  unfold Obligations.PrefixedInstruction
  intro s op2
  have hne := decodeCB_ne_prefixCB op2
  obtain ⟨u, k, hexec, hlo, hhi⟩ := exec_decodeCB_takes op2 s
  refine ⟨decodeCB op2, u.takes k, rfl, hne, (execPrefixCB_eq op2 s).trans hexec, hexec, hlo, hhi, fun hm => ?_⟩
  have hmode := (exec_controlled hne hm hexec).mode
  rwa [decodeCB_modeAfter] at hmode

/-! ## HALT (R362, R611) -/

theorem State.haltBugApplies_iff (s : State) : s.haltBugApplies = true ↔
    s.params.haltBug = true ∧ s.ime = false ∧ s.bus.ie.extractLsb' 0 5 &&& s.bus.iflag ≠ 0#5 := by
  rw [haltBugApplies, Bool.and_eq_true, Bool.and_eq_true, Bool.not_eq_true', decide_eq_true_eq, and_assoc]
  rfl

theorem exec_halt_of_bug {s : State} (h : s.haltBugApplies = true) :
    exec .halt s = .next (State.takes { s with haltPcHold := true } 1) := by
  change execHalt s = _
  rw [execHalt, if_pos h]

theorem exec_halt_of_not_bug {s : State} (h : ¬ s.haltBugApplies = true) :
    exec .halt s = .next (State.takes { s with mode := .halted } 1) := by
  change execHalt s = _
  rw [execHalt, if_neg h]

/-- Settles O24: each form sets its own control fields and the cycle count (`State.onlyRegs_mk`); HALT does so on the
two sides of `halt_bug`. -/
theorem systemInstructions : Obligations.SystemInstructions := by
  unfold Obligations.SystemInstructions
  intro s n
  rw [← s.haltBugApplies_iff]
  refine ⟨⟨?_, _, rfl, rfl, onlyRegs_mk s _ 1⟩, ⟨?_, _, rfl, rfl, rfl, rfl, onlyRegs_mk s.disableInterrupts _ 1⟩,
    ⟨?_, _, rfl, rfl, rfl, rfl, onlyRegs_mk { s with imePending := true } _ 1⟩, ?_,
    fun hbug => ⟨_, exec_halt_of_bug hbug, rfl, rfl, rfl, onlyRegs_mk { s with haltPcHold := true } _ 1⟩,
    fun hbug => ⟨_, exec_halt_of_not_bug hbug, rfl, rfl, onlyRegs_mk { s with mode := .halted } _ 1⟩,
    ?_, _, rfl, rfl, rfl, onlyRegs_mk { s with mode := .stopped } _ 1⟩
  all_goals exact encodedAs_of_encode rfl rfl

/-! ## The undefined opcodes (R366, R401) -/

/-- An instruction of one byte that ends Locked does what the lock does: PC is back on the opcode byte. -/
theorem locks_of {bug : Bool} {i : Instr} {op : Byte} (hw : i.wellFormed = true) (he : encode i = [op])
    (hl : i.modeAfter bug = .locked) (s : State) :
    i.EncodedAs [op] ∧ ∃ t, exec i s = .next t ∧ t.regs = { s.regs with pc := s.opAddr } ∧ t.mode = .locked
      ∧ t.lockReported = false ∧ State.OnlyRegs { s with mode := .locked, lockReported := false } t 1 :=
  ⟨encodedAs_of_encode hw he, s.lock, exec_of_locks hl s, rfl, rfl, rfl,
    onlyRegs_mk { s with mode := .locked, lockReported := false } _ 1⟩

/-- Settles O25: each of the eleven is an opcode byte of its own, and ends Locked (`locks_of`). -/
theorem undefinedOpcodesLock : Obligations.UndefinedOpcodesLock := by
  unfold Obligations.UndefinedOpcodesLock
  intro s p hp
  have hlocks : p.2.wellFormed = true ∧ encode p.2 = [p.1] ∧ p.2.modeAfter false = .locked := by
    revert p
    decide
  obtain ⟨hw, he, hl⟩ := hlocks
  exact locks_of hw he hl s

end Sys2Proof.Machine
end

section
/-! PROOFS. The step by mode: the instruction it decodes, the steps that execute nothing, the dispatch of an interrupt
and the lock (O27 to O31, O35). -/

namespace Sys2Proof

/-- What three bytes decode to, and how many of them the instruction reads (R163). -/
theorem decode_three_eq_ok {b0 b1 b2 : Byte} {i : Instr} {rest : List Byte} (h : decode [b0, b1, b2] = .ok (i, rest)) :
    i = decodeBytes b0 b1 b2 ∧ opLength b0 + rest.length = 3 := by
  rw [decode_three, Except.ok.injEq, Prod.mk.injEq] at h
  obtain ⟨rfl, rfl⟩ := h
  obtain hlen | hlen | hlen := opLength_cases b0 <;> simp [hlen]

namespace Machine

open State

/-! ## The instruction at PC (R10, R420, R611) -/

namespace State

variable (s : State)

/-- A fetch reads the same bytes whatever the OAM copy of the step before cost. -/
theorem clearDmaCost_fetched : s.clearDmaCost.fetched = s.fetched := rfl

theorem operandPC_of_hold (h : s.haltPcHold = true) : s.operandPC = s.regs.pc := if_pos h

theorem operandPC_of_not_hold (h : s.haltPcHold = false) : s.operandPC = s.regs.pc + 1#16 := if_neg (by simp [h])

/-- The state from which a step executes, where PC is past the bytes of the instruction. -/
theorem clearDmaCost_afterFetch {pc : Word}
    (hpc : s.operandPC + BitVec.ofNat 16 (opLength s.opcodeByte - 1) = pc) :
    s.clearDmaCost.afterFetch = { s with
      regs := { s.regs with pc := pc }
      haltPcHold := false
      opAddr := s.regs.pc
      bus := { s.bus with dmaCost := 0 } } := by
  subst hpc
  rfl

end State

/-- A step that executes instruction `i`, whose bytes end before `pc`. -/
theorem State.step_of_fetched {s : State} {i : Instr} {pc : Word} (hs : s.executes) (hi : s.fetched = i)
    (hpc : s.operandPC + BitVec.ofNat 16 (opLength s.opcodeByte - 1) = pc) :
    ∃ t, exec i { s with
        regs := { s.regs with pc := pc }
        haltPcHold := false
        opAddr := s.regs.pc
        bus := { s.bus with dmaCost := 0 } } = .next t
      ∧ step s = .next (advance { eiEffect s.imePending t with cycles := t.cycles + s.bus.dmaCost }) := by
  obtain ⟨hmode, hexec⟩ := hs
  have hstep := s.step_of_executes hmode hexec
  rwa [s.clearDmaCost_fetched, hi, s.clearDmaCost_afterFetch hpc] at hstep

/-- Settles O27: a fetch with no hold reads the three bytes at PC. -/
theorem stepRunsDecodedInstruction : Obligations.StepRunsDecodedInstruction := by
  unfold Obligations.StepRunsDecodedInstruction
  intro s i rest hs hhold hdec
  obtain ⟨hi, hlen⟩ : _ ∧ opLength s.opcodeByte + rest.length = 3 := decode_three_eq_ok hdec
  have hop := s.operandPC_of_not_hold hhold
  have hfetched : s.fetched = i := by
    rw [hi, fetched, hop, BitVec.add_assoc]
    rfl
  have hpc : s.operandPC + BitVec.ofNat 16 (opLength s.opcodeByte - 1)
      = s.regs.pc + BitVec.ofNat 16 (3 - rest.length) := by
    have hpos := opLength_cases s.opcodeByte
    rw [hop, BitVec.add_assoc, show 1#16 = BitVec.ofNat 16 1 from rfl, ← BitVec.ofNat_add]
    congr 2
    omega
  have hstep := step_of_fetched hs hfetched hpc
  rw [← hhold] at hstep
  exact ⟨hi ▸ decodeBytes_wellFormed _ _ _, hstep⟩

/-- Settles O28: with the hold the operand bytes start at PC itself. -/
theorem haltBugReadsOpcodeTwice : Obligations.HaltBugReadsOpcodeTwice := by
  unfold Obligations.HaltBugReadsOpcodeTwice
  intro s i rest hs hhold hdec
  obtain ⟨hi, hlen⟩ : _ ∧ opLength s.opcodeByte + rest.length = 3 := decode_three_eq_ok hdec
  have hop := s.operandPC_of_hold hhold
  have hfetched : s.fetched = i := by
    rw [hi, fetched, hop]
  refine step_of_fetched hs hfetched ?_
  rw [hop]
  congr 2
  omega

/-! ## Steps that execute nothing (R420, R430) -/

namespace State

/-- A step that only lets time pass, where there is no lock to report. -/
theorem step_of_idle {s : State} (hl : s.mode ≠ .locked)
    (h : modeStep s.clearDmaCost = .next (s.clearDmaCost.takes 1)) : step s =
      .next (advance { s with cycles := 1 + s.bus.dmaCost, bus := { s.bus with dmaCost := 0 } }) := by
  rw [step, tick, s.reportLock_of_ne hl, cpuStep, h]
  rfl

theorem modeStep_of_halted {s : State} (hm : s.mode = .halted) (hp : s.pending = 0#5) :
    modeStep s = .next (s.takes 1) := by
  simp only [modeStep, hm, hp, if_true]

theorem modeStep_of_stopped {s : State} (hm : s.mode = .stopped) : modeStep s = .next (s.takes 1) := by
  simp only [modeStep, hm]

end State

/-- Settles O29, by the form of the step in each mode. -/
theorem idleSteps : Obligations.IdleSteps := by
  unfold Obligations.IdleSteps
  intro s
  refine ⟨fun hm hp => ?_, s.step_of_halted, fun hm => ?_, s.step_of_locked⟩
  · exact step_of_idle (by simp [hm]) (modeStep_of_halted hm hp)
  · exact step_of_idle (by simp [hm]) (modeStep_of_stopped hm)

/-- Settles O35: `tick_effect` answers a next state, whose cycles are those of the CPU step and the copy's cost. -/
theorem stepTotal : Obligations.StepTotal := by
  unfold Obligations.StepTotal
  intro s
  obtain ⟨t, hstep, -, heffect⟩ := s.tick_effect
  obtain ⟨hlo, hhi⟩ := heffect.cycles
  refine ⟨_, hstep, ?_, ?_⟩ <;> rw [advance_cycles, takes_cycles] <;> omega

/-! ## Dispatch (R412, R413, R421) -/

/-- A source is pending when it is enabled and requested (R412). -/
theorem State.pending_getLsbD (s : State) {i : Nat} (hi : i < 5) :
    s.pending.getLsbD i = (s.bus.ie.getLsbD i && s.bus.iflag.getLsbD i) := by
  simp [pending, hi]

/-- The state after a dispatch of source `i`, from the bus after the two writes of its push. -/
theorem State.dispatch_eq {s : State} {i : Nat} {c : Bus} (hm : s.mode = .running) (hi : firstPending s.pending = i)
    (hc : (s.bus.write s.params (s.regs.sp - 1#16) (Word.hi s.dispatchPC)).write s.params (s.regs.sp - 2#16)
      (Word.lo s.dispatchPC) = c) :
    s.dispatch = { s with
      regs := { s.regs with sp := s.regs.sp - 2#16, pc := vector i }
      ime := false
      imePending := false
      haltPcHold := false
      cycles := 5
      bus := { c with iflag := c.iflag &&& ~~~ (1#5 <<< i) } } := by
  subst hi hc
  refine ext_fields ?_ rfl rfl ?_ ?_ ?_ ?_ rfl s.dispatch_bus s.dispatch_params
  · rw [dispatch_regs]
    unfold releaseHold
    split <;> rfl
  · exact (dispatch_mode s hm).trans hm.symm
  · exact s.dispatch_haltPcHold
  · simp only [dispatch, releaseHold]
    split <;> rfl
  · simp only [dispatch, releaseHold]
    split <;> rfl

/-- Settles O31: the source is the one `firstPending` finds, and the push is two bus writes. -/
theorem dispatch : Obligations.Dispatch := by
  unfold Obligations.Dispatch
  intro s i ⟨hmode, hime, hpending⟩ hmem hi hset hleast
  have hfirst : firstPending s.clearDmaCost.pending = i := by
    refine firstPending_eq _ i hi ?_ fun j hj => ?_
    · exact (s.pending_getLsbD hi).trans (by simp [hset])
    · refine (s.pending_getLsbD (by omega)).trans ?_
      simpa using hleast j hj
  refine ⟨_, _, Bus.write_storedAt _ _ _ _ hmem, Bus.write_storedAt _ _ _ _ (Bus.write_memInv _ _ _ _ hmem), ?_⟩
  rw [s.step_of_dispatches hmode hime hpending, dispatch_eq (s := s.clearDmaCost) hmode hfirst rfl]
  rfl

/-! ## Locked (R401, R403) -/

/-- Outside the I/O block no address is a register. -/
theorem Cart.place_ne_io (c : Cart) {a : Word} (h : a.toNat < 0xFF00 ∨ 0xFF80 ≤ a.toNat) (r : IoReg) :
    c.place a ≠ .io r := by
  unfold Cart.place
  dsimp only
  split_ifs
  · nofun
  · nofun
  · cases c.ramTarget a.toNat <;> nofun
  · nofun
  · nofun
  · nofun
  · nofun
  · omega
  · nofun
  · nofun

/-- The advance of the devices is seen in the I/O block only. -/
theorem Bus.peek_advance (b : Bus) (prm : Params) (t : Nat) {a : Word} (h : a.toNat < 0xFF00 ∨ 0xFF80 ≤ a.toNat) :
    (b.advance prm t).peek a = b.peek a := by
  have hplace : (b.advance prm t).cart.place a = b.cart.place a := b.cart.rtcAdvance_place prm t a
  rw [peek, hplace, peek]
  cases hp : b.cart.place a with
  | io r => exact absurd hp (b.cart.place_ne_io h r)
  | rtc i =>
    simp only [readPlace, advance, Cart.rtcAdvance]
    split <;> rfl
  | _ => rfl

/-- What a run of Locked steps leaves. -/
structure State.LockedFrom (s t : State) : Prop where
  mode : t.mode = .locked
  regs : t.regs = s.regs
  ime : t.ime = s.ime
  imePending : t.imePending = s.imePending
  reads : ∀ a, a.toNat < 0xFF00 ∨ 0xFF80 ≤ a.toNat → t.bus.peek a = s.bus.peek a

namespace State

theorem LockedFrom.refl {s : State} (h : s.mode = .locked) : s.LockedFrom s := ⟨h, rfl, rfl, rfl, fun _ _ => rfl⟩

theorem LockedFrom.trans {s t u : State} (h : s.LockedFrom t) (h' : t.LockedFrom u) : s.LockedFrom u :=
  ⟨h'.mode, h'.regs.trans h.regs, h'.ime.trans h.ime, h'.imePending.trans h.imePending,
    fun a ha => (h'.reads a ha).trans (h.reads a ha)⟩

/-- A Locked step leaves what a lock leaves, and the lock is reported from then on. -/
theorem lockedFrom_of_step {s t : State} (h : s.mode = .locked) (hstep : step s = .next t) :
    s.LockedFrom t ∧ t.lockReported = true := by
  rw [s.step_of_locked h, Host.Outcome.next.injEq] at hstep
  subst hstep
  exact ⟨⟨h, rfl, rfl, rfl, fun a ha => Bus.peek_advance _ _ _ ha⟩, rfl⟩

theorem lockedFrom_of_steps {n : Nat} {s t : State} (h : s.mode = .locked) (hsteps : Steps n s t) :
    s.LockedFrom t ∧ (0 < n ∨ s.lockReported = true → t.lockReported = true) := by
  induction hsteps with
  | zero s => exact ⟨.refl h, fun hr => hr.resolve_left (Nat.lt_irrefl 0)⟩
  | succ first rest ih =>
    obtain ⟨hfirst, hreported⟩ := lockedFrom_of_step h first
    obtain ⟨hrest, hkept⟩ := ih hfirst.mode
    exact ⟨hfirst.trans hrest, fun _ => hkept (.inr hreported)⟩

end State

/-- Settles O30, by induction on the steps. -/
theorem lockedForever : Obligations.LockedForever := by
  unfold Obligations.LockedForever
  intro n s t h hsteps
  obtain ⟨⟨hmode, hregs, hime, himePending, hreads⟩, hreported⟩ := lockedFrom_of_steps h hsteps
  exact ⟨hmode, hregs, hime, himePending, hreads, fun hn => by simp [reportsLock, hreported (.inl hn)],
    by simp [reportsLock, h]⟩

end Machine

end Sys2Proof
end

section
/-! PROOFS. The timer's advance in closed form, and the joypad's lines (O45, O46). -/

namespace Sys2Proof.Machine

/-! ## The timer (R450, R454 to R456) -/

namespace Timer

theorem period_cases (tm : Timer) : tm.period = 1024 ∨ tm.period = 16 ∨ tm.period = 64 ∨ tm.period = 256 := by
  unfold period
  split <;> simp

/-- The number of increments in `t` T-cycles: the multiples of the period that `sysclk` passes while TIMA counts. -/
def increments (tm : Timer) (t : Nat) : Nat :=
  if tm.enabled = true then (tm.sysclk.toNat + t) / tm.period - tm.sysclk.toNat / tm.period else 0

/-- What `k` increments make of TIMA, and whether one of them overflowed: it counts up, and restarts from TMA (R455). -/
structure Counts (tma tima k tima' : Nat) (overflowed : Bool) : Prop where
  below : tima + k < 256 → tima' = tima + k ∧ overflowed = false
  beyond : 256 ≤ tima + k → tima' = tma + (tima + k - 256) % (256 - tma) ∧ overflowed = true

theorem Counts.zero (tma : Nat) {tima : Nat} (h : tima < 256) : Counts tma tima 0 tima false :=
  ⟨fun _ => ⟨rfl, rfl⟩, by omega⟩

/-- An increment that does not overflow, before the others. -/
theorem Counts.step {tma tima k tima' : Nat} {o : Bool} (h : Counts tma (tima + 1) k tima' o) :
    Counts tma tima (k + 1) tima' o := by
  obtain ⟨hbelow, hbeyond⟩ := h
  rw [Nat.add_right_comm, Nat.add_assoc] at hbelow hbeyond
  exact ⟨hbelow, hbeyond⟩

/-- An increment that overflows, before the others. -/
theorem Counts.overflow {tma k tima' : Nat} {o : Bool} (htma : tma < 256) (h : Counts tma tma k tima' o) :
    Counts tma 255 (k + 1) tima' true := by
  refine ⟨by omega, fun _ => ⟨?_, rfl⟩⟩
  rw [show 255 + (k + 1) - 256 = k by omega]
  by_cases hk : tma + k < 256
  · rw [(h.below hk).1, Nat.mod_eq_of_lt (by omega)]
  · rw [(h.beyond (by omega)).1, show tma + k - 256 = k - (256 - tma) by omega, ← Nat.mod_eq_sub_mod (by omega)]

/-- One T-cycle passes at most one multiple of the period, and increments TIMA exactly then. -/
theorem tick_eq (tm : Timer) :
    (tm.increments 1 = 0 ∧ tm.tick = ({ tm with sysclk := tm.sysclk + 1#16 }, false))
      ∨ (tm.increments 1 = 1 ∧ tm.tick = increment { tm with sysclk := tm.sysclk + 1#16 }) := by
  have hlt := tm.sysclk.isLt
  have hnext : (tm.sysclk + 1#16).toNat = (tm.sysclk.toNat + 1) % 65536 := by simp
  by_cases he : tm.enabled = true
  · have hcount : tm.increments 1 = if (tm.sysclk + 1#16).toNat % tm.period = 0 then 1 else 0 := by
      rw [increments, if_pos he, hnext]
      obtain h | h | h | h := tm.period_cases <;> rw [h] <;> split <;> omega
    by_cases hz : (tm.sysclk + 1#16).toNat % tm.period = 0
    · exact .inr ⟨hcount.trans (if_pos hz), if_pos ⟨he, hz⟩⟩
    · exact .inl ⟨hcount.trans (if_neg hz), if_neg fun h => hz h.2⟩
  · exact .inl ⟨if_neg he, if_neg fun h => he h.1⟩

theorem increment_eq (tm : Timer) :
    (tm.tima.toNat = 255 ∧ tm.increment = ({ tm with tima := tm.tma }, true))
      ∨ (tm.tima.toNat ≠ 255 ∧ tm.increment = ({ tm with tima := tm.tima + 1#8 }, false)) := by
  have h255 : tm.tima = 0xFF#8 ↔ tm.tima.toNat = 255 := by rw [← BitVec.toNat_inj]; rfl
  by_cases h : tm.tima = 0xFF#8
  · exact .inl ⟨h255.1 h, if_pos h⟩
  · exact .inr ⟨mt h255.2 h, if_neg h⟩

/-- The increments of `t + 1` T-cycles are those of the first and those of the rest. -/
theorem increments_succ {tm tm' : Timer} (hclk : tm'.sysclk = tm.sysclk + 1#16) (htac : tm'.tac = tm.tac) (t : Nat) :
    tm.increments (t + 1) = tm'.increments t + tm.increments 1 := by
  have hlt := tm.sysclk.isLt
  have hnext : (tm.sysclk + 1#16).toNat = (tm.sysclk.toNat + 1) % 65536 := by simp
  have henabled : tm'.enabled = tm.enabled := by rw [enabled, htac, enabled]
  have hperiod : tm'.period = tm.period := by rw [period, htac, period]
  simp only [increments, henabled, hperiod, hclk, hnext]
  split
  · obtain h | h | h | h := tm.period_cases <;> rw [h] <;> omega
  · rfl

/-- One T-cycle, as a step of the count. -/
theorem tick_counts (tm : Timer) : ∃ tima o,
    tm.tick = ({ tm with sysclk := tm.sysclk + 1#16, tima := tima }, o)
      ∧ ∀ {k tima' o'}, Counts tm.tma.toNat tima.toNat k tima' o' →
        Counts tm.tma.toNat tm.tima.toNat (k + tm.increments 1) tima' (o || o') := by
  obtain ⟨hcount, htick⟩ | ⟨hcount, htick⟩ := tm.tick_eq
  · exact ⟨tm.tima, false, htick, fun h => hcount ▸ h⟩
  · rw [htick, hcount]
    obtain ⟨hmax, hinc⟩ | ⟨hmax, hinc⟩ := increment_eq { tm with sysclk := tm.sysclk + 1#16 }
    · exact ⟨tm.tma, true, hinc, fun h => hmax ▸ h.overflow tm.tma.isLt⟩
    · have htima : (tm.tima + 1#8).toNat = tm.tima.toNat + 1 := by
        have hlt := tm.tima.isLt
        change tm.tima.toNat ≠ 255 at hmax
        simp only [BitVec.toNat_add, BitVec.toNat_ofNat]
        omega
      exact ⟨tm.tima + 1#8, false, hinc, fun h => .step (htima ▸ h)⟩

/-- What `t` T-cycles do: the counter goes up by `t`, and TIMA counts the increments. -/
structure Advanced (t : Nat) (tm : Timer) (r : Timer × Bool) : Prop where
  sysclk : r.1.sysclk = BitVec.ofNat 16 (tm.sysclk.toNat + t)
  tma : r.1.tma = tm.tma
  tac : r.1.tac = tm.tac
  counts : Counts tm.tma.toNat tm.tima.toNat (tm.increments t) r.1.tima.toNat r.2

theorem Advanced.zero (tm : Timer) : Advanced 0 tm (tm, false) := by
  refine ⟨by simp, rfl, rfl, ?_⟩
  rw [show tm.increments 0 = 0 by simp [increments]]
  exact .zero _ tm.tima.isLt

/-- A T-cycle, then `t` more. -/
theorem Advanced.succ {t : Nat} {tm : Timer} {r : Timer × Bool} (h : Advanced t tm.tick.1 r) :
    Advanced (t + 1) tm (r.1, tm.tick.2 || r.2) := by
  obtain ⟨tima, o, htick, hcount⟩ := tm.tick_counts
  rw [htick] at h ⊢
  obtain ⟨hclk, htma, htac, hcounts⟩ := h
  refine ⟨hclk.trans ?_, htma, htac, ?_⟩
  · apply BitVec.eq_of_toNat_eq
    simp only [BitVec.toNat_ofNat, BitVec.toNat_add]
    omega
  · rw [increments_succ (tm' := { tm with sysclk := tm.sysclk + 1#16, tima := tima }) rfl rfl]
    exact hcount hcounts

theorem advance_advanced (t : Nat) (tm : Timer) : Advanced t tm (advance t tm) := by
  induction t generalizing tm with
  | zero => exact .zero tm
  | succ t ih => exact .succ (ih tm.tick.1)

end Timer

/-- Settles O45, by induction on the T-cycles, each of which passes at most one multiple of the period. -/
theorem timerClosedForm : Obligations.TimerClosedForm := by
  unfold Obligations.TimerClosedForm
  intro tm t
  obtain ⟨hclk, htma, htac, hbelow, hbeyond⟩ := tm.advance_advanced t
  exact ⟨hclk, htma, htac, hbelow, hbeyond⟩

/-! ## The joypad (R460 to R466) -/

namespace Joypad

/-- The level of line `k`: low iff a pressed button of a selected group is on it (R461). -/
def line (select : BitVec 2) (buttons : Byte) (k : Nat) : Bool :=
  !((!select.getLsbD 0 && buttons.getLsbD k) || (!select.getLsbD 1 && buttons.getLsbD (4 + k)))

theorem lines_getLsbD (j : Joypad) {k : Nat} (hk : k < 4) : j.lines.getLsbD k = line j.select j.buttons k := by
  simp only [lines, line, BitVec.getLsbD_not, BitVec.getLsbD_or, hk, decide_true, Bool.true_and]
  cases j.select.getLsbD 0 <;> cases j.select.getLsbD 1 <;> simp [hk]

/-- The low bits of P1 are the lines (R463). -/
theorem p1_getLsbD (j : Joypad) {k : Nat} (hk : k < 4) : j.p1.getLsbD k = line j.select j.buttons k :=
  (BitVec.getLsbD_append.trans (if_pos hk)).trans (j.lines_getLsbD hk)

/-- An evaluation sees a fall iff a line that was high is low (R464). -/
theorem evaluate_fell_iff (j : Joypad) : j.evaluate.2 = true ↔
    ∃ k < 4, j.lastLines.getLsbD k = true ∧ j.lines.getLsbD k = false := by
  change decide _ = true ↔ _
  generalize j.lastLines = x
  generalize j.lines = y
  revert x y
  decide +kernel

/-- An evaluation after a change from `i`, whose remembered lines are its lines. -/
theorem evaluate_fell_iff_of_inv {i j : Joypad} (hi : i.inv = true) (hj : j.lastLines = i.lastLines) :
    j.evaluate.2 = true ↔ ∃ k < 4, line i.select i.buttons k = true ∧ line j.select j.buttons k = false := by
  have hlast : i.lastLines = i.lines := by simpa [inv] using hi
  rw [j.evaluate_fell_iff, hj, hlast]
  refine exists_congr fun k => and_congr_right fun hk => ?_
  rw [i.lines_getLsbD hk, j.lines_getLsbD hk]

end Joypad

/-- The machine whose joypad was changed to `j` and evaluated, as P1 and the host's buttons do (R462, R465). -/
def State.joyChanged (s : State) (j : Joypad) : State := s.withBus (s.bus.joyEvaluate j)

namespace State

variable (s : State)

theorem memRead_p1 : s.memRead 0xFF00#16 = s.bus.joy.p1 := s.bus.read_address s.params .p1

theorem joyChanged_p1 (j : Joypad) : (s.joyChanged j).memRead 0xFF00#16 = j.p1 := memRead_p1 _

theorem memWrite_p1 (v : Byte) :
    s.memWrite 0xFF00#16 v = s.joyChanged { s.bus.joy with select := v.extractLsb' 4 2 } :=
  congrArg s.withBus (s.bus.write_address s.params v .p1)

/-- A fall requests the interrupt (R464). -/
theorem joyChanged_iflag (j : Joypad) :
    (s.joyChanged j).bus.iflag = s.bus.iflag ||| if j.evaluate.2 = true then 0b10000#5 else 0#5 := rfl

/-- A fall ends mode Stopped, and nothing else changes the mode (R466). -/
theorem joyChanged_mode {j : Joypad} (hj : j.lastLines = s.bus.joy.lastLines) : (s.joyChanged j).mode =
    if s.mode = .stopped ∧ j.evaluate.2 = true then .running else s.mode := by
  simp [joyChanged, withBus, Joypad.evaluate, hj, Bus.joyEvaluate, Bus.request]

variable {s} {j : Joypad} (hinv : s.bus.joy.inv = true) (hj : j.lastLines = s.bus.joy.lastLines)
include hinv hj

/-- What a change of the joypad does where a line falls. -/
theorem joyChanged_of_fall (h : ∃ k < 4, Joypad.line s.bus.joy.select s.bus.joy.buttons k = true
      ∧ Joypad.line j.select j.buttons k = false) :
    (s.joyChanged j).bus.iflag = s.bus.iflag ||| 0b10000#5
      ∧ (s.mode = .stopped → (s.joyChanged j).mode = .running) := by
  have hfell := (Joypad.evaluate_fell_iff_of_inv hinv hj).2 h
  refine ⟨?_, fun hm => (s.joyChanged_mode hj).trans (if_pos ⟨hm, hfell⟩)⟩
  rw [joyChanged_iflag, if_pos hfell]

/-- What a change of the joypad does where no line falls. -/
theorem joyChanged_of_no_fall (h : ∀ k < 4, Joypad.line s.bus.joy.select s.bus.joy.buttons k = true →
      Joypad.line j.select j.buttons k = true) :
    (s.joyChanged j).bus.iflag = s.bus.iflag ∧ (s.joyChanged j).mode = s.mode := by
  have hfell : ¬ j.evaluate.2 = true := by
    rw [Joypad.evaluate_fell_iff_of_inv hinv hj]
    rintro ⟨k, hk, hhigh, hlow⟩
    rw [h k hk hhigh] at hlow
    cases hlow
  refine ⟨?_, (s.joyChanged_mode hj).trans (if_neg fun h => hfell h.2)⟩
  rw [joyChanged_iflag, if_neg hfell, BitVec.or_zero]

end State

/-- Settles O46: P1 and the host's buttons both change the joypad and evaluate its lines. -/
theorem joypadLines : Obligations.JoypadLines := by
  unfold Obligations.JoypadLines
  intro s v hinv
  have hselect : Joypad.lastLines { s.bus.joy with select := v.extractLsb' 4 2 } = s.bus.joy.lastLines := rfl
  have hbuttons : Joypad.lastLines { s.bus.joy with buttons := v } = s.bus.joy.lastLines := rfl
  have hset : s.setButtons v = s.joyChanged { s.bus.joy with buttons := v } := rfl
  dsimp only
  rw [s.memWrite_p1, hset, s.joyChanged_p1, s.joyChanged_p1, s.memRead_p1]
  exact ⟨fun k => Joypad.p1_getLsbD _, fun k => Joypad.p1_getLsbD _, Joypad.p1_high _, fun k => Joypad.p1_getLsbD _,
    fun h => (State.joyChanged_of_fall hinv hselect h).1, fun h => (State.joyChanged_of_no_fall hinv hselect h).1,
    State.joyChanged_of_fall hinv hbuttons, State.joyChanged_of_no_fall hinv hbuttons⟩

end Sys2Proof.Machine
end

section
/-! PROOFS. The PPU: the position in the frame, the STAT line, the LCD switch, the selection of objects, a line of
background, and the priority among objects (O47 to O52). -/

namespace Sys2Proof.Machine

open Ppu

/-! ## The position in the frame (R480, R485, R491, R504) -/

theorem Ppu.advance_of_on {p : Ppu} (h : p.lcdOn = true) (prm : Params) (vram oam : Memory) (t : Nat) :
    p.advance prm vram oam t = dots prm vram oam t p := if_pos h

theorem Ppu.advance_of_off {p : Ppu} (h : p.lcdOn = false) (prm : Params) (vram oam : Memory) (t : Nat) :
    p.advance prm vram oam t = (p, 0#5) := if_neg (by simp [h])

/-- What `t` dots do to the position, and when they request V-blank. -/
structure Ppu.Moved (t : Nat) (p : Ppu) (r : Ppu × BitVec 5) : Prop where
  position : r.1.position = (p.position + t) % 70224
  ly : r.1.ly < 154
  dot : r.1.dot < 456
  vblank : r.2.getLsbD 0 = true ↔ ∃ k, 1 ≤ k ∧ k ≤ t ∧ (p.position + k) % 70224 = 65664

theorem Ppu.position_lt {p : Ppu} (h1 : p.ly < 154) (h2 : p.dot < 456) : p.position < 70224 := by
  unfold position
  omega

theorem Ppu.dots_succ (prm : Params) (vram oam : Memory) (t : Nat) (p : Ppu) : dots prm vram oam (t + 1) p =
    ((dots prm vram oam t (p.dotStep prm vram oam).1).1,
      (p.dotStep prm vram oam).2 ||| (dots prm vram oam t (p.dotStep prm vram oam).1).2) := rfl

/-- An event of `t + 1` dots is one of the first dot or of the `t` others. -/
theorem exists_dot_succ {t : Nat} {event : Nat → Prop} : (∃ k, 1 ≤ k ∧ k ≤ t + 1 ∧ event k) ↔
    event 1 ∨ ∃ k, 1 ≤ k ∧ k ≤ t ∧ event (1 + k) := by
  constructor
  · rintro ⟨k, hlo, hhi, h⟩
    obtain rfl | hlt := Nat.eq_or_lt_of_le hlo
    · exact .inl h
    · exact .inr ⟨k - 1, by omega, by omega, by rwa [Nat.add_sub_of_le hlo]⟩
  · rintro (h | ⟨k, hlo, hhi, h⟩)
    · exact ⟨1, le_rfl, by omega, h⟩
    · exact ⟨1 + k, by omega, by omega, h⟩

theorem Ppu.dots_moved (prm : Params) (vram oam : Memory) (t : Nat) {p : Ppu} (h1 : p.ly < 154) (h2 : p.dot < 456) :
    Moved t p (dots prm vram oam t p) := by
  have hlt := position_lt h1 h2
  induction t generalizing p with
  | zero =>
    refine ⟨(Nat.mod_eq_of_lt hlt).symm, h1, h2, ?_⟩
    simp only [dots, BitVec.getLsbD_zero, Bool.false_eq_true, false_iff]
    omega
  | succ t ih =>
    obtain ⟨hpos, hvblank, hly, hdot⟩ := p.dotStep_position prm vram oam h1 h2
    obtain ⟨hpos', hly', hdot', hvblank'⟩ := ih hly hdot (position_lt hly hdot)
    have hnow : p.position + 1 = 65664 ↔ (p.position + 1) % 70224 = 65664 := by omega
    simp only [hpos, Nat.mod_add_mod, Nat.add_assoc] at hpos' hvblank'
    rw [dots_succ]
    refine ⟨by rw [Nat.add_comm t 1]; exact hpos', hly', hdot', ?_⟩
    rw [BitVec.getLsbD_or, Bool.or_eq_true, hvblank, decide_eq_true_eq, hnow, hvblank', exists_dot_succ]

/-- Settles O47, by induction on the dots. -/
theorem framePosition : Obligations.FramePosition := by
  unfold Obligations.FramePosition
  intro prm vram oam t p hon hly hdot
  rw [advance_of_on hon]
  obtain ⟨hpos, hly', hdot', hvblank⟩ := dots_moved prm vram oam t hly hdot
  exact ⟨hpos, hly', hdot', hvblank⟩

/-! ## The STAT line (R482, R486, R489) -/

namespace Ppu

variable (p : Ppu)

/-- The mode as a number (R486). -/
def modeNumber : Nat :=
  if p.lcdc.getLsbD 7 = false then 0
  else if 144 ≤ p.ly then 1
  else if p.dot < 80 then 2
  else if p.dot < 80 + p.mode3Len then 3
  else 0

theorem mode_code : p.mode.code = BitVec.ofNat 2 p.modeNumber := by
  unfold mode modeNumber lcdOn
  split_ifs <;> rfl

theorem modeNumber_lt : p.modeNumber < 4 := by
  unfold modeNumber
  split_ifs <;> decide

/-- A mode is the one that its number says. -/
theorem mode_eq_iff (m : PpuMode) : p.mode = m ↔ p.modeNumber = m.code.toNat := by
  have hcode : p.mode.code.toNat = p.modeNumber := by
    rw [mode_code, BitVec.toNat_ofNat, Nat.mod_eq_of_lt p.modeNumber_lt]
  rw [← hcode]
  cases m <;> cases p.mode <;> decide

theorem statRead_mode : p.statRead.extractLsb' 0 2 = BitVec.ofNat 2 p.modeNumber := by
  rw [← mode_code]
  unfold statRead
  generalize p.stat = x
  generalize p.coincides = y
  generalize p.mode.code = z
  revert x y z
  decide +kernel

/-- The level of the STAT line as the enabled conditions on the mode and on LY = LYC (R489). -/
def StatHigh : Prop :=
  p.lcdc.getLsbD 7 = true ∧ ((p.stat.getLsbD 3 = true ∧ p.ly = p.lyc.toNat)
    ∨ (p.stat.getLsbD 2 = true ∧ p.modeNumber = 2) ∨ (p.stat.getLsbD 1 = true ∧ p.modeNumber = 1)
    ∨ (p.stat.getLsbD 0 = true ∧ p.modeNumber = 0))

theorem statLevel_iff : p.statLevel = true ↔ p.StatHigh := by
  simp only [statLevel, StatHigh, lcdOn, coincides, Bool.and_eq_true, Bool.or_eq_true, decide_eq_true_eq,
    mode_eq_iff, or_assoc]
  rfl

/-- What an operation that ends in an evaluation of the STAT line does: the line takes its level, and a rise from the
level before, no other change, requests the interrupt. -/
def StatEvaluated (r : Ppu × BitVec 5) : Prop :=
  (r.1.statLine = true ↔ r.1.StatHigh) ∧ (r.2.getLsbD 1 = true ↔ p.statLine = false ∧ r.1.StatHigh)

/-- An evaluation of a PPU `q` that has the line of `p`, beside other requests. -/
theorem statEvaluated_of {p q : Ppu} (h : q.statLine = p.statLine) {m : BitVec 5} (hm : m.getLsbD 1 = false) :
    p.StatEvaluated (q.evaluateStat.1, m ||| q.evaluateStat.2) := by
  refine ⟨q.statLevel_iff, ?_⟩
  change _ ↔ _ ∧ q.StatHigh
  rw [BitVec.getLsbD_or, hm, evaluateStat_request, h, ← q.statLevel_iff]
  cases q.statLevel <;> cases p.statLine <;> decide

/-- An evaluation alone. -/
theorem statEvaluated_evaluateStat {p q : Ppu} (h : q.statLine = p.statLine) : p.StatEvaluated q.evaluateStat := by
  have h0 := statEvaluated_of h (m := 0#5) rfl
  rwa [BitVec.zero_or] at h0

/-- The parts of a dot step before its evaluation leave the line, and request V-blank at most. -/
theorem ended_statLine (prm : Params) (vram oam : Memory) :
    ((p.counted.scanned prm oam).composed vram oam).ended.1.statLine = p.statLine
      ∧ ((p.counted.scanned prm oam).composed vram oam).ended.2.getLsbD 1 = false := by
  obtain ⟨-, -, -, -, -, -, hscan, -⟩ := p.counted.scanned_spec prm oam
  obtain ⟨-, -, -, -, -, -, -, hcompose, -⟩ := (p.counted.scanned prm oam).composed_spec vram oam
  obtain ⟨-, -, -, -, hend, hcase⟩ := ((p.counted.scanned prm oam).composed vram oam).ended_spec
  refine ⟨hend.trans (hcompose.trans hscan), ?_⟩
  obtain ⟨h, -⟩ | ⟨-, -, ⟨-, -, -, h⟩ | ⟨-, -, -, h⟩ | ⟨-, -, -, -, h⟩⟩ := hcase <;> simp [h, irqVblank]

theorem dotStep_statEvaluated (prm : Params) (vram oam : Memory) : p.StatEvaluated (p.dotStep prm vram oam) := by
  obtain ⟨hline, hrequest⟩ := p.ended_statLine prm vram oam
  exact statEvaluated_of hline hrequest

/-! ## The LCD switch (R481, R493) -/

/-- The PPU with its LCD just switched off (R493). -/
def switchedOff (v : Byte) : Ppu :=
  { p with lcdc := v, ly := 0, dot := 0, winLine := 0, winTriggered := false, lineObjs := [], statLine := false }

variable {p} {v : Byte}

/-- An LCD that is off holds the STAT line low (R489). -/
theorem statLevel_of_off (h : p.lcdOn = false) : p.statLevel = false := by simp [statLevel, h]

theorem writeLcdc_of_off (hp : p.lcdOn = true) (hv : v.getLsbD 7 = false) :
    p.writeLcdc v = (p.switchedOff v).evaluateStat := by
  have hq : lcdOn { p with lcdc := v } = false := hv
  simp [writeLcdc, hp, hq, switchedOff]

theorem writeLcdc_of_on (hp : p.lcdOn = false) (hv : v.getLsbD 7 = true) :
    p.writeLcdc v = evaluateStat { p with lcdc := v, ly := 0, dot := 0 } := by
  have hq : lcdOn { p with lcdc := v } = true := hv
  simp [writeLcdc, hp, hq]

theorem writeLcdc_of_same (h : p.lcdOn = v.getLsbD 7) : p.writeLcdc v = evaluateStat { p with lcdc := v } := by
  have hq : lcdOn { p with lcdc := v } = p.lcdOn := h.symm
  simp [writeLcdc, hq]

/-- Switching the LCD off leaves the STAT line low and requests nothing. -/
theorem evaluateStat_switchedOff (hv : v.getLsbD 7 = false) :
    (p.switchedOff v).evaluateStat = (p.switchedOff v, 0#5) := by
  have hlevel : (p.switchedOff v).statLevel = false := statLevel_of_off hv
  rw [evaluateStat, hlevel]
  rfl

theorem writeLcdc_statEvaluated (p : Ppu) (v : Byte) : p.StatEvaluated (p.writeLcdc v) := by
  cases hp : p.lcdOn <;> cases hv : v.getLsbD 7
  case true.false =>
    have hlow : ¬ (p.switchedOff v).StatHigh := fun ⟨hon, _⟩ => Bool.eq_false_iff.1 hv hon
    rw [writeLcdc_of_off hp hv, evaluateStat_switchedOff hv]
    exact ⟨iff_of_false Bool.false_ne_true hlow,
      iff_of_false (by simp) fun h => hlow h.2⟩
  case false.true => exact writeLcdc_of_on hp hv ▸ statEvaluated_evaluateStat rfl
  all_goals exact writeLcdc_of_same (hp.trans hv.symm) ▸ statEvaluated_evaluateStat rfl

end Ppu

/-- Settles O48: a dot step and the three writes each end in an evaluation of the STAT line. -/
theorem statLine : Obligations.StatLine := by
  unfold Obligations.StatLine
  intro prm vram oam p v
  refine ⟨fun r hr => ?_, p.statRead_mode⟩
  have hevaluated : ∀ r ∈ [p.dotStep prm vram oam, p.writeStat v, p.writeLyc v, p.writeLcdc v], p.StatEvaluated r := by
    simp only [List.forall_mem_cons]
    exact ⟨p.dotStep_statEvaluated prm vram oam, statEvaluated_evaluateStat rfl, statEvaluated_evaluateStat rfl,
      p.writeLcdc_statEvaluated v, nofun⟩
  exact hevaluated r hr

/-- Settles O49: an LCD just switched off has its STAT line low, and one that was off shows line 0 with no window row
counted. -/
theorem lcdSwitch : Obligations.LcdSwitch := by
  unfold Obligations.LcdSwitch
  intro prm vram oam p v t hinv
  refine ⟨fun hp hv => ?_, fun hp hv => ?_⟩
  · have hoff : (p.switchedOff v).lcdOn = false := hv
    rw [writeLcdc_of_off hp hv, evaluateStat_switchedOff hv]
    exact ⟨rfl, rfl, mode_of_lcd_off hoff, advance_of_off hoff prm vram oam t⟩
  · obtain ⟨-, hidle, -⟩ := (p.inv_iff prm).1 hinv
    obtain ⟨-, -, hwin, -⟩ := hidle.resolve_left (by simp [hp])
    rw [writeLcdc_of_on hp hv]
    exact ⟨rfl, rfl, hwin, by simp [mode, lcdOn, hv], rfl⟩

/-! ## Object selection (R496) -/

/-- In a strictly rising list, a member of the head lies below a member left out of it. -/
theorem lt_of_mem_take {xs : List Nat} (hxs : xs.Pairwise (· < ·)) {k m n : Nat} (hm : m ∈ xs.take k) (hn : n ∈ xs)
    (hout : n ∉ xs.take k) : m < n := by
  rw [← List.take_append_drop k xs, List.pairwise_append] at hxs
  obtain ⟨-, -, hacross⟩ := hxs
  rw [← List.take_append_drop k xs, List.mem_append] at hn
  exact hacross m hm n (hn.resolve_left hout)

/-- A member is left out of the head only where the head is full. -/
theorem length_take_of_not_mem {xs : List Nat} {k n : Nat} (hn : n ∈ xs) (hout : n ∉ xs.take k) :
    (xs.take k).length = k := by
  refine List.length_take_of_le (Nat.le_of_not_lt fun hlt => hout ?_)
  rwa [List.take_of_length_le hlt.le]

namespace Ppu

/-- The objects that cover the line, in OAM order. -/
def objsOnLine (p : Ppu) (oam : Memory) : List Nat := (List.range 40).filter (p.objOnLine oam)

/-- Those that are selected: the first ones, up to the limit. -/
theorem scanEnd_lineObjs_fst (prm : Params) (oam : Memory) (p : Ppu) :
    (p.scanEnd prm oam).lineObjs.map Prod.fst = (p.objsOnLine oam).take prm.objPerLine := by
  change (((p.objsOnLine oam).take prm.objPerLine).map fun n => (n, oam.read (4 * n))).map Prod.fst = _
  rw [List.map_map]
  exact List.map_id _

theorem objsOnLine_pairwise (p : Ppu) (oam : Memory) : (p.objsOnLine oam).Pairwise (· < ·) :=
  List.pairwise_lt_range.filter _

/-- Which objects those are. -/
theorem mem_objsOnLine {p : Ppu} {oam : Memory} {n : Nat} : n ∈ p.objsOnLine oam ↔ n < 40
    ∧ (oam.read (4 * n)).toNat ≤ p.ly + 16
    ∧ p.ly + 16 < (oam.read (4 * n)).toNat + if p.lcdc.getLsbD 2 = true then 16 else 8 := by
  simp [objsOnLine, objOnLine, objHeight]

end Ppu

/-- Settles O50: the selection is a head of the rising list of the objects that cover the line. -/
theorem objectSelection : Obligations.ObjectSelection := by
  unfold Obligations.ObjectSelection
  intro prm oam p
  dsimp only
  rw [scanEnd_lineObjs_fst]
  have hrising := p.objsOnLine_pairwise oam
  refine ⟨hrising.sublist (List.take_sublist _ _), List.length_take_le _ _,
    fun n hn => mem_objsOnLine.1 (List.mem_of_mem_take hn), fun n hlt hcovers hout => ?_⟩
  have hn := mem_objsOnLine.2 ⟨hlt, hcovers⟩
  exact ⟨length_take_of_not_mem hn hout, fun m hm => lt_of_mem_take hrising hm hn hout⟩

/-! ## A line of background (R483, R494, R497, R501, R503) -/

namespace Ppu

/-- A composed line in the framebuffer. -/
theorem composeLine_cell (vram oam : Memory) (p : Ppu) {x : Nat} (hx : x < 160) (hly : p.ly < 144) :
    ((p.composeLine vram oam).framebuffer[p.ly]?.bind (·[x]?)) = some (p.cell vram oam x) := by
  simp [composeLine, composeRow, hx, hly]

theorem composeLine_other (vram oam : Memory) (p : Ppu) {y : Nat} (hy : y ≠ p.ly) :
    (p.composeLine vram oam).framebuffer[y]? = p.framebuffer[y]? := by
  simp [composeLine, Ne.symm hy]

theorem composeLine_winLine {p : Ppu} (h : p.windowVisible = false) (vram oam : Memory) :
    (p.composeLine vram oam).winLine = p.winLine := by
  simp [composeLine, h]

/-- With objects off and the window not shown, a cell is the background's colour through BGP. -/
theorem cell_of_background {p : Ppu} (hbg : p.lcdc.getLsbD 0 = true) (hobj : p.lcdc.getLsbD 1 = false)
    (hwin : p.windowVisible = false) (vram oam : Memory) (x : Nat) : p.cell vram oam x = shade p.bgp
      (p.mapPixel vram (p.lcdc.getLsbD 3) ((x + p.scx.toNat) % 256) ((p.ly + p.scy.toNat) % 256)) := by
  have hnone : p.objWinner vram oam x = none := if_neg (Bool.eq_false_iff.1 hobj)
  have hback : p.backPixel vram x = p.bgPixel vram x := if_neg (by simp [hwin])
  rw [cell, hnone, hback, bgPixel, if_pos hbg]

/-- The offset of a background tile, with the signed index of the second addressing mode written out (R494). -/
theorem tileBase_eq (p : Ppu) (n : Byte) : p.tileBase n =
    ((if p.lcdc.getLsbD 4 = true then 16 * n.toNat
      else if n.toNat < 128 then 0x1000 + 16 * n.toNat else 0x1000 + 16 * n.toNat - 4096 : Nat) : Int) := by
  have := n.isLt
  rw [tileBase, BitVec.toInt_eq_toNat_cond]
  split_ifs <;> omega

/-- A pixel of a tile that lies in VRAM: two bits of two bytes of its row. -/
theorem tilePixel_toNat (vram : Memory) (base r col : Nat) : (tilePixel vram base r col).toNat =
    2 * ((vram.read (base + 2 * r + 1)).getLsbD (7 - col)).toNat
      + ((vram.read (base + 2 * r)).getLsbD (7 - col)).toNat := by
  have hat (o : Nat) : vramAt vram (o : Int) = vram.read o := if_pos (Int.natCast_nonneg o)
  have hlo : (base : Int) + 2 * r = (base + 2 * r : Nat) := by push_cast; rfl
  have hhi : (base : Int) + 2 * r + 1 = (base + 2 * r + 1 : Nat) := by push_cast; rfl
  rw [tilePixel, hhi, hlo, hat, hat]
  generalize (vram.read (base + 2 * r + 1)).getLsbD (7 - col) = hi
  generalize (vram.read (base + 2 * r)).getLsbD (7 - col) = lo
  revert hi lo
  decide

end Ppu

/-- Settles O51: the cell of the column, with the tile's offset as a natural number. -/
theorem backgroundLine : Obligations.BackgroundLine := by
  unfold Obligations.BackgroundLine
  intro vram oam p x y hbg hobj hwin hly hx hy
  have hhidden : p.windowVisible = false := by rw [windowVisible, hwin, Bool.and_false]; rfl
  refine ⟨(composeLine_cell vram oam p hx hly).trans ?_, composeLine_other vram oam p,
    composeLine_winLine hhidden vram oam⟩
  rw [cell_of_background hbg hobj hhidden, mapPixel, tileBase_eq, shade, tilePixel_toNat, mapBase]

/-! ## Priority among objects (R499) -/

namespace Ppu

/-- `a` is shown rather than `b`, or is `b`: smaller X, and among equal X no later in OAM. -/
def objLe (oam : Memory) (a b : Nat × Byte) : Prop :=
  (objByte oam a.1 1).toNat < (objByte oam b.1 1).toNat
    ∨ ((objByte oam a.1 1).toNat = (objByte oam b.1 1).toNat ∧ a.1 ≤ b.1)

theorem objLe_refl (oam : Memory) (a : Nat × Byte) : objLe oam a a := .inr ⟨rfl, le_rfl⟩

theorem objLe_trans {oam : Memory} {a b c : Nat × Byte} (h : objLe oam a b) (h' : objLe oam b c) : objLe oam a c := by
  unfold objLe at *
  omega

theorem objLe_of_before {oam : Memory} {a b : Nat × Byte} (h : objBefore oam a b = true) : objLe oam a b := by
  simp only [objBefore, Bool.or_eq_true, Bool.and_eq_true, decide_eq_true_eq] at h
  unfold objLe
  omega

theorem objLe_of_not_before {oam : Memory} {a b : Nat × Byte} (h : ¬ objBefore oam a b = true) : objLe oam b a := by
  simp only [objBefore, Bool.or_eq_true, Bool.and_eq_true, decide_eq_true_eq] at h
  unfold objLe
  omega

/-- One step of the search for the winner: the best object so far against the next. -/
def objBetter (oam : Memory) (best : Option (Nat × Byte)) (o : Nat × Byte) : Option (Nat × Byte) :=
  match best with
  | none => some o
  | some b => if objBefore oam o b then some o else some b

/-- The selected objects that show a colour at column `x` (R499). -/
def objsShown (p : Ppu) (vram oam : Memory) (x : Nat) : List (Nat × Byte) :=
  p.lineObjs.filter fun o => objCovers oam x o.1 && p.objPixel vram oam x o ≠ 0#2

theorem mem_objsShown {p : Ppu} {vram oam : Memory} {x : Nat} {o : Nat × Byte} : o ∈ p.objsShown vram oam x ↔
    o ∈ p.lineObjs ∧ (oam.read (4 * o.1 + 1)).toNat ≤ x + 8 ∧ x + 8 < (oam.read (4 * o.1 + 1)).toNat + 8
      ∧ p.objPixel vram oam x o ≠ 0#2 := by
  simp only [objsShown, List.mem_filter, objCovers, Bool.and_eq_true, decide_eq_true_eq, and_assoc]
  rfl

theorem objWinner_of_on {p : Ppu} (h : p.lcdc.getLsbD 1 = true) (vram oam : Memory) (x : Nat) :
    p.objWinner vram oam x = (p.objsShown vram oam x).foldl (objBetter oam) none := if_pos h

/-- The search from a best object `b` ends in the one of `b` and the objects searched that is shown rather than the
others. -/
theorem foldl_objBetter_some (oam : Memory) (os : List (Nat × Byte)) (b : Nat × Byte) :
    ∃ w ∈ b :: os, os.foldl (objBetter oam) (some b) = some w ∧ ∀ o ∈ b :: os, objLe oam w o := by
  induction os generalizing b with
  | nil => exact ⟨b, by simp, rfl, by simp [objLe_refl]⟩
  | cons a os ih =>
    by_cases hbefore : objBefore oam a b = true
    · obtain ⟨w, hw, hfold, hle⟩ := ih a
      refine ⟨w, List.mem_cons_of_mem b hw, ?_, ?_⟩
      · rwa [List.foldl_cons, objBetter, if_pos hbefore]
      · exact List.forall_mem_cons.2 ⟨objLe_trans (hle a List.mem_cons_self) (objLe_of_before hbefore), hle⟩
    · obtain ⟨w, hw, hfold, hle⟩ := ih b
      obtain ⟨hb, hos⟩ := List.forall_mem_cons.1 hle
      refine ⟨w, ?_, ?_, ?_⟩
      · simp only [List.mem_cons] at hw ⊢
        exact hw.imp_right .inr
      · rwa [List.foldl_cons, objBetter, if_neg hbefore]
      · exact List.forall_mem_cons.2
          ⟨hb, List.forall_mem_cons.2 ⟨objLe_trans hb (objLe_of_not_before hbefore), hos⟩⟩

/-- The whole search: nothing where there is no object, else the one that is shown rather than all others. -/
theorem foldl_objBetter_none (oam : Memory) (os : List (Nat × Byte)) :
    (os = [] ∧ os.foldl (objBetter oam) none = none)
      ∨ ∃ w ∈ os, os.foldl (objBetter oam) none = some w ∧ ∀ o ∈ os, objLe oam w o := by
  cases os with
  | nil => exact .inl ⟨rfl, rfl⟩
  | cons a os => exact .inr (foldl_objBetter_some oam os a)

end Ppu

/-- Settles O52: the winner is the least, by X and then OAM index, of the selected objects that show a colour. -/
theorem objectPriority : Obligations.ObjectPriority := by
  unfold Obligations.ObjectPriority
  intro vram oam p x hon
  dsimp only
  rw [objWinner_of_on hon]
  obtain ⟨hnil, hnone⟩ | ⟨w, hw, hsome, hle⟩ := foldl_objBetter_none oam (p.objsShown vram oam x)
  · rw [hnone]
    exact ⟨nofun, fun _ o ho => List.not_mem_nil (hnil ▸ mem_objsShown.2 ho)⟩
  · rw [hsome]
    refine ⟨fun o ho => ?_, nofun⟩
    obtain rfl := Option.some.inj ho
    exact ⟨mem_objsShown.1 hw, fun o' ho' => hle o' (mem_objsShown.2 ho')⟩

end Sys2Proof.Machine
end

section
/-! PROOFS. The APU: the mixer's bounds, the power switch, and the number of samples made (O53 to O55). -/

namespace Sys2Proof.Machine

/-! ## The mixer (R542, R583) -/

theorem Pulse.out_le (c : Pulse) : c.out ≤ 15 := by
  have := c.env.vol.isLt
  unfold out
  split <;> omega

theorem Wave.out_le (c : Wave) : c.out ≤ 15 := by
  have hbuf := c.buf.isLt
  have hshift := Nat.div_le_self c.buf.toNat (2 ^ c.levelShift)
  unfold out
  split <;> omega

theorem Noise.out_le (c : Noise) : c.out ≤ 15 := by
  have := c.env.vol.isLt
  unfold out
  split <;> omega

namespace Apu

theorem mix_le (a : Apu) (one two three four : Bool) : a.mix one two three four ≤ 60 := by
  have h1 := a.ch1.out_le
  have h2 := a.ch2.out_le
  have h3 := a.ch3.out_le
  have h4 := a.ch4.out_le
  unfold mix
  split_ifs <;> omega

/-- One side of a sample: a volume of 1 to 8 times the mix (R583). -/
theorem volume_mul_mix_le (a : Apu) (n : Nat) (one two three four : Bool) :
    (n % 8 + 1) * a.mix one two three four ≤ 480 :=
  Nat.mul_le_mul (show n % 8 + 1 ≤ 8 by omega) (a.mix_le one two three four)

theorem sample_of_off {a : Apu} (h : a.on = false) : a.sample = (0, 0) := if_neg (by simp [h])

theorem sample_le (a : Apu) : a.sample.1 ≤ 480 ∧ a.sample.2 ≤ 480 := by
  unfold sample
  split
  · exact ⟨a.volume_mul_mix_le _ _ _ _ _, a.volume_mul_mix_le _ _ _ _ _⟩
  · exact ⟨Nat.zero_le _, Nat.zero_le _⟩

end Apu

/-- Settles O53, from the bounds of the four channels. -/
theorem sampleBounds : Obligations.SampleBounds := by
  unfold Obligations.SampleBounds
  intro a
  exact ⟨a.sample_le.1, a.sample_le.2, Apu.sample_of_off⟩

/-! ## Sample generation (R545, R585) -/

namespace Apu

/-- What no clock of the sequencer and the channels touches: the accumulator and the samples made. -/
def sampling (a : Apu) : Nat × List (Nat × Nat) := (a.sampleAcc, a.audioOut)

theorem sweepClock_sampling (a : Apu) : a.sweepClock.sampling = a.sampling := by
  obtain ⟨s, f, b, h⟩ := a.sweepClock_spec
  rw [h]
  rfl

theorem frameStep_sampling (a : Apu) : a.frameStep.sampling = a.sampling := by
  have hlength : (if a.fsStep.toNat % 2 = 0 then a.lengthClock else a).sampling = a.sampling := by split <;> rfl
  unfold frameStep
  dsimp only
  generalize (if a.fsStep.toNat % 2 = 0 then a.lengthClock else a) = b at *
  have hsweep : (if a.fsStep.toNat = 2 ∨ a.fsStep.toNat = 6 then b.sweepClock else b).sampling = b.sampling := by
    split
    · exact b.sweepClock_sampling
    · rfl
  generalize (if a.fsStep.toNat = 2 ∨ a.fsStep.toNat = 6 then b.sweepClock else b) = c at *
  have henvelope : (if a.fsStep.toNat = 7 then c.envelopeClock else c).sampling = c.sampling := by split <;> rfl
  exact henvelope.trans (hsweep.trans hlength)

theorem clockChannels_sampling (a : Apu) (wave : Memory) : (a.clockChannels wave).sampling = a.sampling := by
  unfold clockChannels
  dsimp only
  split
  · exact frameStep_sampling { a with fsCounter := 8192 }
  · rfl

/-- Of the `total` accumulated, every whole `num` became a pair after the `before` ones, and the rest is kept. -/
structure Sampled (num total : Nat) (before : List (Nat × Nat)) (r : Apu) : Prop where
  rest : r.sampleAcc = total % num
  pairs : ∃ more, r.audioOut = before ++ more ∧ more.length = total / num ∧ ∀ p ∈ more, p.1 ≤ 480 ∧ p.2 ≤ 480

theorem Sampled.refl {num : Nat} {a : Apu} (h : a.sampleAcc < num) : Sampled num a.sampleAcc a.audioOut a :=
  ⟨(Nat.mod_eq_of_lt h).symm, [], (List.append_nil _).symm, (Nat.div_eq_of_lt h).symm, nofun⟩

theorem Sampled.trans {num x y : Nat} {before : List (Nat × Nat)} {a r : Apu} (hnum : 0 < num)
    (h : Sampled num x before a) (h' : Sampled num (a.sampleAcc + y) a.audioOut r) : Sampled num (x + y) before r := by
  obtain ⟨hrest, more, hout, hlen, hle⟩ := h
  obtain ⟨hrest', more', hout', hlen', hle'⟩ := h'
  rw [hrest] at hrest' hlen'
  refine ⟨?_, more ++ more', ?_, ?_, List.forall_mem_append.2 ⟨hle, hle'⟩⟩
  · rw [hrest', Nat.mod_add_mod]
  · rw [hout', hout, List.append_assoc]
  · rw [List.length_append, hlen, hlen', ← Nat.mul_add_div hnum, ← Nat.add_assoc, Nat.div_add_mod]

/-- One T-cycle of sample generation: with a period of at least one T-cycle, at most one pair. -/
theorem sampleTick_sampled {prm : Params} (hperiod : prm.samplePeriodDen ≤ prm.samplePeriodNum) {a : Apu}
    (ha : a.sampleAcc < prm.samplePeriodNum) :
    Sampled prm.samplePeriodNum (a.sampleAcc + prm.samplePeriodDen) a.audioOut (a.sampleTick prm) := by
  unfold sampleTick
  dsimp only
  split
  · rename_i hfull
    have hrest : a.sampleAcc + prm.samplePeriodDen - prm.samplePeriodNum < prm.samplePeriodNum := by omega
    refine ⟨?_, [a.sample], rfl, ?_, List.forall_mem_singleton.2 a.sample_le⟩
    · rw [Nat.mod_eq_sub_mod hfull, Nat.mod_eq_of_lt hrest]
    · rw [Nat.div_eq_sub_div (by omega) hfull, Nat.div_eq_of_lt hrest]
      rfl
  · rename_i hfull
    exact .refl (a := { a with sampleAcc := a.sampleAcc + prm.samplePeriodDen }) (Nat.lt_of_not_le hfull)

/-- One T-cycle of the APU, on or off. -/
theorem tick_sampled {prm : Params} (hperiod : prm.samplePeriodDen ≤ prm.samplePeriodNum) (wave : Memory) {a : Apu}
    (ha : a.sampleAcc < prm.samplePeriodNum) :
    Sampled prm.samplePeriodNum (a.sampleAcc + prm.samplePeriodDen) a.audioOut (a.tick prm wave) := by
  have hclock : (if a.on then a.clockChannels wave else a).sampling = a.sampling := by
    split
    · exact a.clockChannels_sampling wave
    · rfl
  unfold tick
  generalize (if a.on then a.clockChannels wave else a) = b at *
  obtain ⟨hacc, hout⟩ := Prod.mk.inj hclock
  rw [← hacc, ← hout]
  exact sampleTick_sampled hperiod (hacc ▸ ha)

theorem advance_sampled {prm : Params} (hperiod : prm.samplePeriodDen ≤ prm.samplePeriodNum) (wave : Memory) (t : Nat)
    {a : Apu} (ha : a.sampleAcc < prm.samplePeriodNum) :
    Sampled prm.samplePeriodNum (a.sampleAcc + t * prm.samplePeriodDen) a.audioOut (a.advance prm wave t) := by
  have hnum : 0 < prm.samplePeriodNum := Nat.zero_lt_of_lt ha
  induction t generalizing a with
  | zero =>
    rw [Nat.zero_mul]
    exact .refl ha
  | succ t ih =>
    have hfirst := tick_sampled hperiod wave ha
    rw [Nat.succ_mul, Nat.add_comm (t * _), ← Nat.add_assoc]
    exact hfirst.trans hnum (ih (hfirst.rest ▸ Nat.mod_lt _ hnum))

end Apu

/-- Settles O55, by induction on the T-cycles, each of which makes at most one pair. -/
theorem sampleCount : Obligations.SampleCount := by
  unfold Obligations.SampleCount
  intro prm wave t a _ hperiod ha
  obtain ⟨hrest, more, hout, hlen, hle⟩ := Apu.advance_sampled hperiod wave t ha
  exact ⟨by rw [hout, List.length_append, hlen], hrest, more, hout, hle⟩

/-! ## Power (R541, R582) -/

/-- The registers that keep their value against a write while the APU is off: NR10 to NR51 (R541). -/
def IoReg.needsPower : IoReg → Bool
  | .nr10 | .nr11 | .nr12 | .nr13 | .nr14 | .nr21 | .nr22 | .nr23 | .nr24 | .nr30 | .nr31 | .nr32 | .nr33 | .nr34
  | .nr41 | .nr42 | .nr43 | .nr44 | .nr50 | .nr51 => true
  | _ => false

/-- A place at which a write does nothing while the APU is off: one of those registers, or nothing. -/
def Place.needsPower : Place → Bool
  | .io r => r.needsPower
  | .absent => true
  | _ => false

/-- Between NR10 and NR51 the map has those registers and nothing else (R40). -/
theorem Place.ofIo_needsPower : ∀ o < 0x26, 0x10 ≤ o → (Place.ofIo o).needsPower = true := by
  decide +kernel

namespace Bus

variable {b : Bus}

theorem ioWrite_of_off (hoff : b.apu.on = false) (v : Byte) {r : IoReg} (hr : r.needsPower = true) :
    b.ioWrite v r = b := by
  have hignored (a : Apu) : b.apuWrite a = b := if_neg (Bool.eq_false_iff.1 hoff)
  cases r with
  | nr10 | nr11 | nr12 | nr13 | nr14 | nr21 | nr22 | nr23 | nr24 | nr30 | nr31 | nr32 | nr33 | nr34 | nr41 | nr42
  | nr43 | nr44 | nr50 | nr51 => exact hignored _
  | _ => cases hr

theorem write_of_off (hoff : b.apu.on = false) (prm : Params) {a : Word} (v : Byte)
    (h : (b.cart.place a).needsPower = true) : b.write prm a v = b := by
  unfold write
  cases hp : b.cart.place a <;> rw [hp] at h
  case io r => exact (if_neg Bool.false_ne_true).trans (ioWrite_of_off hoff v h)
  case absent => rfl
  all_goals cases h

/-- A write of NR52 (R582). -/
theorem write_nr52 (b : Bus) (prm : Params) (v : Byte) :
    b.write prm 0xFF26#16 v = { b with apu := b.apu.writeNr52 v } := b.write_address prm v .nr52

end Bus

namespace Apu

variable {a : Apu} {v : Byte}

theorem writeNr52_of_same (h : a.on = v.getLsbD 7) : a.writeNr52 v = a := by
  simp [writeNr52, h]

theorem writeNr52_of_off (ha : a.on = true) (hv : v.getLsbD 7 = false) : a.writeNr52 v = a.powerOff :=
  if_pos (by rw [ha, hv]; rfl)

theorem writeNr52_of_on (ha : a.on = false) (hv : v.getLsbD 7 = true) : a.writeNr52 v = a.powerOn := by
  rw [writeNr52, ha, hv]
  rfl

end Apu

theorem Apu.powerOff_nr52 (a : Apu) : a.powerOff.nr52 = 0x70#8 := by
  simp only [nr52, powerOff, Pulse.powerOff, Wave.powerOff, Noise.powerOff]
  decide

/-- What the registers with a readable bit read after power-off (R582). -/
def IoReg.afterPowerOff : List (IoReg × Byte) :=
  [(.nr10, 0x80#8), (.nr11, 0x3F#8), (.nr12, 0x00#8), (.nr14, 0xBF#8), (.nr21, 0x3F#8), (.nr22, 0x00#8),
    (.nr24, 0xBF#8), (.nr30, 0x7F#8), (.nr32, 0x9F#8), (.nr34, 0xBF#8), (.nr42, 0x00#8), (.nr43, 0x00#8),
    (.nr44, 0xBF#8), (.nr50, 0x00#8), (.nr51, 0x00#8)]

theorem Bus.ioRead_powerOff (b : Bus) :
    ∀ p ∈ IoReg.afterPowerOff, Bus.ioRead { b with apu := b.apu.powerOff } p.1 = p.2 := by
  simp only [IoReg.afterPowerOff, List.forall_mem_cons, List.not_mem_nil, false_imp_iff, implies_true, ioRead,
    Apu.powerOff, Pulse.powerOff, Wave.powerOff, Noise.powerOff]
  decide

/-- Settles O54: a write while off is ignored at every place in the range, and a write of NR52 is one of three. -/
theorem apuPower : Obligations.ApuPower := by
  unfold Obligations.ApuPower
  intro b prm a v
  dsimp only
  rw [b.write_nr52]
  refine ⟨fun hoff hlo hhi => Bus.write_of_off hoff prm v ?_, fun hsame => ?_, fun hon hv => ?_, fun hoff hv => ?_⟩
  · rw [b.cart.place_ioBlock (by omega) (by omega)]
    exact Place.ofIo_needsPower _ (by omega) (by omega)
  · rw [Apu.writeNr52_of_same hsame]
  · rw [Apu.writeNr52_of_off hon hv]
    refine ⟨rfl, rfl, rfl, rfl, rfl, rfl, rfl, rfl, rfl, (Bus.read_address _ prm .nr52).trans b.apu.powerOff_nr52,
      fun p hp => ?_, rfl, rfl, rfl, rfl, rfl, rfl, rfl, rfl, rfl, rfl, rfl⟩
    have hp' : p ∈ IoReg.afterPowerOff.map fun q => (q.1.address, q.2) := hp
    obtain ⟨q, hq, rfl⟩ := List.mem_map.1 hp'
    exact (Bus.read_address _ prm q.1).trans (b.ioRead_powerOff q hq)
  · rw [Apu.writeNr52_of_on hoff hv]
    exact ⟨rfl, rfl, rfl, rfl, rfl, rfl⟩

end Sys2Proof.Machine
end
